-- ==== Sys2Proof/Word.lean ====
section
/-! DEFINITION. The words of the engine: a byte of operand memory or of a register limb, and the 32-bit word of a
command and of a CSR (spec/20_memory.md R50, spec/30_encoding.md R75, spec/10_state.md R27). -/

namespace Sys2Proof

/-- A byte: one cell of operand memory, or one limb of a register at rest. -/
abbrev Byte := BitVec 8

/-- A 32-bit word: a command word, or the content of a CSR. -/
abbrev Word := BitVec 32

end Sys2Proof
end

