-- ==== Sys2Proof/Config.lean ====
section
/-! DEFINITION. What the spec leaves to the implementation or leaves open, each an opaque constant: nothing in Lean can
evaluate one or prove a value of it, so what is proved holds for every value. -/

namespace Sys2Proof.Config

/-- MSG_MAX, the capacity of the message region in bytes (spec/00_scope.md R9, spec/20_memory.md R50): an open
parameter, "the model takes it as an argument". DESIGN CHOICE of form, log entry 3. -/
opaque msgMax : Nat

/-- H, the hash function of the hash port (spec/20_memory.md R65): "a total function from finite byte strings to
64-byte strings". That it is total and answers 64 bytes is its type. DESIGN CHOICE of form, log entry 4. -/
opaque hash : List Byte → Vector Byte 64

/-- What a byte of operand memory that nothing has written since the last reset reads as: unspecified
(spec/10_state.md R37, spec/70_reset_and_hazards.md R263). The first argument counts reset events, the second is the
address. Log entry 2. -/
opaque unwrittenByte : Nat → Nat → Byte

/-- A free byte: the first argument is the number of the draw (State.draws), the second tells the bytes of one draw
apart. Log entries 6, 7, 8. -/
opaque freeByte : Nat → Nat → Byte

/-- A free bit: the first argument is the number of the draw (State.draws), the second tells the bits of one draw
apart. Log entries 6, 7, 8. -/
opaque freeBit : Nat → Nat → Bool

end Sys2Proof.Config
end

