-- ==== Sys2Proof/Syntax.lean ====
section
/-! DEFINITION. The commands as syntax: one constructor per row of spec/30_encoding.md R80, with the operands of the
row's format (R77) in the order rd, ra, rb, rc, or in the order of the assembler shape where memory comes first. -/

namespace Sys2Proof

/-- The 32 commands. A register operand is its index, a memory operand its 12-bit byte address; `WellFormed.lean`
says which values an encoding admits. Which register file an index selects is fixed by the command (R76): FE commands
index f, SC commands s, GE commands g; GE.DSMUL takes `rd`, `ra` in g and `rb`, `rc` in s. -/
inductive Instr where
  | feUnpack (rd imm : Nat)            -- FE.UNPACK fd, [imm12]
  | fePack (imm ra : Nat)              -- FE.PACK [imm12], fa
  | feAdd (rd ra rb : Nat)             -- FE.ADD fd, fa, fb
  | feSub (rd ra rb : Nat)             -- FE.SUB fd, fa, fb
  | feMul (rd ra rb : Nat)             -- FE.MUL fd, fa, fb
  | feSquare (rd ra : Nat)             -- FE.SQUARE fd, fa
  | feInvert (rd ra : Nat)             -- FE.INVERT fd, fa
  | fePow2523 (rd ra : Nat)            -- FE.POW2523 fd, fa
  | feFreeze (rd ra : Nat)             -- FE.FREEZE fd, fa
  | feIszero (ra : Nat)                -- FE.ISZERO fa
  | feIseq (ra rb : Nat)               -- FE.ISEQ fa, fb
  | feGetparity (ra : Nat)             -- FE.GETPARITY fa
  | feCmov (rd ra : Nat)               -- FE.CMOV fd, fa
  | scFrom32 (rd imm : Nat)            -- SC.FROM32 sd, [imm12]
  | scFrom64 (rd imm : Nat)            -- SC.FROM64 sd, [imm12]
  | scTo32 (imm ra : Nat)              -- SC.TO32 [imm12], sa
  | scAdd (rd ra rb : Nat)             -- SC.ADD sd, sa, sb
  | scSubnr (rd ra rb : Nat)           -- SC.SUBNR sd, sa, sb
  | scMul (rd ra rb : Nat)             -- SC.MUL sd, sa, sb
  | scLt (ra rb : Nat)                 -- SC.LT sa, sb
  | scIszero (ra : Nat)                -- SC.ISZERO sa
  | scIsshort (ra : Nat)               -- SC.ISSHORT sa
  | scLessorder (imm : Nat)            -- SC.LESSORDER [imm12]
  | scWindow3 (imm ra : Nat)           -- SC.WINDOW3 [imm12], sa
  | scWindow5 (imm ra : Nat)           -- SC.WINDOW5 [imm12], sa
  | scInterleave2 (imm ra rb : Nat)    -- SC.INTERLEAVE2 [imm12], sa, sb
  | geDecompneg (rd imm : Nat)         -- GE.DECOMPNEG gd, [imm12]
  | gePack (imm ra : Nat)              -- GE.PACK [imm12], ga
  | geAdd (rd ra rb : Nat)             -- GE.ADD gd, ga, gb
  | geDbl (rd ra : Nat)                -- GE.DBL gd, ga
  | geDsmul (rd ra rb rc : Nat)        -- GE.DSMUL gd, ga, sb, sc
  | verify                             -- VERIFY
  deriving DecidableEq, Repr

end Sys2Proof
end

