-- ==== Sys2Proof/Machine/State.lean ====
section
/-! DEFINITION. The state of one engine as plain data, the reasons a step could stop, and the state after reset
(spec/10_state.md R20 to R37, spec/20_memory.md R50, spec/60_exceptions.md R231). -/

namespace Sys2Proof.Machine

/-- A field element at rest: 32 limbs of 8 bits, limb 0 first (R21). -/
abbrev Fe := Vector Byte 32

/-- A scalar at rest: 32 limbs of 8 bits, limb 0 first (R23). -/
abbrev Sc := Vector Byte 32

/-- The 64 bytes the hash collaborator returns (spec/20_memory.md R64). -/
abbrev Digest := Vector Byte 64

/-- A group element: four field elements X, Y, Z, T in that order (R24). -/
structure Ge where
  x : Fe
  y : Fe
  z : Fe
  t : Fe
  deriving DecidableEq, Repr

/-- A register with its validity bit (R25): `valid = false` is "holds no value". -/
structure Reg (α : Type) where
  value : α
  valid : Bool
  deriving DecidableEq, Repr

/-- Operand memory: the bytes written since the last reset, addresses strictly rising. An address that is not listed
has not been written. -/
abbrev Memory := List Host.Cell

/-- The parameters of the engine (spec/00_scope.md R9): not machine state, carried here because a step takes no other
argument; no step changes them. Log entries 3 and 4. -/
structure Params where
  /-- MSG_MAX. -/
  msgMax : Nat
  /-- Values of H at finitely many byte strings; everywhere else H is `Config.hash`. -/
  hashTable : List (List Byte × Digest)
  deriving DecidableEq, Repr

/-- One access of the host to the engine's ports (spec/20_memory.md R50, R55, R61; spec/60_exceptions.md R240;
spec/70_reset_and_hazards.md R260). Log entry 5. -/
inductive HostAccess where
  /-- The host writes a CSR. After a write to CMD (CSR 0) it lets the command complete before its next access. -/
  | writeCsr (n : Nat) (v : Word)
  /-- The host writes a command word to CMD and makes its next access while BUSY = 1, against R61. -/
  | startCmd (w : Word)
  /-- The host reads a CSR. -/
  | readCsr (n : Nat)
  /-- The host writes one byte of operand memory. -/
  | writeOm (a : Nat) (b : Byte)
  /-- The host reads one byte of operand memory. -/
  | readOm (a : Nat)
  /-- The host waits until BUSY = 0. -/
  | wait
  /-- The reset input. -/
  | reset
  deriving DecidableEq, Repr

/-- The state of the engine. The last six fields are the model's own. -/
structure State where
  /-- The FE register file, f0 to f15 (R21). -/
  f : Vector (Reg Fe) 16
  /-- The SC register file, s0 to s3 (R23). -/
  s : Vector (Reg Sc) 4
  /-- The GE register file, g0 to g3 (R24). -/
  g : Vector (Reg Ge) 4
  /-- The predicate flag P (R26), STATUS[1]. -/
  p : Bool
  /-- The accepted command that has not completed. STATUS.BUSY is 1 exactly while there is one (R29,
  spec/20_memory.md R62). -/
  running : Option Instr
  /-- STATUS.FAULT (R29). -/
  fault : Bool
  /-- STATUS.FAULT_CODE (R29, spec/60_exceptions.md R231). -/
  faultCode : Byte
  /-- PK_LEN (R30). -/
  pkLen : Word
  /-- SIG_LEN (R31). -/
  sigLen : Word
  /-- MSG_LEN (R32). -/
  msgLen : Word
  /-- Operand memory (spec/20_memory.md R50). -/
  om : Memory
  /-- The parameters of the engine. -/
  params : Params
  /-- What the host does next, oldest access first. -/
  host : List HostAccess
  /-- The data of the host's most recent read. -/
  rdata : Word
  /-- How many reset events there have been; it selects the unspecified contents of memory. -/
  resets : Nat
  /-- How many free values have been drawn. -/
  draws : Nat
  deriving DecidableEq, Repr

/-- The reasons a step could end in `Host.Outcome.fault`. There is none: a fault of the spec is a described next state
(spec/60_exceptions.md R234), and no access to the engine stops it for good. -/
inductive Fault
  deriving DecidableEq, Repr

/-- The reasons a step could be refused. -/
inductive Refusal where
  /-- The instruction has no meaning yet: raised by an arm of `exec` alone; safe (a claim about a next state becomes
  unprovable). No arm raises it. -/
  | notModelled (mnemonic : String)
  deriving DecidableEq, Repr

/-- The codes of spec/60_exceptions.md R231. -/
inductive FaultCode where
  /-- 0x01: the word written to CMD matches no row of the opcode map. -/
  | illegal
  /-- 0x02: a source register's validity bit is 0. -/
  | unwritten
  /-- 0x03: the span of a unit-level command ends above 0x1000. -/
  | addr
  /-- 0x04: a host write while BUSY = 1. -/
  | busy
  /-- 0x05: VERIFY with MSG_LEN > MSG_MAX. -/
  | len
  deriving DecidableEq, Repr

/-- 32 zero limbs. -/
def zeroLimbs : Vector Byte 32 := Vector.replicate 32 0

/-- The state right after the first reset: every field as spec/10_state.md R37 gives it. Register contents are
unspecified there and unreadable (validity bit 0): zero, DESIGN CHOICE, log entry 1. Memory lists nothing. The model's
own fields: log entries 2 to 6. -/
def State.reset : State where
  f := Vector.replicate 16 ⟨zeroLimbs, false⟩
  s := Vector.replicate 4 ⟨zeroLimbs, false⟩
  g := Vector.replicate 4 ⟨⟨zeroLimbs, zeroLimbs, zeroLimbs, zeroLimbs⟩, false⟩
  p := false
  running := none
  fault := false
  faultCode := 0
  pkLen := 0
  sigLen := 0
  msgLen := 0
  om := []
  params := ⟨Config.msgMax, []⟩
  host := []
  rdata := 0
  resets := 0
  draws := 0

end Sys2Proof.Machine
end

