-- ==== Sys2Proof/Machine/Flags.lean ====
section
/-! DEFINITION. The predicate flag P, the fault codes as bytes, and the STATUS word (spec/10_state.md R26, R29;
spec/60_exceptions.md R231). There are no carry, overflow, zero or sign flags (R26). -/

namespace Sys2Proof.Machine

/-- R26: `P <- b`. -/
def State.setP (s : State) (b : Bool) : State := { s with p := b }

/-- R231: the byte of STATUS.FAULT_CODE. -/
def FaultCode.toByte : FaultCode → Byte
  | .illegal => 0x01
  | .unwritten => 0x02
  | .addr => 0x03
  | .busy => 0x04
  | .len => 0x05

/-- R29: STATUS.BUSY is 1 while a command executes. -/
def State.busy (s : State) : Bool := s.running.isSome

/-- A bit as a number. -/
def bitVal (b : Bool) : Nat := if b then 1 else 0

/-- R29: the STATUS word, bit 0 BUSY, bit 1 P, bit 2 FAULT, bits 15:8 FAULT_CODE, all others 0. `p` is the value shown
in the P bit. -/
def State.statusWith (s : State) (p : Bool) : Word :=
  BitVec.ofNat 32 (bitVal s.busy + 2 * bitVal p + 4 * bitVal s.fault + 256 * s.faultCode.toNat)

/-- R29: the STATUS word. -/
def State.status (s : State) : Word := s.statusWith s.p

end Sys2Proof.Machine
end

