-- ==== Sys2Proof/Machine/Limbs.lean ====
section
/-! DEFINITION. Limb vectors, shared by the FE, SC and GE units: working limbs are lists of naturals, limb 0 first,
radix 256 (spec/00_scope.md R12, spec/40_field_element.md R105: "a model may compute working limbs as unbounded
naturals"); limbs at rest are bytes. -/

namespace Sys2Proof.Machine

/-- R12: `val(v) = Σ v[i]·2^(8·i)`. -/
def limbVal : List Nat → Nat
  | [] => 0
  | x :: xs => x + 256 * limbVal xs

/-- R12: `limbs_n(x)`, the n limbs of x, each below 256 (of x mod 2^(8n) where x is larger). -/
def limbsOf : Nat → Nat → List Nat
  | 0, _ => []
  | n + 1, x => x % 256 :: limbsOf n (x / 256)

/-- The first n limbs of a list, missing ones being 0. -/
def padTo : Nat → List Nat → List Nat
  | 0, _ => []
  | n + 1, [] => 0 :: padTo n []
  | n + 1, x :: xs => x :: padTo n xs

theorem padTo_length (n : Nat) (l : List Nat) : (padTo n l).length = n := by
  induction n generalizing l with
  | zero => rfl
  | succ n ih => cases l <;> simp [padTo, ih]

/-- The working limbs of a vector at rest. -/
def limbs {n : Nat} (v : Vector Byte n) : List Nat := v.toList.map BitVec.toNat

/-- The vector at rest that holds n working limbs, 8 bits of each. -/
def packLimbs (n : Nat) (l : List Nat) : Vector Byte n :=
  ⟨((padTo n l).map (BitVec.ofNat 8)).toArray, by simp [padTo_length]⟩

/-- The working limbs of a byte string: limb i is byte i (spec/20_memory.md R53). -/
def byteLimbs (bs : List Byte) : List Nat := bs.map BitVec.toNat

/-- The integer a little-endian byte string stands for (spec/20_memory.md R53). -/
def leVal (bs : List Byte) : Nat := limbVal (byteLimbs bs)

/-- The integer a vector at rest stands for (R12). -/
def vecVal {n : Nat} (v : Vector Byte n) : Nat := limbVal (limbs v)

/-- Limb by limb sum; a missing limb is 0. -/
def addLimbs : List Nat → List Nat → List Nat
  | [], ys => ys
  | xs, [] => xs
  | x :: xs, y :: ys => (x + y) :: addLimbs xs ys

/-- Every limb times a constant. -/
def scaleLimbs (k : Nat) (xs : List Nat) : List Nat := xs.map (k * ·)

/-- The limb convolution: limb k of the result is `Σ_{i+j=k} xs[i]·ys[j]`. -/
def convLimbs : List Nat → List Nat → List Nat
  | [], _ => []
  | x :: xs, ys => addLimbs (scaleLimbs x ys) (0 :: convLimbs xs ys)

/-- The 8-bit carry from limb to limb, `c` being the carry into the first: every limb but the last keeps its low 8
bits and hands `limb >> 8` on; the last takes the carry and is not masked. -/
def carryLimbs : Nat → List Nat → List Nat
  | _, [] => []
  | c, [x] => [x + c]
  | c, x :: y :: ys => (x + c) % 256 :: carryLimbs ((x + c) / 256) (y :: ys)

/-- The borrow chain of spec/41_scalar.md R143, R144, R150 over two limb vectors, `bo` being the borrow into limb 0:
`d = a[i] − b[i] − bo`; `bo = 1 if d < 0 else 0`; `t[i] = d + 256·bo`. The result is t and the last borrow. -/
def borrowLimbs : Nat → List Nat → List Nat → List Nat × Nat
  | bo, [], _ => ([], bo)
  | bo, a :: as, bs =>
    let d : Int := (a : Int) - (bs.headD 0 : Nat) - bo
    let bo' : Nat := if d < 0 then 1 else 0
    let rest := borrowLimbs bo' as bs.tail
    ((d + 256 * bo').toNat :: rest.1, rest.2)

end Sys2Proof.Machine
end

