-- ==== Sys2Proof/WellFormed.lean ====
section
/-! DEFINITION. Which commands have an encoding: the register index ranges of spec/30_encoding.md R78 and the address
field of R79. -/

namespace Sys2Proof

/-- R78: "An FE index uses all four bits: 0 to 15". -/
def feIdxOk (i : Nat) : Bool := decide (i < 16)

/-- R78: "An SC or GE index must be 0 to 3". -/
def scIdxOk (i : Nat) : Bool := decide (i < 4)

/-- R78, for a GE index. -/
def geIdxOk (i : Nat) : Bool := decide (i < 4)

/-- R79: `imm12` is an unsigned 12-bit byte address. -/
def immOk (a : Nat) : Bool := decide (a < 0x1000)

/-- Every operand of the command is in the range its field admits. -/
def Instr.wellFormed : Instr → Bool
  | .feUnpack rd imm => feIdxOk rd && immOk imm
  | .fePack imm ra => immOk imm && feIdxOk ra
  | .feAdd rd ra rb => feIdxOk rd && feIdxOk ra && feIdxOk rb
  | .feSub rd ra rb => feIdxOk rd && feIdxOk ra && feIdxOk rb
  | .feMul rd ra rb => feIdxOk rd && feIdxOk ra && feIdxOk rb
  | .feSquare rd ra => feIdxOk rd && feIdxOk ra
  | .feInvert rd ra => feIdxOk rd && feIdxOk ra
  | .fePow2523 rd ra => feIdxOk rd && feIdxOk ra
  | .feFreeze rd ra => feIdxOk rd && feIdxOk ra
  | .feIszero ra => feIdxOk ra
  | .feIseq ra rb => feIdxOk ra && feIdxOk rb
  | .feGetparity ra => feIdxOk ra
  | .feCmov rd ra => feIdxOk rd && feIdxOk ra
  | .scFrom32 rd imm => scIdxOk rd && immOk imm
  | .scFrom64 rd imm => scIdxOk rd && immOk imm
  | .scTo32 imm ra => immOk imm && scIdxOk ra
  | .scAdd rd ra rb => scIdxOk rd && scIdxOk ra && scIdxOk rb
  | .scSubnr rd ra rb => scIdxOk rd && scIdxOk ra && scIdxOk rb
  | .scMul rd ra rb => scIdxOk rd && scIdxOk ra && scIdxOk rb
  | .scLt ra rb => scIdxOk ra && scIdxOk rb
  | .scIszero ra => scIdxOk ra
  | .scIsshort ra => scIdxOk ra
  | .scLessorder imm => immOk imm
  | .scWindow3 imm ra => immOk imm && scIdxOk ra
  | .scWindow5 imm ra => immOk imm && scIdxOk ra
  | .scInterleave2 imm ra rb => immOk imm && scIdxOk ra && scIdxOk rb
  | .geDecompneg rd imm => geIdxOk rd && immOk imm
  | .gePack imm ra => immOk imm && geIdxOk ra
  | .geAdd rd ra rb => geIdxOk rd && geIdxOk ra && geIdxOk rb
  | .geDbl rd ra => geIdxOk rd && geIdxOk ra
  | .geDsmul rd ra rb rc => geIdxOk rd && geIdxOk ra && scIdxOk rb && scIdxOk rc
  | .verify => true

end Sys2Proof
end

