-- ==== Sys2Proof/Machine/Operands.lean ====
section
/-! DEFINITION. The operands of every command, as tables: the registers it reads (spec/60_exceptions.md R232), the
register it writes, the bytes of operand memory it reads and writes (spec/20_memory.md R52), and whether it writes P
(spec/10_state.md R26). Checks, frames and the abandonment of a command (R236) all rest on these tables. -/

namespace Sys2Proof.Machine

/-- A register of one of the three files. -/
inductive RegName where
  | f (i : Nat)
  | s (i : Nat)
  | g (i : Nat)
  deriving DecidableEq, Repr

end Sys2Proof.Machine

namespace Sys2Proof

open Sys2Proof.Machine (RegName)

/-- The source registers of a command: "F_UNWRITTEN, by the source registers each rule names", R232. -/
def Instr.sources : Instr → List RegName
  | .feUnpack _ _ => []
  | .fePack _ ra => [.f ra]
  | .feAdd _ ra rb => [.f ra, .f rb]
  | .feSub _ ra rb => [.f ra, .f rb]
  | .feMul _ ra rb => [.f ra, .f rb]
  | .feSquare _ ra => [.f ra]
  | .feInvert _ ra => [.f ra]
  | .fePow2523 _ ra => [.f ra]
  | .feFreeze _ ra => [.f ra]
  | .feIszero ra => [.f ra]
  | .feIseq ra rb => [.f ra, .f rb]
  | .feGetparity ra => [.f ra]
  | .feCmov rd ra => [.f rd, .f ra]
  | .scFrom32 _ _ => []
  | .scFrom64 _ _ => []
  | .scTo32 _ ra => [.s ra]
  | .scAdd _ ra rb => [.s ra, .s rb]
  | .scSubnr _ ra rb => [.s ra, .s rb]
  | .scMul _ ra rb => [.s ra, .s rb]
  | .scLt ra rb => [.s ra, .s rb]
  | .scIszero ra => [.s ra]
  | .scIsshort ra => [.s ra]
  | .scLessorder _ => []
  | .scWindow3 _ ra => [.s ra]
  | .scWindow5 _ ra => [.s ra]
  | .scInterleave2 _ ra rb => [.s ra, .s rb]
  | .geDecompneg _ _ => []
  | .gePack _ ra => [.g ra]
  | .geAdd _ ra rb => [.g ra, .g rb]
  | .geDbl _ ra => [.g ra]
  | .geDsmul _ ra rb rc => [.g ra, .s rb, .s rc]
  | .verify => []

/-- The destination register of a command (spec/10_state.md R21, R23, R24). VERIFY has none: it clears validity bits. -/
def Instr.dest : Instr → Option RegName
  | .feUnpack rd _ => some (.f rd)
  | .fePack _ _ => none
  | .feAdd rd _ _ => some (.f rd)
  | .feSub rd _ _ => some (.f rd)
  | .feMul rd _ _ => some (.f rd)
  | .feSquare rd _ => some (.f rd)
  | .feInvert rd _ => some (.f rd)
  | .fePow2523 rd _ => some (.f rd)
  | .feFreeze rd _ => some (.f rd)
  | .feIszero _ => none
  | .feIseq _ _ => none
  | .feGetparity _ => none
  | .feCmov rd _ => some (.f rd)
  | .scFrom32 rd _ => some (.s rd)
  | .scFrom64 rd _ => some (.s rd)
  | .scTo32 _ _ => none
  | .scAdd rd _ _ => some (.s rd)
  | .scSubnr rd _ _ => some (.s rd)
  | .scMul rd _ _ => some (.s rd)
  | .scLt _ _ => none
  | .scIszero _ => none
  | .scIsshort _ => none
  | .scLessorder _ => none
  | .scWindow3 _ _ => none
  | .scWindow5 _ _ => none
  | .scInterleave2 _ _ _ => none
  | .geDecompneg rd _ => some (.g rd)
  | .gePack _ _ => none
  | .geAdd rd _ _ => some (.g rd)
  | .geDbl rd _ => some (.g rd)
  | .geDsmul rd _ _ _ => some (.g rd)
  | .verify => none

/-- The bytes of operand memory a unit-level command reads, as (first address, count): R52. VERIFY reads the fixed
regions of spec/20_memory.md R51 and has no span of its own. -/
def Instr.readSpan : Instr → Option (Nat × Nat)
  | .feUnpack _ imm => some (imm, 32)
  | .scFrom32 _ imm => some (imm, 32)
  | .scFrom64 _ imm => some (imm, 64)
  | .scLessorder imm => some (imm, 32)
  | .geDecompneg _ imm => some (imm, 32)
  | .fePack _ _ | .feAdd _ _ _ | .feSub _ _ _ | .feMul _ _ _ | .feSquare _ _ | .feInvert _ _ | .fePow2523 _ _
  | .feFreeze _ _ | .feIszero _ | .feIseq _ _ | .feGetparity _ | .feCmov _ _ | .scTo32 _ _ | .scAdd _ _ _
  | .scSubnr _ _ _ | .scMul _ _ _ | .scLt _ _ | .scIszero _ | .scIsshort _ | .scWindow3 _ _ | .scWindow5 _ _
  | .scInterleave2 _ _ _ | .gePack _ _ | .geAdd _ _ _ | .geDbl _ _ | .geDsmul _ _ _ _ | .verify => none

/-- The bytes of operand memory a command writes, as (first address, count): R52. -/
def Instr.writeSpan : Instr → Option (Nat × Nat)
  | .fePack imm _ => some (imm, 32)
  | .scTo32 imm _ => some (imm, 32)
  | .scWindow3 imm _ => some (imm, 85)
  | .scWindow5 imm _ => some (imm, 51)
  | .scInterleave2 imm _ _ => some (imm, 127)
  | .gePack imm _ => some (imm, 32)
  | .feUnpack _ _ | .feAdd _ _ _ | .feSub _ _ _ | .feMul _ _ _ | .feSquare _ _ | .feInvert _ _ | .fePow2523 _ _
  | .feFreeze _ _ | .feIszero _ | .feIseq _ _ | .feGetparity _ | .feCmov _ _ | .scFrom32 _ _ | .scFrom64 _ _
  | .scAdd _ _ _ | .scSubnr _ _ _ | .scMul _ _ _ | .scLt _ _ | .scIszero _ | .scIsshort _ | .scLessorder _
  | .geDecompneg _ _ | .geAdd _ _ _ | .geDbl _ _ | .geDsmul _ _ _ _ | .verify => none

/-- Whether a command writes the predicate flag: R26, "FE.ISZERO, FE.ISEQ, FE.GETPARITY, SC.LT, SC.ISZERO, SC.ISSHORT,
SC.LESSORDER, GE.DECOMPNEG and VERIFY". -/
def Instr.writesP : Instr → Bool
  | .feIszero _ | .feIseq _ _ | .feGetparity _ | .scLt _ _ | .scIszero _ | .scIsshort _ | .scLessorder _
  | .geDecompneg _ _ | .verify => true
  | .feUnpack _ _ | .fePack _ _ | .feAdd _ _ _ | .feSub _ _ _ | .feMul _ _ _ | .feSquare _ _ | .feInvert _ _
  | .fePow2523 _ _ | .feFreeze _ _ | .feCmov _ _ | .scFrom32 _ _ | .scFrom64 _ _ | .scTo32 _ _ | .scAdd _ _ _
  | .scSubnr _ _ _ | .scMul _ _ _ | .scWindow3 _ _ | .scWindow5 _ _ | .scInterleave2 _ _ _ | .gePack _ _
  | .geAdd _ _ _ | .geDbl _ _ | .geDsmul _ _ _ _ => false

end Sys2Proof
end

