-- ==== Sys2Proof/Machine/Ops.lean ====
section
/-! DEFINITION. The named operations over operand memory, the register files and the fault state: every meaning and
every host access is written with them. -/

namespace Sys2Proof.Machine

/-! Operand memory. -/

/-- The byte last written at an address since the last reset, or none. -/
def Memory.get? : Memory → Nat → Option Byte
  | [], _ => none
  | (k, b) :: rest, a => if k = a then some b else Memory.get? rest a

/-- One byte written: the entry of its address is replaced, or put in its place in the rising order. -/
def Memory.write : Memory → Nat → Byte → Memory
  | [], a, b => [(a, b)]
  | (k, c) :: rest, a, b =>
    if a < k then (a, b) :: (k, c) :: rest
    else if a = k then (a, b) :: rest
    else (k, c) :: Memory.write rest a b

/-- Consecutive bytes written, the first at the given address. -/
def Memory.writeAll : Memory → Nat → List Byte → Memory
  | m, _, [] => m
  | m, a, b :: bs => Memory.writeAll (Memory.write m a b) (a + 1) bs

/-- The canonical form of a memory: addresses strictly rising. An address that is not listed holds no value, so no
entry can equal what an unlisted address holds, and equal memories are equal lists. -/
def Memory.wf : Memory → Bool
  | [] => true
  | [_] => true
  | (a, _) :: (b, c) :: rest => decide (a < b) && Memory.wf ((b, c) :: rest)

/-- What one address of operand memory reads as: the byte last written there, or, where nothing has written since the
last reset, the unspecified byte of R50 and R263. -/
def State.readByte (s : State) (a : Nat) : Byte :=
  match s.om.get? a with
  | some b => b
  | none => Config.unwrittenByte s.resets a

/-- `MemRead(addr, n)` of spec/00_scope.md R13: n bytes, the byte at `addr` first. -/
def State.readBytes (s : State) : Nat → Nat → List Byte
  | _, 0 => []
  | a, n + 1 => s.readByte a :: State.readBytes s (a + 1) n

/-- `MemWrite(addr, n, B)` of spec/00_scope.md R13. -/
def State.writeBytes (s : State) (a : Nat) (bs : List Byte) : State := { s with om := s.om.writeAll a bs }

/-- spec/20_memory.md R50: addresses 0 to 0x0FFF + MSG_MAX exist. -/
def State.omHas (s : State) (a : Nat) : Bool := decide (a < 0x1000 + s.params.msgMax)

/-- An address lies in a span (first address, count). -/
def inSpan (span : Option (Nat × Nat)) (a : Nat) : Bool :=
  match span with
  | some (b, n) => decide (b ≤ a ∧ a < b + n)
  | none => false

/-! The register files. An index outside a file names no register: it is never valid, reads as zero and is never
written; no well-formed command has one. -/

/-- `f[i]` (R13). -/
def State.fe (s : State) (i : Nat) : Fe := ((s.f[i]?).map Reg.value).getD zeroLimbs

/-- `s[i]` (R13). -/
def State.sc (s : State) (i : Nat) : Sc := ((s.s[i]?).map Reg.value).getD zeroLimbs

/-- `g[i]` (R13). -/
def State.ge (s : State) (i : Nat) : Ge :=
  ((s.g[i]?).map Reg.value).getD ⟨zeroLimbs, zeroLimbs, zeroLimbs, zeroLimbs⟩

/-- The validity bit of a register (R25). -/
def State.isValid (s : State) : RegName → Bool
  | .f i => ((s.f[i]?).map Reg.valid).getD false
  | .s i => ((s.s[i]?).map Reg.valid).getD false
  | .g i => ((s.g[i]?).map Reg.valid).getD false

/-- `f[i] <- v`: "write it and mark it written" (R13). -/
def State.writeF (s : State) (i : Nat) (v : Fe) : State := { s with f := s.f.setIfInBounds i ⟨v, true⟩ }

/-- `s[i] <- v` (R13). -/
def State.writeS (s : State) (i : Nat) (v : Sc) : State := { s with s := s.s.setIfInBounds i ⟨v, true⟩ }

/-- `g[i] <- v` (R13). -/
def State.writeG (s : State) (i : Nat) (v : Ge) : State := { s with g := s.g.setIfInBounds i ⟨v, true⟩ }

/-- The validity bit of g[i] is cleared (spec/42_group_element.md R190, FAIL); its contents stay. -/
def State.clearG (s : State) (i : Nat) : State := { s with g := s.g.setIfInBounds i ⟨s.ge i, false⟩ }

/-- A register that holds no value any more; its contents stay, unreadable. -/
def Reg.invalidate {α : Type} (r : Reg α) : Reg α := { r with valid := false }

/-- A whole register file that holds no value any more. -/
def invalidateAll {α : Type} {n : Nat} (v : Vector (Reg α) n) : Vector (Reg α) n :=
  ⟨(v.toList.map Reg.invalidate).toArray, by simp⟩

/-- spec/43_verifier.md R222: "clears the validity bit of every FE, SC and GE register". -/
def State.clearAll (s : State) : State :=
  { s with f := invalidateAll s.f, s := invalidateAll s.s, g := invalidateAll s.g }

/-! The hash port. -/

/-- H (spec/20_memory.md R65): the table where it lists the byte string, `Config.hash` elsewhere. -/
def Params.hash (p : Params) (msg : List Byte) : Digest :=
  match p.hashTable.find? (fun e => e.1 == msg) with
  | some e => e.2
  | none => Config.hash msg

/-! Faults and reset. -/

/-- Fault entry, spec/60_exceptions.md R234: STATUS.FAULT becomes 1, FAULT_CODE the code, BUSY is 0; no register, no
validity bit, no byte of memory and not P changes. -/
def State.takeFault (s : State) (c : FaultCode) : State :=
  { s with fault := true, faultCode := c.toByte, running := none }

/-- The reset event, spec/70_reset_and_hazards.md R260, R261: the state of spec/10_state.md R37 from any state. It is
the only way out of a fault (R262, spec/60_exceptions.md R237). Register contents stay, unreadable; memory becomes
unspecified anew. The parameters and what the host does next are not the engine's state. -/
def State.resetEvent (s : State) : State :=
  { s.clearAll with
      p := false, running := none, fault := false, faultCode := 0, pkLen := 0, sigLen := 0, msgLen := 0, om := [],
      resets := s.resets + 1 }

/-- spec/20_memory.md R58: the span of a unit-level command ends at or below 0x1000. -/
def spanOk (span : Option (Nat × Nat)) : Bool :=
  match span with
  | some (a, n) => decide (a + n ≤ 0x1000)
  | none => true

/-- spec/43_verifier.md R212: VERIFY faults with F_LEN when MSG_LEN > MSG_MAX; no other command looks at MSG_LEN. -/
def lenOk (i : Instr) (s : State) : Bool :=
  match i with
  | .verify => decide (s.msgLen.toNat ≤ s.params.msgMax)
  | _ => true

/-- The checks of spec/30_encoding.md R83 and spec/60_exceptions.md R233 in their order: the first that fails decides
the fault. A command with an operand outside its field has no legal word (R78): F_ILLEGAL. -/
def precheck (i : Instr) (s : State) : Option FaultCode :=
  if !i.wellFormed then some .illegal
  else if !(i.sources.all s.isValid) then some .unwritten
  else if !(spanOk i.readSpan && spanOk i.writeSpan) then some .addr
  else if !lenOk i s then some .len
  else none

/-- What a command does (R83, R234): a failing check is its fault and nothing else; otherwise its effect `s'`, computed
from `s`, so that every read comes before any write (spec/00_scope.md R14). -/
def State.command (s : State) (i : Instr) (s' : State) : Host.Outcome State Fault Refusal :=
  match precheck i s with
  | some c => .next (s.takeFault c)
  | none => .next s'

/-! The command abandoned by a host write while BUSY = 1. -/

/-- n free bytes of one draw, told apart by their position. -/
def freeBytes (draw : Nat) : Nat → Nat → List Byte
  | _, 0 => []
  | pos, n + 1 => Config.freeByte draw pos :: freeBytes draw (pos + 1) n

/-- An unspecified limb vector. The positions are above every address of low memory. -/
def freeLimbs (draw pos : Nat) : Vector Byte 32 := packLimbs 32 (byteLimbs (freeBytes draw pos 32))

/-- A register of unspecified contents and validity bit. -/
def State.freeReg (s : State) : Option RegName → State
  | some (.f i) => { s with f := s.f.setIfInBounds i ⟨freeLimbs s.draws 0x1000, Config.freeBit s.draws 1⟩ }
  | some (.s i) => { s with s := s.s.setIfInBounds i ⟨freeLimbs s.draws 0x1000, Config.freeBit s.draws 1⟩ }
  | some (.g i) =>
    let v : Ge := ⟨freeLimbs s.draws 0x1000, freeLimbs s.draws 0x1020, freeLimbs s.draws 0x1040, freeLimbs s.draws 0x1060⟩
    { s with g := s.g.setIfInBounds i ⟨v, Config.freeBit s.draws 1⟩ }
  | none => s

/-- A span of memory of unspecified bytes. -/
def State.freeSpan (s : State) : Option (Nat × Nat) → State
  | some (a, n) => s.writeBytes a (freeBytes s.draws a n)
  | none => s

/-- An unspecified flag P, for a command that writes it. -/
def State.freeP (s : State) (writes : Bool) : State :=
  if writes then s.setP (Config.freeBit s.draws 0) else s

/-- Fault(F_BUSY), spec/60_exceptions.md R236: the running command is abandoned and its destinations are unspecified:
"its destination register (contents and validity bit), P if it writes P, and the bytes of its destination span". -/
def State.abandon (s : State) (i : Instr) : State :=
  { (((s.freeReg i.dest).freeSpan i.writeSpan).freeP i.writesP).takeFault .busy with draws := s.draws + 1 }

end Sys2Proof.Machine
end

