-- ==== Sys2Proof/Machine/FieldElement.lean ====
section
/-! DEFINITION. The FE unit (spec/40_field_element.md): the pure functions on limb vectors (R102 to R120) and the meaning
of each FE command. -/

namespace Sys2Proof.Machine

/-! The carry-propagation pass. -/

/-- R102: one pass over 32 working limbs. `t` is the part of limb 31 at weight 2^255 and above; it is folded into limb 0
as 19·t, and then the 8-bit carries run from limb 0 to limb 31, which takes the last carry and is not masked again. -/
def fePass (v : List Nat) : List Nat :=
  let t := v.getD 31 0 / 128
  carryLimbs 0 ((v.set 31 (v.getD 31 0 % 128)).set 0 (v.getD 0 0 + 19 * t))

/-- R103: `fe_reduce(v, n)`, n passes in succession. How many reach INV-FE, and within which limb bounds, is R104
(Safety.lean, `LimbsWithin`). -/
def feReduce (v : List Nat) : Nat → List Nat
  | 0 => v
  | n + 1 => feReduce (fePass v) n

/-! Constants (R101, R120). -/

/-- The field modulus p = 2^255 − 19 (R100). -/
def fieldP : Nat := 2 ^ 255 - 19

/-- R101: the limbs of p. -/
def pLimbs : List Nat := 237 :: (List.replicate 30 255 ++ [127])

/-- R101: a limb vector of value 2p, each limb twice the limb of p. -/
def twoPLimbs : List Nat := 474 :: (List.replicate 30 510 ++ [254])

/-- R120: the zero vector. -/
def feZero : Fe := zeroLimbs

/-- R120: limb 0 = 1 and the rest 0. -/
def feOne : Fe := packLimbs 32 [1]

/-! Arithmetic. -/

/-- R106: limbs 0 to 30 are the bytes, limb 31 is the last byte with its top bit masked. -/
def feUnpack (bs : List Byte) : Fe :=
  packLimbs 32 ((byteLimbs bs).set 31 ((byteLimbs bs).getD 31 0 % 128))

/-- R108. Its limb bounds are R104 (c), its residue R121. -/
def feAdd (x y : Fe) : Fe := packLimbs 32 (feReduce (addLimbs (limbs x) (limbs y)) 4)

/-- R109: `u[i] = (x[i] + TWO_P[i]) − y[i]`, never negative for INV-FE operands. -/
def subLimbs (x y : List Nat) : List Nat := List.zipWith (· - ·) (addLimbs x twoPLimbs) y

/-- R109. Its limb bounds are R104 (d), its residue R121. -/
def feSub (x y : Fe) : Fe := packLimbs 32 (feReduce (subLimbs (limbs x) (limbs y)) 4)

/-- R110: the fold 2^256 ≡ 38 of the 63-limb product: `r[i] = t[i] + 38·t[i+32]`. -/
def foldLimbs (t : List Nat) : List Nat := addLimbs (t.take 32) (scaleLimbs 38 (t.drop 32))

/-- R110. Its limb bounds are R104 (e), its residue R121. -/
def feMul (x y : Fe) : Fe := packLimbs 32 (feReduce (foldLimbs (convLimbs (limbs x) (limbs y))) 3)

/-- R111: "The result is limb for limb that of FE.MUL fd, fa, fa". -/
def feSquare (x : Fe) : Fe := feMul x x

/-- R112: `fe_sqn(x, n)`, n successive squarings. -/
def feSqn (x : Fe) : Nat → Fe
  | 0 => x
  | n + 1 => feSqn (feSquare x) n

/-- R112: the shared addition chain, `(x^(2^250 − 1), x^11)`. -/
def feChain250 (x : Fe) : Fe × Fe :=
  let z2 := feSquare x
  let z9 := feMul (feSqn z2 2) x
  let z11 := feMul z9 z2
  let z5 := feMul (feSquare z11) z9
  let z10 := feMul (feSqn z5 5) z5
  let z20 := feMul (feSqn z10 10) z10
  let z40 := feMul (feSqn z20 20) z20
  let z50 := feMul (feSqn z40 10) z10
  let z100 := feMul (feSqn z50 50) z50
  let z200 := feMul (feSqn z100 100) z100
  let z250 := feMul (feSqn z200 50) z50
  (z250, z11)

/-- R113: x^(p − 2). -/
def feInvert (x : Fe) : Fe :=
  let c := feChain250 x
  feMul (feSqn c.1 5) c.2

/-- R114: x^((p − 5)/8). -/
def fePow2523 (x : Fe) : Fe := feMul (feSqn (feChain250 x).1 2) x

/-- R120: `fe_neg(x) = fe_sub(FE_ZERO, x)`. -/
def feNeg (x : Fe) : Fe := feSub feZero x

/-! Canonical form and predicates. -/

/-- R115: m = 1 exactly when limb 31 is 127, limbs 1 to 30 are 255 and limb 0 is at least 237. -/
def feAtLeastP (v : List Nat) : Bool :=
  v.getD 31 0 == 127 && ((v.drop 1).take 30).all (· == 255) && decide (237 ≤ v.getD 0 0)

/-- R115: `c[i] = v[i] − m·P_LIMBS[i]`. -/
def feFreeze (x : Fe) : Fe :=
  let v := limbs x
  packLimbs 32 (if feAtLeastP v then List.zipWith (· - ·) v pLimbs else v)

/-- R107: the 32 bytes of the canonical representative, byte i = limb i. -/
def fePack (x : Fe) : List Byte := (feFreeze x).toList

/-- R116. -/
def feIszero (x : Fe) : Bool := (limbs (feFreeze x)).all (· == 0)

/-- R117. -/
def feIseq (x y : Fe) : Bool := limbs (feFreeze x) == limbs (feFreeze y)

/-- R118: the low bit of the canonical representative. -/
def feGetparity (x : Fe) : Bool := (limbs (feFreeze x)).getD 0 0 % 2 == 1

/-- R119: limb by limb, `x[i] if P = 1 else r[i]`. -/
def feCmov (p : Bool) (r x : Fe) : Fe :=
  packLimbs 32 (List.zipWith (fun ri xi => if p then xi else ri) (limbs r) (limbs x))

/-! The commands. -/

/-- FE.UNPACK, R106. -/
def execFeUnpack (rd imm : Nat) (s : State) : Host.Outcome State Fault Refusal :=
  s.command (.feUnpack rd imm) (s.writeF rd (feUnpack (s.readBytes imm 32)))

/-- FE.PACK, R107. -/
def execFePack (imm ra : Nat) (s : State) : Host.Outcome State Fault Refusal :=
  s.command (.fePack imm ra) (s.writeBytes imm (fePack (s.fe ra)))

/-- FE.ADD, R108. -/
def execFeAdd (rd ra rb : Nat) (s : State) : Host.Outcome State Fault Refusal :=
  s.command (.feAdd rd ra rb) (s.writeF rd (feAdd (s.fe ra) (s.fe rb)))

/-- FE.SUB, R109. -/
def execFeSub (rd ra rb : Nat) (s : State) : Host.Outcome State Fault Refusal :=
  s.command (.feSub rd ra rb) (s.writeF rd (feSub (s.fe ra) (s.fe rb)))

/-- FE.MUL, R110. -/
def execFeMul (rd ra rb : Nat) (s : State) : Host.Outcome State Fault Refusal :=
  s.command (.feMul rd ra rb) (s.writeF rd (feMul (s.fe ra) (s.fe rb)))

/-- FE.SQUARE, R111. -/
def execFeSquare (rd ra : Nat) (s : State) : Host.Outcome State Fault Refusal :=
  s.command (.feSquare rd ra) (s.writeF rd (feSquare (s.fe ra)))

/-- FE.INVERT, R113. -/
def execFeInvert (rd ra : Nat) (s : State) : Host.Outcome State Fault Refusal :=
  s.command (.feInvert rd ra) (s.writeF rd (feInvert (s.fe ra)))

/-- FE.POW2523, R114. -/
def execFePow2523 (rd ra : Nat) (s : State) : Host.Outcome State Fault Refusal :=
  s.command (.fePow2523 rd ra) (s.writeF rd (fePow2523 (s.fe ra)))

/-- FE.FREEZE, R115. -/
def execFeFreeze (rd ra : Nat) (s : State) : Host.Outcome State Fault Refusal :=
  s.command (.feFreeze rd ra) (s.writeF rd (feFreeze (s.fe ra)))

/-- FE.ISZERO, R116. -/
def execFeIszero (ra : Nat) (s : State) : Host.Outcome State Fault Refusal :=
  s.command (.feIszero ra) (s.setP (feIszero (s.fe ra)))

/-- FE.ISEQ, R117. -/
def execFeIseq (ra rb : Nat) (s : State) : Host.Outcome State Fault Refusal :=
  s.command (.feIseq ra rb) (s.setP (feIseq (s.fe ra) (s.fe rb)))

/-- FE.GETPARITY, R118. -/
def execFeGetparity (ra : Nat) (s : State) : Host.Outcome State Fault Refusal :=
  s.command (.feGetparity ra) (s.setP (feGetparity (s.fe ra)))

/-- FE.CMOV, R119: both registers are read whatever P is. -/
def execFeCmov (rd ra : Nat) (s : State) : Host.Outcome State Fault Refusal :=
  s.command (.feCmov rd ra) (s.writeF rd (feCmov s.p (s.fe rd) (s.fe ra)))

end Sys2Proof.Machine
end

