-- ==== Sys2Proof/Machine/Scalar.lean ====
section
/-! DEFINITION. The SC unit (spec/41_scalar.md): Barrett reduction and the recodings as pure functions on limb vectors
(R140 to R156, R159), and the meaning of each SC command. -/

namespace Sys2Proof.Machine

/-! Constants. -/

/-- R140: L, the order of the base point's subgroup. -/
def groupOrder : Nat := 2 ^ 252 + 27742317777372353535851937790883648493

/-- R140: L_LIMBS, 32 limbs. -/
def lLimbs : List Nat := limbsOf 32 groupOrder

/-- R141: μ = ⌊b^(2k) / L⌋ with b = 2^8 and k = 32. -/
def barrettMu : Nat := 256 ^ (2 * 32) / groupOrder

/-- R141: MU_LIMBS, 33 limbs. -/
def muLimbs : List Nat := limbsOf 33 barrettMu

/-! Primitives. -/

/-- R143: `sc_trysub(r)`, the borrow chain of r − L: the difference and the last borrow. -/
def scTrysub (r : List Nat) : List Nat × Nat := borrowLimbs 0 r lLimbs

/-- R144, one corrective step: `(t, borrow) = sc_trysub(r); if borrow = 0 then r = t`. -/
def scCorrect (r : List Nat) : List Nat :=
  let t := scTrysub r
  if t.2 = 0 then t.1 else r

/-- R144, the quotient estimate q3 of the 64 limbs x: q1 = ⌊X / b^31⌋ (33 limbs), q2 = μ·q1 with its carries (66 limbs),
q3 = ⌊q2 / b^33⌋ (33 limbs). -/
def barrettQuotient (x : List Nat) : List Nat :=
  let q1 := x.drop 31
  let q2 := carryLimbs 0 (padTo 66 (convLimbs muLimbs q1))
  q2.drop 33

/-- R144, (q3·L) mod b^33: the convolution limbs of index 0 to 32 with their carries, the last masked. -/
def barrettProduct (q3 : List Nat) : List Nat :=
  let r2 := carryLimbs 0 ((convLimbs lLimbs q3).take 33)
  r2.set 32 (r2.getD 32 0 % 256)

/-- R144: `barrett_reduce(x)` on 64 limbs: r = (r1 − r2) mod b^33, limbs 0 to 31 of it, and two corrective steps. -/
def barrettReduce (x : List Nat) : Sc :=
  let r1 := x.take 33
  let r2 := barrettProduct (barrettQuotient x)
  let r := (borrowLimbs 0 r1 r2).1.take 32
  packLimbs 32 (scCorrect (scCorrect r))

/-! Decoding, arithmetic, predicates. -/

/-- R146: 32 bytes, extended by 32 zero limbs, reduced. -/
def scFrom32 (bs : List Byte) : Sc := barrettReduce (padTo 64 (byteLimbs bs))

/-- R147: 64 bytes, reduced. -/
def scFrom64 (bs : List Byte) : Sc := barrettReduce (byteLimbs bs)

/-- R149: the 257-bit sum, one conditional subtraction of L, limbs of the result mod 2^256. -/
def scAdd (a b : Sc) : Sc :=
  let t := vecVal a + vecVal b
  let t := if groupOrder ≤ t then t - groupOrder else t
  packLimbs 32 (limbsOf 32 (t % 2 ^ 256))

/-- R150: "a 32-limb subtraction with borrow, the final borrow dropped". -/
def scSubnr (a b : Sc) : Sc := packLimbs 32 (borrowLimbs 0 (limbs a) (limbs b)).1

/-- R151: the 64-limb product with its carries, reduced. -/
def scMul (a b : Sc) : Sc := barrettReduce (carryLimbs 0 (padTo 64 (convLimbs (limbs a) (limbs b))))

/-- R152. -/
def scLt (a b : Sc) : Bool := decide (vecVal a < vecVal b)

/-- R153: every limb of the stored integer is 0. -/
def scIszero (a : Sc) : Bool := (limbs a).all (· == 0)

/-- R154: limbs 16 to 31 are all 0. -/
def scIsshort (a : Sc) : Bool := ((limbs a).drop 16).all (· == 0)

/-- R155: the borrow of `sc_trysub` on the raw bytes as limbs. -/
def scLessorder (bs : List Byte) : Bool := (scTrysub (byteLimbs bs)).2 == 1

/-! Recodings. -/

/-- R156: `sc_window(s, w, n)` on the value `v`: the low w bits made signed, the borrow into the rest, the last digit
the remainder. -/
def scWindow (w : Nat) : Nat → Int → List Int
  | 0, _ => []
  | 1, v => [v]
  | n + 2, v =>
    let x := v % 2 ^ w
    let x := if 2 ^ (w - 1) ≤ x then x - 2 ^ w else x
    x :: scWindow w (n + 1) ((v - x) / 2 ^ w)

/-- spec/30_encoding.md R96: a digit as an 8-bit two's complement number. -/
def digitByte (d : Int) : Byte := BitVec.ofInt 8 d

/-- R157, R158: the digits as bytes. -/
def scWindowBytes (w n : Nat) (a : Sc) : List Byte := (scWindow w n (vecVal a)).map digitByte

/-- R159: digit i joins bits 2i+1 and 2i of the first scalar with the same two bits of the second. -/
def interleaveDigit (a b i : Nat) : Nat := ((a >>> (2 * i)) &&& 3) ||| (((b >>> (2 * i)) &&& 3) <<< 2)

/-- R159: the 127 digits. -/
def scInterleave2 (a b : Sc) : List Nat :=
  let va := vecVal a
  let vb := vecVal b
  (List.range 127).map (interleaveDigit va vb)

/-! The commands. -/

/-- SC.FROM32, R146. -/
def execScFrom32 (rd imm : Nat) (s : State) : Host.Outcome State Fault Refusal :=
  s.command (.scFrom32 rd imm) (s.writeS rd (scFrom32 (s.readBytes imm 32)))

/-- SC.FROM64, R147. -/
def execScFrom64 (rd imm : Nat) (s : State) : Host.Outcome State Fault Refusal :=
  s.command (.scFrom64 rd imm) (s.writeS rd (scFrom64 (s.readBytes imm 64)))

/-- SC.TO32, R148: byte i is limb i, no reduction. -/
def execScTo32 (imm ra : Nat) (s : State) : Host.Outcome State Fault Refusal :=
  s.command (.scTo32 imm ra) (s.writeBytes imm (s.sc ra).toList)

/-- SC.ADD, R149. -/
def execScAdd (rd ra rb : Nat) (s : State) : Host.Outcome State Fault Refusal :=
  s.command (.scAdd rd ra rb) (s.writeS rd (scAdd (s.sc ra) (s.sc rb)))

/-- SC.SUBNR, R150. -/
def execScSubnr (rd ra rb : Nat) (s : State) : Host.Outcome State Fault Refusal :=
  s.command (.scSubnr rd ra rb) (s.writeS rd (scSubnr (s.sc ra) (s.sc rb)))

/-- SC.MUL, R151. -/
def execScMul (rd ra rb : Nat) (s : State) : Host.Outcome State Fault Refusal :=
  s.command (.scMul rd ra rb) (s.writeS rd (scMul (s.sc ra) (s.sc rb)))

/-- SC.LT, R152. -/
def execScLt (ra rb : Nat) (s : State) : Host.Outcome State Fault Refusal :=
  s.command (.scLt ra rb) (s.setP (scLt (s.sc ra) (s.sc rb)))

/-- SC.ISZERO, R153. -/
def execScIszero (ra : Nat) (s : State) : Host.Outcome State Fault Refusal :=
  s.command (.scIszero ra) (s.setP (scIszero (s.sc ra)))

/-- SC.ISSHORT, R154. -/
def execScIsshort (ra : Nat) (s : State) : Host.Outcome State Fault Refusal :=
  s.command (.scIsshort ra) (s.setP (scIsshort (s.sc ra)))

/-- SC.LESSORDER, R155. -/
def execScLessorder (imm : Nat) (s : State) : Host.Outcome State Fault Refusal :=
  s.command (.scLessorder imm) (s.setP (scLessorder (s.readBytes imm 32)))

/-- SC.WINDOW3, R157. -/
def execScWindow3 (imm ra : Nat) (s : State) : Host.Outcome State Fault Refusal :=
  s.command (.scWindow3 imm ra) (s.writeBytes imm (scWindowBytes 3 85 (s.sc ra)))

/-- SC.WINDOW5, R158. -/
def execScWindow5 (imm ra : Nat) (s : State) : Host.Outcome State Fault Refusal :=
  s.command (.scWindow5 imm ra) (s.writeBytes imm (scWindowBytes 5 51 (s.sc ra)))

/-- SC.INTERLEAVE2, R159: byte i is digit i. -/
def execScInterleave2 (imm ra rb : Nat) (s : State) : Host.Outcome State Fault Refusal :=
  s.command (.scInterleave2 imm ra rb)
    (s.writeBytes imm ((scInterleave2 (s.sc ra) (s.sc rb)).map (BitVec.ofNat 8)))

end Sys2Proof.Machine
end

