-- ==== Sys2Proof/Machine/GroupElement.lean ====
section
/-! DEFINITION. The GE unit (spec/42_group_element.md): the constants of the curve (R181, R182, R184), the formulas
(R185, R187, R190, R192, R193) over the limb-exact FE functions, and the meaning of each GE command. -/

namespace Sys2Proof.Machine

/-! Constants. -/

/-- The canonical limb vector of a field value. -/
def feOfNat (x : Nat) : Fe := packLimbs 32 (limbsOf 32 x)

/-- R181: d. -/
def curveD : Fe := feOfNat 0x52036cee2b6ffe738cc740797779e89800700a4d4141d8ab75eb4dca135978a3

/-- R181: 2d mod p. -/
def curveD2 : Fe := feOfNat 0x2406d9dc56dffce7198e80f2eef3d13000e0149a8283b156ebd69b9426b2f159

/-- R181: sqrt(−1) = 2^((p−1)/4) mod p. -/
def curveSqrtM1 : Fe := feOfNat 0x2b8324804fc1df0b2b4d00993dfbd7a72f431806ad2fe478c4ee1b274a0ea0b0

/-- R182: the base point G as a register value. -/
def geBase : Ge where
  x := feOfNat 15112221349535400772501151409588531511454012693041857206046113283949847762202
  y := feOfNat 46316835694926478169428394003475163141307993866256225615783033603165251855960
  z := feOne
  t := feOfNat 46827403850823179245072216630277197565144205554125654976674165829533817101731

/-- R184: the neutral element (0, 1). -/
def geNeutral : Ge := ⟨feZero, feOne, feOne, feZero⟩

/-! Addition and doubling. -/

/-- R185: `ge_add(P, Q)`, complete: the group sum of any two points (R189). -/
def geAdd (p q : Ge) : Ge :=
  let a := feMul (feSub p.y p.x) (feSub q.y q.x)
  let b := feMul (feAdd p.y p.x) (feAdd q.y q.x)
  let c := feMul (feMul p.t q.t) curveD2
  let dd := feMul p.z q.z
  let dd := feAdd dd dd
  let e := feSub b a
  let f := feSub dd c
  let g := feAdd dd c
  let h := feAdd b a
  ⟨feMul e f, feMul g h, feMul f g, feMul e h⟩

/-- R187: `ge_dbl(P)`, the double of any point (R189); T is not used. -/
def geDbl (p : Ge) : Ge :=
  let a := feSquare p.x
  let b := feSquare p.y
  let zs := feSquare p.z
  let c := feAdd zs zs
  let h := feAdd a b
  let xy := feAdd p.x p.y
  let xy2 := feSquare xy
  let e := feSub h xy2
  let g := feSub a b
  let f := feAdd c g
  ⟨feMul e f, feMul g h, feMul f g, feMul e h⟩

/-! Decompression with negation, and packing. -/

/-- R190, the candidate root `u·v³·(u·v⁷)^((p−5)/8)` of u/v. -/
def geCandidateRoot (num den : Fe) : Fe :=
  let den2 := feSquare den
  let den4 := feSquare den2
  let den6 := feMul den4 den2
  let t := feMul den6 num
  let t := feMul t den
  let t := fePow2523 t
  let t := feMul t num
  let t := feMul t den
  let t := feMul t den
  feMul t den

/-- R190: decompress and negate 32 bytes; none is FAIL. -/
def geDecompressNegate (bs : List Byte) : Option Ge :=
  let par := decide (128 ≤ (bs.getD 31 0).toNat)
  let y := feUnpack bs
  let y2 := feSquare y
  let num := feSub y2 feOne
  let den := feAdd feOne (feMul y2 curveD)
  let x0 := geCandidateRoot num den
  let x := if feIseq (feMul (feSquare x0) den) num then x0 else feMul x0 curveSqrtM1
  if !feIseq (feMul (feSquare x) den) num then none
  else if feIszero x && par then none
  else
    let x := if feGetparity x == par then feNeg x else x
    some ⟨x, y, feOne, feMul x y⟩

/-- R192: the compressed point: canonical y, and the parity of canonical x in bit 7 of byte 31. -/
def gePack (p : Ge) : List Byte :=
  let zi := feInvert p.z
  let tx := feMul p.x zi
  let ty := feMul p.y zi
  let bs := fePack ty
  bs.set 31 (bs.getD 31 0 ||| (if feGetparity tx then 0x80 else 0))

/-! Double-scalar multiplication. -/

/-- R193: the table `pre`, entry 4·b + a being a·A + b·G. -/
def geTable (a1 : Ge) : List Ge :=
  let a2 := geDbl a1
  let a3 := geAdd a1 a2
  let g1 := geBase
  let g2 := geDbl geBase
  let g3 := geAdd g1 g2
  let row (b : Ge) : List Ge := [b, geAdd a1 b, geAdd a2 b, geAdd a3 b]
  [geNeutral, a1, a2, a3] ++ row g1 ++ row g2 ++ row g3

/-- R193, one digit of the ladder: two doublings, and an addition unless the digit is 0. -/
def ladderStep (pre : List Ge) (r : Ge) (d : Nat) : Ge :=
  let r := geDbl (geDbl r)
  if d ≠ 0 then geAdd r (pre.getD d geNeutral) else r

/-- R193: the ladder over digits, the most significant first. -/
def ladder (pre : List Ge) : List Nat → Ge
  | [] => geNeutral
  | d :: ds => ds.foldl (ladderStep pre) (pre.getD d geNeutral)

/-- R193: `ge_dsmul(A, s1, s2)`, representing s1·A + s2·G. -/
def geDsmul (a : Ge) (s1 s2 : Sc) : Ge := ladder (geTable a) (scInterleave2 s1 s2).reverse

/-! The commands. -/

/-- The effect of GE.DECOMPNEG: success writes the register and P = 1; FAIL clears the validity bit and P (R190). -/
def State.decompneg (s : State) (rd : Nat) : Option Ge → State
  | some v => (s.writeG rd v).setP true
  | none => (s.clearG rd).setP false

/-- GE.DECOMPNEG, R190: a failed decompression is a verdict, never a fault. -/
def execGeDecompneg (rd imm : Nat) (s : State) : Host.Outcome State Fault Refusal :=
  s.command (.geDecompneg rd imm) (s.decompneg rd (geDecompressNegate (s.readBytes imm 32)))

/-- GE.PACK, R192. -/
def execGePack (imm ra : Nat) (s : State) : Host.Outcome State Fault Refusal :=
  s.command (.gePack imm ra) (s.writeBytes imm (gePack (s.ge ra)))

/-- GE.ADD, R186. -/
def execGeAdd (rd ra rb : Nat) (s : State) : Host.Outcome State Fault Refusal :=
  s.command (.geAdd rd ra rb) (s.writeG rd (geAdd (s.ge ra) (s.ge rb)))

/-- GE.DBL, R188. -/
def execGeDbl (rd ra : Nat) (s : State) : Host.Outcome State Fault Refusal :=
  s.command (.geDbl rd ra) (s.writeG rd (geDbl (s.ge ra)))

/-- GE.DSMUL, R194: the first scalar multiplies the point in `ra`, the second the base point. -/
def execGeDsmul (rd ra rb rc : Nat) (s : State) : Host.Outcome State Fault Refusal :=
  s.command (.geDsmul rd ra rb rc) (s.writeG rd (geDsmul (s.ge ra) (s.sc rb) (s.sc rc)))

end Sys2Proof.Machine
end

