-- ==== Sys2Proof/Machine/Verifier.lean ====
section
/-! DEFINITION. The verify orchestrator (spec/43_verifier.md R210 to R222) and the meaning of VERIFY. -/

namespace Sys2Proof.Machine

/-- What one run of the seven steps gives. `verdict` is the result; `step` and `hashed` are ghost outputs (R221): the
step that ended the run, and the byte string of the hash transaction if there was one (spec/20_memory.md R66). -/
structure VerifyRun where
  verdict : Bool
  step : Nat
  hashed : Option (List Byte)
  deriving DecidableEq, Repr

/-- R214, step 2: the top three bits of S's last byte. -/
def topBitsSet (sig : List Byte) : Bool := (sig.getD 63 0 &&& 0xE0) != 0

/-- R217 to R219, steps 5 to 7 after the hash: k is the digest mod L, s the signature's scalar, and the packed
k·(−A) + s·G must be R. -/
def verifyEquation (digest : Digest) (negA : Ge) (sig : List Byte) : Bool :=
  gePack (geDsmul negA (barrettReduce (limbs digest)) (scFrom32 (sig.drop 32))) == sig.take 32

/-- R212: the seven steps over the hash `h`, the two claimed lengths, the public key, the signature and the message. -/
def verifySteps (h : List Byte → Digest) (pkLen sigLen : Word) (pk sig msg : List Byte) : VerifyRun :=
  if pkLen ≠ 32 ∨ sigLen ≠ 64 then ⟨false, 1, none⟩
  else if topBitsSet sig then ⟨false, 2, none⟩
  else if !scLessorder (sig.drop 32) then ⟨false, 3, none⟩
  else
    match geDecompressNegate pk with
    | none => ⟨false, 4, none⟩
    | some negA => ⟨verifyEquation (h (sig.take 32 ++ pk ++ msg)) negA sig, 7, some (sig.take 32 ++ pk ++ msg)⟩

/-- R211: the run of the seven steps, once MSG_LEN has passed R212's first line, on the inputs a state holds: PK at
0x000, SIG at 0x020, MSG at 0x1000 (spec/20_memory.md R51), the length CSRs and the hash port. -/
def State.verifyRun (s : State) : VerifyRun :=
  verifySteps s.params.hash s.pkLen s.sigLen (s.readBytes 0x000 32) (s.readBytes 0x020 64)
    (s.readBytes 0x1000 s.msgLen.toNat)

/-- The hash transaction of a command executed on a state, as a ghost output (R221): the byte string handed to the
collaborator, or none. Only VERIFY has one (spec/20_memory.md R66), and a command that faults has none
(spec/60_exceptions.md R234). Log entry 11. -/
def State.hashRequest (s : State) (i : Instr) : Option (List Byte) :=
  match precheck i s with
  | some _ => none
  | none => if i = .verify then s.verifyRun.hashed else none

/-- VERIFY, R212: every validity bit is cleared (R222) and P is the verdict. -/
def execVerify (s : State) : Host.Outcome State Fault Refusal :=
  s.command .verify (s.clearAll.setP s.verifyRun.verdict)

end Sys2Proof.Machine
end

