-- ==== Sys2Proof/Machine/Dispatch.lean ====
section
/-! DEFINITION. One arm per command (spec/30_encoding.md R80). -/

namespace Sys2Proof.Machine

def exec (i : Instr) (s : State) : Host.Outcome State Fault Refusal :=
  match i with
  | .feUnpack rd imm => Sys2Proof.Machine.execFeUnpack rd imm s
  | .fePack imm ra => Sys2Proof.Machine.execFePack imm ra s
  | .feAdd rd ra rb => Sys2Proof.Machine.execFeAdd rd ra rb s
  | .feSub rd ra rb => Sys2Proof.Machine.execFeSub rd ra rb s
  | .feMul rd ra rb => Sys2Proof.Machine.execFeMul rd ra rb s
  | .feSquare rd ra => Sys2Proof.Machine.execFeSquare rd ra s
  | .feInvert rd ra => Sys2Proof.Machine.execFeInvert rd ra s
  | .fePow2523 rd ra => Sys2Proof.Machine.execFePow2523 rd ra s
  | .feFreeze rd ra => Sys2Proof.Machine.execFeFreeze rd ra s
  | .feIszero ra => Sys2Proof.Machine.execFeIszero ra s
  | .feIseq ra rb => Sys2Proof.Machine.execFeIseq ra rb s
  | .feGetparity ra => Sys2Proof.Machine.execFeGetparity ra s
  | .feCmov rd ra => Sys2Proof.Machine.execFeCmov rd ra s
  | .scFrom32 rd imm => Sys2Proof.Machine.execScFrom32 rd imm s
  | .scFrom64 rd imm => Sys2Proof.Machine.execScFrom64 rd imm s
  | .scTo32 imm ra => Sys2Proof.Machine.execScTo32 imm ra s
  | .scAdd rd ra rb => Sys2Proof.Machine.execScAdd rd ra rb s
  | .scSubnr rd ra rb => Sys2Proof.Machine.execScSubnr rd ra rb s
  | .scMul rd ra rb => Sys2Proof.Machine.execScMul rd ra rb s
  | .scLt ra rb => Sys2Proof.Machine.execScLt ra rb s
  | .scIszero ra => Sys2Proof.Machine.execScIszero ra s
  | .scIsshort ra => Sys2Proof.Machine.execScIsshort ra s
  | .scLessorder imm => Sys2Proof.Machine.execScLessorder imm s
  | .scWindow3 imm ra => Sys2Proof.Machine.execScWindow3 imm ra s
  | .scWindow5 imm ra => Sys2Proof.Machine.execScWindow5 imm ra s
  | .scInterleave2 imm ra rb => Sys2Proof.Machine.execScInterleave2 imm ra rb s
  | .geDecompneg rd imm => Sys2Proof.Machine.execGeDecompneg rd imm s
  | .gePack imm ra => Sys2Proof.Machine.execGePack imm ra s
  | .geAdd rd ra rb => Sys2Proof.Machine.execGeAdd rd ra rb s
  | .geDbl rd ra => Sys2Proof.Machine.execGeDbl rd ra s
  | .geDsmul rd ra rb rc => Sys2Proof.Machine.execGeDsmul rd ra rb rc s
  | .verify => Sys2Proof.Machine.execVerify s

end Sys2Proof.Machine
end

