-- ==== Sys2Proof/Decode.lean ====
section
/-! DEFINITION. The decoder and the encoder of the command word (spec/30_encoding.md R75 to R85), and the opcode map
of R80 as match and mask values. Decoding reads the fields of R76 and checks the "must be zero" fields of R77 and the
index ranges of R78; that it accepts exactly the words of the opcode map is stated, not built in. -/

namespace Sys2Proof

/-- Why a word is no command. Both raise F_ILLEGAL. -/
inductive Reject where
  /-- R82: the value of `op` is in no row of R80. -/
  | undefinedOp (op : Nat)
  /-- R81: a defined `op` with a non-zero reserved bit. -/
  | reservedBits (op : Nat)
  deriving DecidableEq, Repr

/-- The fields of a command word, R76. -/
structure Fields where
  op : Nat
  rd : Nat
  ra : Nat
  rb : Nat
  imm : Nat
  deriving DecidableEq, Repr

/-- R76: op is bits 31:24, rd 23:20, ra 19:16, rb 15:12, imm12 11:0. -/
def fieldsOf (w : Word) : Fields where
  op := w.toNat / 2 ^ 24
  rd := w.toNat / 2 ^ 20 % 16
  ra := w.toNat / 2 ^ 16 % 16
  rb := w.toNat / 2 ^ 12 % 16
  imm := w.toNat % 2 ^ 12

/-- R85: `w = (op << 24) | (rd << 20) | (ra << 16) | (rb << 12) | imm12`, the fields being disjoint. -/
def wordOf (op rd ra rb imm : Nat) : Word :=
  BitVec.ofNat 32 (op * 2 ^ 24 + rd * 2 ^ 20 + ra * 2 ^ 16 + rb * 2 ^ 12 + imm)

/-- The command with the fields read from a word, by the rows of R80: the reserved fields of its format (R77) and the
upper two bits of an SC or GE index (R78) must be zero. In format DABC `rc` is imm12[1:0] and imm12[11:2] is reserved. -/
def decodeFields (f : Fields) : Except Reject Instr :=
  let legal (ok : Bool) (i : Instr) : Except Reject Instr := if ok then .ok i else .error (.reservedBits f.op)
  match f.op with
  | 0x10 => legal (f.ra == 0 && f.rb == 0) (.feUnpack f.rd f.imm)   -- FE.UNPACK, DM
  | 0x11 => legal (f.rd == 0 && f.rb == 0) (.fePack f.imm f.ra)   -- FE.PACK, MA
  | 0x12 => legal (f.imm == 0) (.feAdd f.rd f.ra f.rb)   -- FE.ADD, DAB
  | 0x13 => legal (f.imm == 0) (.feSub f.rd f.ra f.rb)   -- FE.SUB, DAB
  | 0x14 => legal (f.imm == 0) (.feMul f.rd f.ra f.rb)   -- FE.MUL, DAB
  | 0x15 => legal (f.rb == 0 && f.imm == 0) (.feSquare f.rd f.ra)   -- FE.SQUARE, DA
  | 0x16 => legal (f.rb == 0 && f.imm == 0) (.feInvert f.rd f.ra)   -- FE.INVERT, DA
  | 0x17 => legal (f.rb == 0 && f.imm == 0) (.fePow2523 f.rd f.ra)   -- FE.POW2523, DA
  | 0x18 => legal (f.rb == 0 && f.imm == 0) (.feFreeze f.rd f.ra)   -- FE.FREEZE, DA
  | 0x19 => legal (f.rd == 0 && f.rb == 0 && f.imm == 0) (.feIszero f.ra)   -- FE.ISZERO, A
  | 0x1A => legal (f.rd == 0 && f.imm == 0) (.feIseq f.ra f.rb)   -- FE.ISEQ, AB
  | 0x1B => legal (f.rd == 0 && f.rb == 0 && f.imm == 0) (.feGetparity f.ra)   -- FE.GETPARITY, A
  | 0x1C => legal (f.rb == 0 && f.imm == 0) (.feCmov f.rd f.ra)   -- FE.CMOV, DA
  | 0x20 => legal (f.ra == 0 && f.rb == 0 && scIdxOk f.rd) (.scFrom32 f.rd f.imm)   -- SC.FROM32, DM
  | 0x21 => legal (f.ra == 0 && f.rb == 0 && scIdxOk f.rd) (.scFrom64 f.rd f.imm)   -- SC.FROM64, DM
  | 0x22 => legal (f.rd == 0 && f.rb == 0 && scIdxOk f.ra) (.scTo32 f.imm f.ra)   -- SC.TO32, MA
  | 0x23 => legal (f.imm == 0 && scIdxOk f.rd && scIdxOk f.ra && scIdxOk f.rb) (.scAdd f.rd f.ra f.rb)   -- SC.ADD, DAB
  | 0x24 => legal (f.imm == 0 && scIdxOk f.rd && scIdxOk f.ra && scIdxOk f.rb) (.scSubnr f.rd f.ra f.rb)   -- SC.SUBNR, DAB
  | 0x25 => legal (f.imm == 0 && scIdxOk f.rd && scIdxOk f.ra && scIdxOk f.rb) (.scMul f.rd f.ra f.rb)   -- SC.MUL, DAB
  | 0x26 => legal (f.rd == 0 && f.imm == 0 && scIdxOk f.ra && scIdxOk f.rb) (.scLt f.ra f.rb)   -- SC.LT, AB
  | 0x27 => legal (f.rd == 0 && f.rb == 0 && f.imm == 0 && scIdxOk f.ra) (.scIszero f.ra)   -- SC.ISZERO, A
  | 0x28 => legal (f.rd == 0 && f.rb == 0 && f.imm == 0 && scIdxOk f.ra) (.scIsshort f.ra)   -- SC.ISSHORT, A
  | 0x29 => legal (f.rd == 0 && f.ra == 0 && f.rb == 0) (.scLessorder f.imm)   -- SC.LESSORDER, M
  | 0x2A => legal (f.rd == 0 && f.rb == 0 && scIdxOk f.ra) (.scWindow3 f.imm f.ra)   -- SC.WINDOW3, MA
  | 0x2B => legal (f.rd == 0 && f.rb == 0 && scIdxOk f.ra) (.scWindow5 f.imm f.ra)   -- SC.WINDOW5, MA
  | 0x2C => legal (f.rd == 0 && scIdxOk f.ra && scIdxOk f.rb) (.scInterleave2 f.imm f.ra f.rb)   -- SC.INTERLEAVE2, MAB
  | 0x30 => legal (f.ra == 0 && f.rb == 0 && geIdxOk f.rd) (.geDecompneg f.rd f.imm)   -- GE.DECOMPNEG, DM
  | 0x31 => legal (f.rd == 0 && f.rb == 0 && geIdxOk f.ra) (.gePack f.imm f.ra)   -- GE.PACK, MA
  | 0x32 => legal (f.imm == 0 && geIdxOk f.rd && geIdxOk f.ra && geIdxOk f.rb) (.geAdd f.rd f.ra f.rb)   -- GE.ADD, DAB
  | 0x33 => legal (f.rb == 0 && f.imm == 0 && geIdxOk f.rd && geIdxOk f.ra) (.geDbl f.rd f.ra)   -- GE.DBL, DA
  | 0x34 => legal (geIdxOk f.rd && geIdxOk f.ra && scIdxOk f.rb && scIdxOk f.imm) (.geDsmul f.rd f.ra f.rb f.imm)   -- GE.DSMUL, DABC
  | 0x40 => legal (f.rd == 0 && f.ra == 0 && f.rb == 0 && f.imm == 0) (.verify)   -- VERIFY, N
  | op => .error (.undefinedOp op)

/-- R75: the command a 32-bit word encodes, or why it is none. -/
def decode (w : Word) : Except Reject Instr := decodeFields (fieldsOf w)

/-- R85: the word of a well-formed command. -/
def encode : Instr → Word
  | .feUnpack rd imm => wordOf 0x10 rd 0 0 imm
  | .fePack imm ra => wordOf 0x11 0 ra 0 imm
  | .feAdd rd ra rb => wordOf 0x12 rd ra rb 0
  | .feSub rd ra rb => wordOf 0x13 rd ra rb 0
  | .feMul rd ra rb => wordOf 0x14 rd ra rb 0
  | .feSquare rd ra => wordOf 0x15 rd ra 0 0
  | .feInvert rd ra => wordOf 0x16 rd ra 0 0
  | .fePow2523 rd ra => wordOf 0x17 rd ra 0 0
  | .feFreeze rd ra => wordOf 0x18 rd ra 0 0
  | .feIszero ra => wordOf 0x19 0 ra 0 0
  | .feIseq ra rb => wordOf 0x1A 0 ra rb 0
  | .feGetparity ra => wordOf 0x1B 0 ra 0 0
  | .feCmov rd ra => wordOf 0x1C rd ra 0 0
  | .scFrom32 rd imm => wordOf 0x20 rd 0 0 imm
  | .scFrom64 rd imm => wordOf 0x21 rd 0 0 imm
  | .scTo32 imm ra => wordOf 0x22 0 ra 0 imm
  | .scAdd rd ra rb => wordOf 0x23 rd ra rb 0
  | .scSubnr rd ra rb => wordOf 0x24 rd ra rb 0
  | .scMul rd ra rb => wordOf 0x25 rd ra rb 0
  | .scLt ra rb => wordOf 0x26 0 ra rb 0
  | .scIszero ra => wordOf 0x27 0 ra 0 0
  | .scIsshort ra => wordOf 0x28 0 ra 0 0
  | .scLessorder imm => wordOf 0x29 0 0 0 imm
  | .scWindow3 imm ra => wordOf 0x2A 0 ra 0 imm
  | .scWindow5 imm ra => wordOf 0x2B 0 ra 0 imm
  | .scInterleave2 imm ra rb => wordOf 0x2C 0 ra rb imm
  | .geDecompneg rd imm => wordOf 0x30 rd 0 0 imm
  | .gePack imm ra => wordOf 0x31 0 ra 0 imm
  | .geAdd rd ra rb => wordOf 0x32 rd ra rb 0
  | .geDbl rd ra => wordOf 0x33 rd ra 0 0
  | .geDsmul rd ra rb rc => wordOf 0x34 rd ra rb rc
  | .verify => wordOf 0x40 0 0 0 0

/-- One row of the opcode map: `w` encodes the row if and only if `w & mask = match`. -/
structure OpcodeRow where
  mtch : Word
  mask : Word
  deriving DecidableEq, Repr

/-- The opcode map of R80, row by row in its order. -/
def opcodeMap : List OpcodeRow :=
  [⟨0x10000000, 0xFF0FF000⟩, ⟨0x11000000, 0xFFF0F000⟩, ⟨0x12000000, 0xFF000FFF⟩, ⟨0x13000000, 0xFF000FFF⟩,
   ⟨0x14000000, 0xFF000FFF⟩, ⟨0x15000000, 0xFF00FFFF⟩, ⟨0x16000000, 0xFF00FFFF⟩, ⟨0x17000000, 0xFF00FFFF⟩,
   ⟨0x18000000, 0xFF00FFFF⟩, ⟨0x19000000, 0xFFF0FFFF⟩, ⟨0x1A000000, 0xFFF00FFF⟩, ⟨0x1B000000, 0xFFF0FFFF⟩,
   ⟨0x1C000000, 0xFF00FFFF⟩, ⟨0x20000000, 0xFFCFF000⟩, ⟨0x21000000, 0xFFCFF000⟩, ⟨0x22000000, 0xFFFCF000⟩,
   ⟨0x23000000, 0xFFCCCFFF⟩, ⟨0x24000000, 0xFFCCCFFF⟩, ⟨0x25000000, 0xFFCCCFFF⟩, ⟨0x26000000, 0xFFFCCFFF⟩,
   ⟨0x27000000, 0xFFFCFFFF⟩, ⟨0x28000000, 0xFFFCFFFF⟩, ⟨0x29000000, 0xFFFFF000⟩, ⟨0x2A000000, 0xFFFCF000⟩,
   ⟨0x2B000000, 0xFFFCF000⟩, ⟨0x2C000000, 0xFFFCC000⟩, ⟨0x30000000, 0xFFCFF000⟩, ⟨0x31000000, 0xFFFCF000⟩,
   ⟨0x32000000, 0xFFCCCFFF⟩, ⟨0x33000000, 0xFFCCFFFF⟩, ⟨0x34000000, 0xFFCCCFFC⟩, ⟨0x40000000, 0xFFFFFFFF⟩]

/-- R80: the word matches the row. -/
def OpcodeRow.accepts (r : OpcodeRow) (w : Word) : Bool := w &&& r.mask == r.mtch

/-- The row of R80 a command belongs to. -/
def Instr.row : Instr → OpcodeRow
  | .feUnpack _ _ => ⟨0x10000000, 0xFF0FF000⟩
  | .fePack _ _ => ⟨0x11000000, 0xFFF0F000⟩
  | .feAdd _ _ _ => ⟨0x12000000, 0xFF000FFF⟩
  | .feSub _ _ _ => ⟨0x13000000, 0xFF000FFF⟩
  | .feMul _ _ _ => ⟨0x14000000, 0xFF000FFF⟩
  | .feSquare _ _ => ⟨0x15000000, 0xFF00FFFF⟩
  | .feInvert _ _ => ⟨0x16000000, 0xFF00FFFF⟩
  | .fePow2523 _ _ => ⟨0x17000000, 0xFF00FFFF⟩
  | .feFreeze _ _ => ⟨0x18000000, 0xFF00FFFF⟩
  | .feIszero _ => ⟨0x19000000, 0xFFF0FFFF⟩
  | .feIseq _ _ => ⟨0x1A000000, 0xFFF00FFF⟩
  | .feGetparity _ => ⟨0x1B000000, 0xFFF0FFFF⟩
  | .feCmov _ _ => ⟨0x1C000000, 0xFF00FFFF⟩
  | .scFrom32 _ _ => ⟨0x20000000, 0xFFCFF000⟩
  | .scFrom64 _ _ => ⟨0x21000000, 0xFFCFF000⟩
  | .scTo32 _ _ => ⟨0x22000000, 0xFFFCF000⟩
  | .scAdd _ _ _ => ⟨0x23000000, 0xFFCCCFFF⟩
  | .scSubnr _ _ _ => ⟨0x24000000, 0xFFCCCFFF⟩
  | .scMul _ _ _ => ⟨0x25000000, 0xFFCCCFFF⟩
  | .scLt _ _ => ⟨0x26000000, 0xFFFCCFFF⟩
  | .scIszero _ => ⟨0x27000000, 0xFFFCFFFF⟩
  | .scIsshort _ => ⟨0x28000000, 0xFFFCFFFF⟩
  | .scLessorder _ => ⟨0x29000000, 0xFFFFF000⟩
  | .scWindow3 _ _ => ⟨0x2A000000, 0xFFFCF000⟩
  | .scWindow5 _ _ => ⟨0x2B000000, 0xFFFCF000⟩
  | .scInterleave2 _ _ _ => ⟨0x2C000000, 0xFFFCC000⟩
  | .geDecompneg _ _ => ⟨0x30000000, 0xFFCFF000⟩
  | .gePack _ _ => ⟨0x31000000, 0xFFFCF000⟩
  | .geAdd _ _ _ => ⟨0x32000000, 0xFFCCCFFF⟩
  | .geDbl _ _ => ⟨0x33000000, 0xFFCCFFFF⟩
  | .geDsmul _ _ _ _ => ⟨0x34000000, 0xFFCCCFFC⟩
  | .verify => ⟨0x40000000, 0xFFFFFFFF⟩

/-- The command this decoder reads from an instruction of `nbits` bits, `w`, every bit above them being zero. All
commands are one 32-bit word (R75). -/
def decodeTableWord (nbits w : Nat) : Option Instr :=
  match decode (BitVec.ofNat 32 (w % 2 ^ nbits)) with
  | .ok i => some i
  | .error _ => none

end Sys2Proof
end

