-- ==== Sys2Proof/Machine/Port.lean ====
section
/-! DEFINITION. The host's port: CSR and operand memory accesses, the write of a command word, waiting and reset, each in
the idle engine, in the stopped one (FAULT = 1) and while a command runs (BUSY = 1). -/

namespace Sys2Proof.Machine

/-! Accesses to an engine that executes no command. -/

/-- spec/10_state.md R28, spec/30_encoding.md R83: a word written to CMD executes the command it encodes. While
FAULT = 1 the write is ignored (spec/60_exceptions.md R235); a word that matches no row is F_ILLEGAL (R75). -/
def runCmd (s : State) (w : Word) : Host.Outcome State Fault Refusal :=
  if s.fault then .next s
  else
    match decode w with
    | .ok i => exec i s
    | .error _ => .next (s.takeFault .illegal)

/-- The same word accepted, the command left running: every fault is detected "before the command does any work"
(spec/60_exceptions.md R233); otherwise BUSY becomes 1. -/
def startCmd (s : State) (w : Word) : State :=
  if s.fault then s
  else
    match decode w with
    | .ok i =>
      match precheck i s with
      | some c => s.takeFault c
      | none => { s with running := some i }
    | .error _ => s.takeFault .illegal

/-- spec/10_state.md R29 to R32, R27: the writable CSRs other than CMD; STATUS and the numbers above 4 ignore a write. -/
def State.writeLenCsr (s : State) (n : Nat) (v : Word) : State :=
  match n with
  | 2 => { s with pkLen := v }
  | 3 => { s with sigLen := v }
  | 4 => { s with msgLen := v }
  | _ => s

/-- spec/20_memory.md R58: a host write outside operand memory writes nothing. -/
def State.hostWriteOm (s : State) (a : Nat) (b : Byte) : State :=
  if s.omHas a then { s with om := s.om.write a b } else s

/-- spec/20_memory.md R58: a host read outside operand memory returns 0. -/
def State.hostReadByte (s : State) (a : Nat) : Byte := if s.omHas a then s.readByte a else 0

/-- spec/10_state.md R27 to R32: the value of a CSR as the host reads it, `status` being the STATUS word. CMD and the
numbers above 4 read as 0. -/
def State.csrValue (s : State) (status : Word) (n : Nat) : Word :=
  match n with
  | 1 => status
  | 2 => s.pkLen
  | 3 => s.sigLen
  | 4 => s.msgLen
  | _ => 0

/-- An access of the host to an idle or stopped engine. -/
def idleAccess (a : HostAccess) (s : State) : Host.Outcome State Fault Refusal :=
  match a with
  | .writeCsr n v => if n = 0 then runCmd s v else .next (s.writeLenCsr n v)
  | .startCmd w => .next (startCmd s w)
  | .readCsr n => .next { s with rdata := s.csrValue s.status n }
  | .writeOm a b => .next (s.hostWriteOm a b)
  | .readOm a => .next { s with rdata := (s.hostReadByte a).setWidth 32 }
  | .wait => .next s
  | .reset => .next s.resetEvent

/-! Accesses while a command runs. -/

/-- The running command completes: its whole effect, at once (spec/20_memory.md R62), BUSY falling to 0. -/
def finish (i : Instr) (s : State) : Host.Outcome State Fault Refusal := exec i { s with running := none }

/-- The P bit a STATUS read shows while a command runs: that of the flag, unspecified for a command that writes P
(spec/20_memory.md R62: nothing between the two states of a command is specified). -/
def State.busyP (s : State) (i : Instr) : Bool := if i.writesP then Config.freeBit s.draws 0 else s.p

/-- spec/20_memory.md R61: a host read of memory while a command runs returns "an unspecified value for any byte in a
span the running command writes, and the current value otherwise". Outside operand memory it returns 0, as always
(R58). -/
def State.busyByte (s : State) (i : Instr) (a : Nat) : Byte :=
  if s.omHas a && inSpan i.writeSpan a then Config.freeByte s.draws a else s.hostReadByte a

/-- spec/20_memory.md R61: the CSRs a host must not write while BUSY = 1 are CMD, PK_LEN, SIG_LEN and MSG_LEN; a write
of STATUS or of a CSR number above 4 is ignored as always. -/
def csrGuarded (n : Nat) : Bool := n == 0 || n == 2 || n == 3 || n == 4

/-- An access of the host while the command `i` runs (spec/20_memory.md R61, spec/60_exceptions.md R236). -/
def busyAccess (i : Instr) (a : HostAccess) (s : State) : Host.Outcome State Fault Refusal :=
  match a with
  | .writeCsr n _ => .next (if csrGuarded n then s.abandon i else s)
  | .startCmd _ => .next (s.abandon i)
  | .readCsr n =>
    .next { s with rdata := s.csrValue (s.statusWith (s.busyP i)) n, draws := s.draws + 1 }
  | .writeOm a _ => .next (if s.omHas a then s.abandon i else s)
  | .readOm a => .next { s with rdata := (s.busyByte i a).setWidth 32, draws := s.draws + 1 }
  | .wait => finish i s
  | .reset => .next s.resetEvent

/-- An access of the host. -/
def hostAccess (a : HostAccess) (s : State) : Host.Outcome State Fault Refusal :=
  match s.running with
  | none => idleAccess a s
  | some i => busyAccess i a s

/-- The host does nothing: a running command completes; an engine that runs none waits
(spec/70_reset_and_hazards.md R260). -/
def complete (s : State) : Host.Outcome State Fault Refusal :=
  match s.running with
  | none => .next s
  | some i => finish i s

end Sys2Proof.Machine
end

