-- ==== Sys2Proof/Machine/Step.lean ====
section
/-! DEFINITION. One step of the machine: the next access of the host, or, when the host does nothing, the completion of
the running command (spec/20_memory.md R60, R62). There is no program counter (spec/10_state.md R33). -/

namespace Sys2Proof.Machine

/-- One transition. With no access pending, a running command completes and an idle or stopped engine waits. -/
def step (s : State) : Host.Outcome State Fault Refusal :=
  match s.host with
  | [] => complete s
  | a :: rest => hostAccess a { s with host := rest }

/-- `s` with the command word of `nbits` bits, `w`, written to CMD as the host's very next access: that is where the
machine fetches (spec/20_memory.md R63). -/
def State.withFetchWord (s : State) (nbits w : Nat) : State :=
  { s with host := .writeCsr 0 (BitVec.ofNat 32 (w % 2 ^ nbits)) :: s.host }

end Sys2Proof.Machine
end

