-- ==== Sys2Proof/Safety.lean ====
section
/-! DEFINITION. The terms in which claims are made: the at-rest invariant INV-FE, residues mod p, the points of the curve,
the invariant of the machine, and what a run free of faults is. Nothing here is used by the machine itself. -/

namespace Sys2Proof.Machine

/-! Field elements. -/

/-- INV-FE, spec/10_state.md R22: limb 31 is in [0, 127]; limbs 0 to 30 are in [0, 255] by their type. -/
abbrev feInv (v : Fe) : Prop := v[31].toNat ≤ 127

/-- 32 working limbs, limbs 0 to 30 at most `low` and limb 31 at most `top`: the form of the bounds of
spec/40_field_element.md R104. INV-FE is `LimbsWithin 255 127` of the limbs. -/
def LimbsWithin (low top : Nat) (v : List Nat) : Prop :=
  v.length = 32 ∧ (∀ i, i < 31 → v.getD i 0 ≤ low) ∧ v.getD 31 0 ≤ top

/-- INV-FE of the four coordinates, spec/10_state.md R24. -/
abbrev geInv (g : Ge) : Prop := feInv g.x ∧ feInv g.y ∧ feInv g.z ∧ feInv g.t

/-- The residue a field element represents: `val(v) mod p` (spec/40_field_element.md R100), written [v] in the
value-level laws of R121. -/
def feRes (v : Fe) : ZMod fieldP := (vecVal v : ZMod fieldP)

/-- The representative below 2^255 that carry propagation leaves of a value V: p is subtracted the least number of times
that brings V below 2^255 (spec/40_field_element.md R102, R103; R22: the residues 0 to 18 have two representatives). -/
def reducedVal (V : Nat) : Nat := if V < 2 ^ 255 then V else (V - 19) % fieldP + 19

/-- The weight of limb k of a 63-limb product after the fold 2^256 ≡ 38 (spec/40_field_element.md R110). -/
def foldWeight (k : Nat) : Nat := if k < 32 then 256 ^ k else 38 * 256 ^ (k - 32)

/-- The folded value of a product, as a sum over all pairs of limbs (spec/40_field_element.md R110). -/
def foldedProduct (x y : Fe) : Nat :=
  ∑ i : Fin 32, ∑ j : Fin 32, x[i].toNat * y[j].toNat * foldWeight (i.val + j.val)

/-! Points of the curve. -/

/-- d as a residue, spec/42_group_element.md R181. -/
def resD : ZMod fieldP := feRes curveD

/-- spec/42_group_element.md R180: −x² + y² = 1 + d·x²·y². -/
def OnCurve (x y : ZMod fieldP) : Prop := -x ^ 2 + y ^ 2 = 1 + resD * x ^ 2 * y ^ 2

/-- spec/42_group_element.md R183, well formed: "Z ≠ 0, X·Y = Z·T, and (X/Z, Y/Z) satisfies rule R180's equation". -/
def GeWellFormed (g : Ge) : Prop :=
  feRes g.z ≠ 0 ∧ feRes g.x * feRes g.y = feRes g.z * feRes g.t ∧
    OnCurve (feRes g.x * (feRes g.z)⁻¹) (feRes g.y * (feRes g.z)⁻¹)

/-- The affine point a group element represents: (X/Z, Y/Z), spec/10_state.md R24. -/
def gePoint (g : Ge) : ZMod fieldP × ZMod fieldP := (feRes g.x * (feRes g.z)⁻¹, feRes g.y * (feRes g.z)⁻¹)

/-- The affine addition law of the curve of spec/42_group_element.md R180. It is complete (R189): its denominators
1 ± d·x1·x2·y1·y2 vanish for no two points of the curve. -/
def edAdd (p q : ZMod fieldP × ZMod fieldP) : ZMod fieldP × ZMod fieldP :=
  ((p.1 * q.2 + q.1 * p.2) * (1 + resD * p.1 * q.1 * p.2 * q.2)⁻¹,
    (p.2 * q.2 + p.1 * q.1) * (1 - resD * p.1 * q.1 * p.2 * q.2)⁻¹)

/-- n·P: P added n times to the neutral element (0, 1), spec/42_group_element.md R180. -/
def edMul : Nat → ZMod fieldP × ZMod fieldP → ZMod fieldP × ZMod fieldP
  | 0, _ => (0, 1)
  | n + 1, p => edAdd (edMul n p) p

/-- The canonical compressed encoding of an affine point (spec/30_encoding.md R88, spec/42_group_element.md R192): the
32 little-endian bytes of canonical y with the parity of canonical x in bit 255. -/
def encodePoint (p : ZMod fieldP × ZMod fieldP) : List Byte :=
  (limbsOf 32 (p.2.val + 2 ^ 255 * (p.1.val % 2))).map (BitVec.ofNat 8)

/-- The base point G, spec/42_group_element.md R182. -/
def basePoint : ZMod fieldP × ZMod fieldP := gePoint geBase

/-- The 32 bytes encode the affine point A (spec/30_encoding.md R88): A is on the curve, its y is the number of the low
255 bits (a number of p or more is taken as it is, spec/42_group_element.md R191 (a)), and bit 255 is the parity of its
canonical x. At most one point has both. -/
def DecodesTo (bs : List Byte) (A : ZMod fieldP × ZMod fieldP) : Prop :=
  OnCurve A.1 A.2 ∧ A.2 = ((leVal bs % 2 ^ 255 : Nat) : ZMod fieldP) ∧ A.1.val % 2 = leVal bs / 2 ^ 255

/-! Memory and frames. -/

/-- The n little-endian bytes of a number, byte 0 first (spec/20_memory.md R53). -/
def leBytes (n x : Nat) : List Byte := (limbsOf n x).map (BitVec.ofNat 8)

/-- The value of signed digits of width w, digit 0 first: `Σ d[i]·2^(w·i)` (spec/41_scalar.md R156). -/
def digitsVal (w : Nat) : List Int → Int
  | [] => 0
  | d :: ds => d + 2 ^ w * digitsVal w ds

/-- The fault entry of spec/60_exceptions.md R234 written out: FAULT is 1, FAULT_CODE the code, BUSY is 0, and nothing
else changes. -/
def State.faulted (s : State) (code : Byte) : State := { s with fault := true, faultCode := code, running := none }

/-- Nothing but the register files, P and operand memory differs: CSRs, fault state, BUSY, parameters and the model's own
fields are the same. -/
structure SameRest (s t : State) : Prop where
  running : t.running = s.running
  fault : t.fault = s.fault
  faultCode : t.faultCode = s.faultCode
  pkLen : t.pkLen = s.pkLen
  sigLen : t.sigLen = s.sigLen
  msgLen : t.msgLen = s.msgLen
  params : t.params = s.params
  host : t.host = s.host
  rdata : t.rdata = s.rdata
  resets : t.resets = s.resets
  draws : t.draws = s.draws

/-- Every register of the three files but those in the list keeps its contents and its validity bit. -/
def SameRegsBut (rs : List RegName) (s t : State) : Prop :=
  (∀ i, .f i ∉ rs → t.f[i]? = s.f[i]?) ∧ (∀ i, .s i ∉ rs → t.s[i]? = s.s[i]?) ∧ (∀ i, .g i ∉ rs → t.g[i]? = s.g[i]?)

/-- Every byte of operand memory outside the n bytes at address a reads as before. -/
def SameBytesBut (a n : Nat) (s t : State) : Prop := ∀ b, b < a ∨ a + n ≤ b → t.readByte b = s.readByte b

/-- Every byte of operand memory reads as before. -/
def SameBytes (s t : State) : Prop := ∀ b, t.readByte b = s.readByte b

/-- Two states that differ at most in the contents of registers whose validity bit is 0
(spec/70_reset_and_hazards.md R263). -/
structure SameVisible (s t : State) : Prop where
  rest : SameRest s t
  p : t.p = s.p
  om : t.om = s.om
  valid : ∀ r, t.isValid r = s.isValid r
  fe : ∀ i, s.isValid (.f i) = true → t.fe i = s.fe i
  sc : ∀ i, s.isValid (.s i) = true → t.sc i = s.sc i
  ge : ∀ i, s.isValid (.g i) = true → t.ge i = s.ge i

/-! The invariant of the machine. -/

/-- What every step keeps: memory is canonical and inside the address space (spec/20_memory.md R50), every valid FE and
GE register satisfies INV-FE (spec/10_state.md R22, R24), FAULT and FAULT_CODE agree (R29), and a running command is
one that passed every check (spec/30_encoding.md R83). Of the stopped engine's registers nothing is asked: F_BUSY leaves
one of them unspecified (spec/60_exceptions.md R236) and none can be read before the next reset. -/
structure State.Inv (s : State) : Prop where
  memory : s.om.wf = true
  addresses : ∀ c ∈ s.om, c.1 < 0x1000 + s.params.msgMax
  feRegs : s.fault = false → ∀ i, s.isValid (.f i) = true → feInv (s.fe i)
  geRegs : s.fault = false → ∀ i, s.isValid (.g i) = true → geInv (s.ge i)
  code : s.fault = false ↔ s.faultCode = 0
  codes : s.faultCode.toNat ≤ 5
  run : ∀ i, s.running = some i → s.fault = false ∧ precheck i s = none

/-- Every valid GE register holds a point of the curve (spec/42_group_element.md R183). -/
def State.PointsOk (s : State) : Prop :=
  s.fault = false → ∀ i, s.isValid (.g i) = true → GeWellFormed (s.ge i)

/-- A run free of faults so far: the engine is not stopped (spec/60_exceptions.md R235). -/
abbrev State.Safe (s : State) : Prop := s.fault = false

end Sys2Proof.Machine
end

