-- ==== Sys2Proof/Certificates/Slice0/Obligations.lean ====
section
/-! DEFINITION. The statements for the provers. Each docstring names the rules of spec/ it formalises or rests on. -/

open Sys2Proof Sys2Proof.Machine

/-- O1. The command words printed in the spec decode to the commands they stand for. 30_encoding.md R84,
30_encoding.md R85 (derived). -/
def Obligations.SpecWordsDecode : Prop :=
  decode 0x12312000 = .ok (.feAdd 3 1 2) ∧ decode 0x10000100 = .ok (.feUnpack 0 0x100) ∧
    decode 0x11030120 = .ok (.fePack 0x120 3) ∧ decode 0x26012000 = .ok (.scLt 1 2) ∧
    decode 0x34100001 = .ok (.geDsmul 1 0 0 1) ∧ decode 0x40000000 = .ok .verify

/-- O2. Encoding then decoding, and decoding a legal word then encoding, are both the identity; the word is the
shift-and-or formula of R85. 30_encoding.md R85 (stated). -/
def Obligations.EncodeAndDecodeAreInverse : Prop :=
  (∀ op rd ra rb imm : Nat, op < 256 → rd < 16 → ra < 16 → rb < 16 → imm < 4096 →
    wordOf op rd ra rb imm = ((BitVec.ofNat 32 op <<< 24) ||| (BitVec.ofNat 32 rd <<< 20) |||
      (BitVec.ofNat 32 ra <<< 16) ||| (BitVec.ofNat 32 rb <<< 12) ||| BitVec.ofNat 32 imm)) ∧
  (∀ w : Word, fieldsOf w = ⟨(w.extractLsb 31 24).toNat, (w.extractLsb 23 20).toNat, (w.extractLsb 19 16).toNat,
      (w.extractLsb 15 12).toNat, (w.extractLsb 11 0).toNat⟩) ∧
  (∀ i : Instr, i.wellFormed = true → decode (encode i) = .ok i) ∧
  (∀ (w : Word) (i : Instr), decode w = .ok i → i.wellFormed = true ∧ encode i = w)

/-- O3. A word decodes to a command of a row exactly when (w & mask) = match, and no word matches two rows.
30_encoding.md R80 (stated). -/
def Obligations.DecodeAcceptsExactlyTheOpcodeMap : Prop :=
  (∀ (w : Word) (r : OpcodeRow), r ∈ opcodeMap → ((∃ i, decode w = .ok i ∧ i.row = r) ↔ w &&& r.mask = r.mtch)) ∧
  (∀ (w : Word) (i : Instr), decode w = .ok i → i.row ∈ opcodeMap) ∧
  (∀ (w : Word) (r r' : OpcodeRow), r ∈ opcodeMap → r' ∈ opcodeMap → w &&& r.mask = r.mtch → w &&& r'.mask = r'.mtch →
    r = r')

/-- O4. Every word that matches no row of the opcode map raises F_ILLEGAL and does nothing else; so do all undefined
op values. 30_encoding.md R81, 30_encoding.md R82 (stated). -/
def Obligations.EveryOtherWordIsIllegal : Prop :=
  (∀ (s : State) (w : Word) (rest : List HostAccess), s.running = none → s.fault = false →
    (∀ r ∈ opcodeMap, w &&& r.mask ≠ r.mtch) →
    step { s with host := .writeCsr 0 w :: rest } = .next ({ s with host := rest }.faulted 0x01) ∧
      step { s with host := .startCmd w :: rest } = .next ({ s with host := rest }.faulted 0x01)) ∧
  (∀ w : Word, ((w.extractLsb 31 24).toNat ≤ 0x0F ∨ (0x1D ≤ (w.extractLsb 31 24).toNat ∧ (w.extractLsb 31 24).toNat ≤ 0x1F) ∨
      (0x2D ≤ (w.extractLsb 31 24).toNat ∧ (w.extractLsb 31 24).toNat ≤ 0x2F) ∨
      (0x35 ≤ (w.extractLsb 31 24).toNat ∧ (w.extractLsb 31 24).toNat ≤ 0x3F) ∨ 0x41 ≤ (w.extractLsb 31 24).toNat) →
    ∀ r ∈ opcodeMap, w &&& r.mask ≠ r.mtch) ∧
  (∀ r ∈ opcodeMap, (0x00000000 : Word) &&& r.mask ≠ r.mtch ∧ (0xFFFFFFFF : Word) &&& r.mask ≠ r.mtch) ∧
  (∀ (w : Word), ∀ r ∈ opcodeMap, w.extractLsb 31 24 = r.mtch.extractLsb 31 24 → w &&& (r.mask &&& ~~~r.mtch) &&& 0x00FFFFFF ≠ 0 →
    ∀ r' ∈ opcodeMap, w &&& r'.mask ≠ r'.mtch)

/-- O5. The step that writes a legal word to CMD is exec of the command it encodes. 10_state.md R28, 10_state.md R33,
20_memory.md R60, 20_memory.md R62 (derived). -/
def Obligations.StepRunsTheWrittenCommand : Prop :=
  (∀ (s : State) (w : Word) (i : Instr) (rest : List HostAccess), s.running = none → s.fault = false →
    decode w = .ok i → s.host = .writeCsr 0 w :: rest → step s = exec i { s with host := rest }) ∧
  (∀ (s : State) (w : Word) (i : Instr), s.running = none → s.fault = false → decode w = .ok i →
    step (s.withFetchWord 32 w.toNat) = exec i s)

/-- O6. A command started and then left to complete gives the state of the atomic command; BUSY is 1 in between unless
it faulted. 20_memory.md R61, 20_memory.md R62, 60_exceptions.md R233 (derived). -/
def Obligations.StartedCommandCompletesAsIfAtomic : Prop :=
  (∀ (s : State) (w : Word) (i : Instr) (rest : List HostAccess), s.running = none → s.fault = false →
    decode w = .ok i → s.host = .startCmd w :: .wait :: rest →
    ∃ t, step s = .next t ∧ t.status.getLsbD 0 = !t.fault ∧ step t = exec i { s with host := rest }) ∧
  (∀ (s : State) (w : Word) (i : Instr), s.running = none → s.fault = false →
    decode w = .ok i → s.host = [.startCmd w] →
    ∃ t, step s = .next t ∧ t.status.getLsbD 0 = !t.fault ∧ step t = exec i { s with host := [] })

/-- O7. No access of the host and no command ever stops the machine for good, and no step changes a parameter.
30_encoding.md R82, 60_exceptions.md R230, 60_exceptions.md R234, 00_scope.md R9 (derived). -/
def Obligations.StepAlwaysAnswersANextState : Prop :=
  ∀ s : State, ∃ t, step s = .next t ∧ t.params = s.params

/-- O8. While FAULT = 1 writes to CMD are ignored and every other access works as usual. 60_exceptions.md R235
(stated). -/
def Obligations.StoppedEngineIgnoresCommands : Prop :=
  ∀ (s : State) (rest : List HostAccess), s.running = none → s.fault = true →
    (∀ w, step { s with host := .writeCsr 0 w :: rest } = .next { s with host := rest }) ∧
    (∀ w, step { s with host := .startCmd w :: rest } = .next { s with host := rest }) ∧
    (∀ a b, a < 0x1000 + s.params.msgMax →
      step { s with host := .writeOm a b :: rest } = .next { s with host := rest, om := s.om.write a b }) ∧
    (∀ v, step { s with host := .writeCsr 2 v :: rest } = .next { s with host := rest, pkLen := v }) ∧
    (∀ v, step { s with host := .writeCsr 3 v :: rest } = .next { s with host := rest, sigLen := v }) ∧
    (∀ v, step { s with host := .writeCsr 4 v :: rest } = .next { s with host := rest, msgLen := v }) ∧
    (∀ a, a < 0x1000 + s.params.msgMax →
      step { s with host := .readOm a :: rest } = .next { s with host := rest, rdata := (s.readByte a).setWidth 32 }) ∧
    step { s with host := .readCsr 2 :: rest } = .next { s with host := rest, rdata := s.pkLen } ∧
    step { s with host := .readCsr 3 :: rest } = .next { s with host := rest, rdata := s.sigLen } ∧
    step { s with host := .readCsr 4 :: rest } = .next { s with host := rest, rdata := s.msgLen } ∧
    step { s with host := .readCsr 1 :: rest } = .next { s with host := rest, rdata := s.status } ∧
    s.status.getLsbD 2 = true ∧
    (∀ a t, a ≠ .reset → step { s with host := a :: rest } = .next t → t.fault = true ∧ t.faultCode = s.faultCode) ∧
    (∃ t, step { s with host := .reset :: rest } = .next t ∧ t.fault = false)

/-- O9. Reset is the only event that clears STATUS.FAULT. 70_reset_and_hazards.md R262 (stated). -/
def Obligations.OnlyResetLeavesTheStoppedState : Prop :=
  ∀ s : State, s.fault = true →
    (∀ t, step s = .next t → t.fault = false → ∃ rest, s.host = .reset :: rest) ∧
    (∀ rest, s.host = .reset :: rest → ∃ t, step s = .next t ∧ t.fault = false)

/-- O10. Reset at any time, also during a command, gives every field its reset value. 70_reset_and_hazards.md R260,
70_reset_and_hazards.md R261, 70_reset_and_hazards.md R262 (derived). The form of unspecified memory is the
model's own, log entry 2. -/
def Obligations.ResetGivesTheResetState : Prop :=
  ∀ (s : State) (rest : List HostAccess), s.host = .reset :: rest →
    ∃ t, step s = .next t ∧ (∀ r, t.isValid r = false) ∧ t.p = false ∧ t.status = 0 ∧ t.running = none ∧ t.fault = false ∧
      t.faultCode = 0 ∧ t.pkLen = 0 ∧ t.sigLen = 0 ∧ t.msgLen = 0 ∧ t.om = [] ∧
      (∀ a, t.readByte a = Config.unwrittenByte (s.resets + 1) a) ∧ t.params = s.params ∧ t.host = rest

/-- O11. The state after reset: validity bits, P, STATUS and the length CSRs are 0. 10_state.md R37, 10_state.md R27,
10_state.md R28 (derived). The form of unspecified memory is the model's own, log entry 2. -/
def Obligations.StateAfterReset : Prop :=
  (∀ r, State.reset.isValid r = false) ∧ State.reset.p = false ∧ State.reset.status = 0 ∧ State.reset.pkLen = 0 ∧
    State.reset.sigLen = 0 ∧ State.reset.msgLen = 0 ∧ State.reset.running = none ∧ (∀ a, State.reset.om.get? a = none) ∧
    ∀ a, State.reset.readByte a = Config.unwrittenByte 0 a

/-- O12. The layout of STATUS, and that the host cannot write it. 10_state.md R29 (derived). -/
def Obligations.StatusLayout : Prop :=
  (∀ s : State, s.status.getLsbD 0 = s.running.isSome ∧ s.status.getLsbD 1 = s.p ∧ s.status.getLsbD 2 = s.fault ∧
    s.status.extractLsb 15 8 = s.faultCode ∧ s.status.extractLsb 7 3 = 0 ∧ s.status.extractLsb 31 16 = 0) ∧
  (∀ (s : State) (rest : List HostAccess), s.running = none →
    step { s with host := .readCsr 1 :: rest } = .next { s with host := rest, rdata := s.status } ∧
    ∀ v, step { s with host := .writeCsr 1 v :: rest } = .next { s with host := rest })

/-- O13. The five CSRs by number; numbers 5 and above read 0 and ignore writes. 10_state.md R27 (stated). -/
def Obligations.CsrAccess : Prop :=
  ∀ (s : State) (rest : List HostAccess), s.running = none →
    step { s with host := .readCsr 0 :: rest } = .next { s with host := rest, rdata := 0 } ∧
    step { s with host := .readCsr 1 :: rest } = .next { s with host := rest, rdata := s.status } ∧
    step { s with host := .readCsr 2 :: rest } = .next { s with host := rest, rdata := s.pkLen } ∧
    step { s with host := .readCsr 3 :: rest } = .next { s with host := rest, rdata := s.sigLen } ∧
    step { s with host := .readCsr 4 :: rest } = .next { s with host := rest, rdata := s.msgLen } ∧
    (∀ v, step { s with host := .writeCsr 2 v :: rest } = .next { s with host := rest, pkLen := v }) ∧
    (∀ v, step { s with host := .writeCsr 3 v :: rest } = .next { s with host := rest, sigLen := v }) ∧
    (∀ v, step { s with host := .writeCsr 4 v :: rest } = .next { s with host := rest, msgLen := v }) ∧
    ∀ n, 5 ≤ n → step { s with host := .readCsr n :: rest } = .next { s with host := rest, rdata := 0 } ∧
      ∀ v, step { s with host := .writeCsr n v :: rest } = .next { s with host := rest }

/-- O14. A host write stores one byte and no other; outside operand memory it stores nothing and reads give 0.
20_memory.md R50, 20_memory.md R55, 20_memory.md R58, 20_memory.md R60 (derived). -/
def Obligations.HostMemoryAccess : Prop :=
  ∀ (s : State) (rest : List HostAccess) (a : Nat) (b : Byte), s.running = none →
    (a < 0x1000 + s.params.msgMax →
      (∃ t, step { s with host := .writeOm a b :: rest } = .next t ∧ t.readByte a = b ∧
        (∀ c, c ≠ a → t.readByte c = s.readByte c) ∧ t = { s with host := rest, om := t.om }) ∧
      step { s with host := .readOm a :: rest } = .next { s with host := rest, rdata := (s.readByte a).setWidth 32 }) ∧
    (0x1000 + s.params.msgMax ≤ a →
      step { s with host := .writeOm a b :: rest } = .next { s with host := rest } ∧
      step { s with host := .readOm a :: rest } = .next { s with host := rest, rdata := 0 })

/-- O15. A host write while BUSY = 1 is not performed, raises F_BUSY and leaves only the running command's
destinations unspecified. 20_memory.md R61, 60_exceptions.md R236 (derived). That an abandoned VERIFY keeps every
validity bit is the model's own reading, log entry 8. -/
def Obligations.BusyWriteAbandonsTheCommand : Prop :=
  ∀ (s : State) (i : Instr) (a : HostAccess) (rest : List HostAccess), s.running = some i →
    ((∃ v, a = .writeCsr 0 v) ∨ (∃ w, a = .startCmd w) ∨ (∃ v, a = .writeCsr 2 v) ∨ (∃ v, a = .writeCsr 3 v) ∨
      (∃ v, a = .writeCsr 4 v) ∨ ∃ c b, a = .writeOm c b ∧ c < 0x1000 + s.params.msgMax) →
    ∃ t, step { s with host := a :: rest } = .next t ∧ t.fault = true ∧ t.faultCode = 0x04 ∧ t.running = none ∧
      t.pkLen = s.pkLen ∧ t.sigLen = s.sigLen ∧ t.msgLen = s.msgLen ∧ t.params = s.params ∧ t.host = rest ∧
      SameRegsBut i.dest.toList s t ∧ (i.writesP = false → t.p = s.p) ∧
      ∀ b, inSpan i.writeSpan b = false → t.readByte b = s.readByte b

/-- O16. While a command runs STATUS shows BUSY = 1, other CSRs read as always, and memory outside its destination
span reads its current value. 10_state.md R27, 20_memory.md R58, 20_memory.md R61, 20_memory.md R62 (derived). -/
def Obligations.BusyReadsSeeTheCurrentState : Prop :=
  ∀ (s : State) (i : Instr) (rest : List HostAccess), s.running = some i →
    (∃ t, step { s with host := .readCsr 1 :: rest } = .next t ∧ t.rdata.getLsbD 0 = true ∧
      t.rdata >>> 2 = s.status >>> 2 ∧ (i.writesP = false → t.rdata = s.status) ∧
      t = { s with host := rest, rdata := t.rdata, draws := t.draws }) ∧
    (∀ n, n ≠ 1 → ∃ t, step { s with host := .readCsr n :: rest } = .next t ∧
      t.rdata = (if n = 2 then s.pkLen else if n = 3 then s.sigLen else if n = 4 then s.msgLen else 0) ∧
      t = { s with host := rest, rdata := t.rdata, draws := t.draws }) ∧
    (∀ a, 0x1000 + s.params.msgMax ≤ a → ∃ t, step { s with host := .readOm a :: rest } = .next t ∧ t.rdata = 0 ∧
      t = { s with host := rest, rdata := t.rdata, draws := t.draws }) ∧
    ∀ a, a < 0x1000 + s.params.msgMax → inSpan i.writeSpan a = false →
      ∃ t, step { s with host := .readOm a :: rest } = .next t ∧ t.rdata = (s.readByte a).setWidth 32 ∧
        t = { s with host := rest, rdata := t.rdata, draws := t.draws }

/-- O17. Which command raises F_UNWRITTEN for which source register, which raise F_ADDR and F_LEN, and which cannot.
60_exceptions.md R232 (stated). -/
def Obligations.UnwrittenSourceFaults : Prop :=
  (∀ (s : State) (rd ra rb imm : Nat), rd < 16 → ra < 16 → rb < 16 → imm < 0x1000 →
    (s.isValid (.f ra) = false → ∀ i ∈ [Instr.fePack imm ra, .feSquare rd ra, .feInvert rd ra, .fePow2523 rd ra,
      .feFreeze rd ra, .feIszero ra, .feGetparity ra], exec i s = .next (s.faulted 0x02)) ∧
    (s.isValid (.f ra) = false ∨ s.isValid (.f rb) = false → ∀ i ∈ [Instr.feAdd rd ra rb, .feSub rd ra rb, .feMul rd ra rb,
      .feIseq ra rb], exec i s = .next (s.faulted 0x02)) ∧
    (s.isValid (.f rd) = false ∨ s.isValid (.f ra) = false → exec (.feCmov rd ra) s = .next (s.faulted 0x02))) ∧
  (∀ (s : State) (rd ra rb rc imm : Nat), rd < 4 → ra < 4 → rb < 4 → rc < 4 → imm < 0x1000 →
    (s.isValid (.s ra) = false → ∀ i ∈ [Instr.scTo32 imm ra, .scIszero ra, .scIsshort ra, .scWindow3 imm ra,
      .scWindow5 imm ra], exec i s = .next (s.faulted 0x02)) ∧
    (s.isValid (.s ra) = false ∨ s.isValid (.s rb) = false → ∀ i ∈ [Instr.scAdd rd ra rb, .scSubnr rd ra rb,
      .scMul rd ra rb, .scLt ra rb, .scInterleave2 imm ra rb], exec i s = .next (s.faulted 0x02)) ∧
    (s.isValid (.g ra) = false → ∀ i ∈ [Instr.gePack imm ra, .geDbl rd ra], exec i s = .next (s.faulted 0x02)) ∧
    (s.isValid (.g ra) = false ∨ s.isValid (.g rb) = false → exec (.geAdd rd ra rb) s = .next (s.faulted 0x02)) ∧
    (s.isValid (.g ra) = false ∨ s.isValid (.s rb) = false ∨ s.isValid (.s rc) = false →
      exec (.geDsmul rd ra rb rc) s = .next (s.faulted 0x02))) ∧
  (∀ (s t : State) (i : Instr), i.wellFormed = true → s.fault = false → exec i s = .next t → t.fault = true →
    (t.faultCode = 0x02 ∧ i ≠ .verify ∧ (∀ rd imm, i ≠ .feUnpack rd imm ∧ i ≠ .scFrom32 rd imm ∧ i ≠ .scFrom64 rd imm ∧
        i ≠ .scLessorder imm ∧ i ≠ .geDecompneg rd imm) ∧ ∃ r ∈ i.sources, s.isValid r = false) ∨
      (t.faultCode = 0x03 ∧ (∃ a b c n, (i = .feUnpack b a ∨ i = .fePack a b ∨ i = .scFrom32 b a ∨ i = .scFrom64 b a ∨
        i = .scTo32 a b ∨ i = .scLessorder a ∨ i = .scWindow3 a b ∨ i = .scWindow5 a b ∨ i = .scInterleave2 a b c ∨
        i = .geDecompneg b a ∨ i = .gePack a b) ∧ (i.readSpan = some (a, n) ∨ i.writeSpan = some (a, n)) ∧
        0x1000 < a + n)) ∨
      (t.faultCode = 0x05 ∧ i = .verify ∧ s.params.msgMax < s.msgLen.toNat))

/-- O18. A span that ends above 0x1000 raises F_ADDR; VERIFY's message span raises F_LEN exactly when MSG_LEN >
MSG_MAX. 20_memory.md R58 (stated). -/
def Obligations.SpanPastLowMemoryFaults : Prop :=
  (∀ (s : State) (rd ra imm : Nat), rd < 16 → ra < 16 → imm < 0x1000 → 0x1000 < imm + 32 →
    exec (.feUnpack rd imm) s = .next (s.faulted 0x03) ∧
    (s.isValid (.f ra) = true → exec (.fePack imm ra) s = .next (s.faulted 0x03))) ∧
  (∀ (s : State) (rd ra rb imm : Nat), rd < 4 → ra < 4 → rb < 4 → imm < 0x1000 →
    (0x1000 < imm + 32 → exec (.scFrom32 rd imm) s = .next (s.faulted 0x03) ∧
      exec (.scLessorder imm) s = .next (s.faulted 0x03) ∧ exec (.geDecompneg rd imm) s = .next (s.faulted 0x03) ∧
      (s.isValid (.s ra) = true → exec (.scTo32 imm ra) s = .next (s.faulted 0x03)) ∧
      (s.isValid (.g ra) = true → exec (.gePack imm ra) s = .next (s.faulted 0x03))) ∧
    (0x1000 < imm + 64 → exec (.scFrom64 rd imm) s = .next (s.faulted 0x03)) ∧
    (0x1000 < imm + 85 → s.isValid (.s ra) = true → exec (.scWindow3 imm ra) s = .next (s.faulted 0x03)) ∧
    (0x1000 < imm + 51 → s.isValid (.s ra) = true → exec (.scWindow5 imm ra) s = .next (s.faulted 0x03)) ∧
    (0x1000 < imm + 127 → s.isValid (.s ra) = true → s.isValid (.s rb) = true →
      exec (.scInterleave2 imm ra rb) s = .next (s.faulted 0x03))) ∧
  (∀ s : State, (s.params.msgMax < s.msgLen.toNat → exec .verify s = .next (s.faulted 0x05)) ∧
    (s.msgLen.toNat ≤ s.params.msgMax → ∃ t, exec .verify s = .next t ∧ t.fault = s.fault)) ∧
  (∀ (s : State) (rest : List HostAccess) (a : Nat) (b : Byte), s.running = none → 0x0FFF + s.params.msgMax < a →
    step { s with host := .readOm a :: rest } = .next { s with host := rest, rdata := 0 } ∧
    step { s with host := .writeOm a b :: rest } = .next { s with host := rest })

/-- O19. The first failing check decides the fault: F_ILLEGAL, then F_UNWRITTEN, then F_ADDR or F_LEN. 30_encoding.md
R83, 60_exceptions.md R233 (derived). -/
def Obligations.FaultPriority : Prop :=
  (∀ (s : State) (w : Word) (e : Reject), s.fault = false → decode w = .error e → runCmd s w = .next (s.faulted 0x01)) ∧
  (∀ (s : State) (i : Instr), i.wellFormed = true → (∃ r ∈ i.sources, s.isValid r = false) →
    exec i s = .next (s.faulted 0x02)) ∧
  (∀ (s : State) (i : Instr) (a n : Nat), i.wellFormed = true → (∀ r ∈ i.sources, s.isValid r = true) →
    (i.readSpan = some (a, n) ∨ i.writeSpan = some (a, n)) → 0x1000 < a + n → exec i s = .next (s.faulted 0x03)) ∧
  (∀ (s : State), s.params.msgMax < s.msgLen.toNat → exec .verify s = .next (s.faulted 0x05)) ∧
  (∀ (s : State) (i : Instr) (w : Word) (rest : List HostAccess), s.running = some i →
    ∃ t, step { s with host := .writeCsr 0 w :: rest } = .next t ∧ t.faultCode = 0x04)

/-- O20. A faulting command changes nothing but FAULT, FAULT_CODE and BUSY and makes no hash transaction.
43_verifier.md R221, 60_exceptions.md R234 (derived). The hash transaction is a ghost output of the model, log
entry 11. -/
def Obligations.FaultChangesOnlyStatus : Prop :=
  (∀ (i : Instr) (s t : State), s.fault = false → exec i s = .next t → t.fault = true →
    t = { s with fault := true, faultCode := t.faultCode, running := none } ∧ t.faultCode ∈ [0x01, 0x02, 0x03, 0x05] ∧
      s.hashRequest i = none) ∧
  (∀ (w : Word) (s t : State) (rest : List HostAccess), s.running = none → s.fault = false →
    (step { s with host := .writeCsr 0 w :: rest } = .next t ∨ step { s with host := .startCmd w :: rest } = .next t) →
    t.fault = true → t = { s with host := rest, fault := true, faultCode := t.faultCode, running := none } ∧
      t.faultCode ∈ [0x01, 0x02, 0x03, 0x05]) ∧
  (∀ (w : Word) (s t : State), s.fault = false → runCmd s w = .next t → t.fault = true →
    t = { s with fault := true, faultCode := t.faultCode, running := none } ∧ t.faultCode ∈ [0x01, 0x02, 0x03, 0x05])

/-- O21. No input byte can raise a fault: faults depend on validity bits, operands, MSG_LEN and MSG_MAX alone.
60_exceptions.md R230, 30_encoding.md R82 (derived). -/
def Obligations.FaultsDoNotDependOnData : Prop :=
  ∀ (i : Instr) (s t s' : State), s.fault = false → t.fault = false → (∀ r, s.isValid r = t.isValid r) →
    s.msgLen = t.msgLen → s.params.msgMax = t.params.msgMax → exec i s = .next s' → s'.fault = true →
    exec i t = .next (t.faulted s'.faultCode)

/-- O22. What a register holds while its validity bit is 0 never influences a result. 10_state.md R25,
70_reset_and_hazards.md R263 (derived). -/
def Obligations.UnwrittenContentsNeverShow : Prop :=
  ∀ (i : Instr) (s t : State), SameVisible s t →
    ∃ s' t', exec i s = .next s' ∧ exec i t = .next t' ∧ SameVisible s' t'

/-- O23. One carry pass subtracts t·p exactly, and the passes after an addition, a subtraction and a multiplication
reach INV-FE within the bounds of R104. 40_field_element.md R102, 40_field_element.md R104 (derived). -/
def Obligations.FePassValue : Prop :=
  (∀ v : List Nat, v.length = 32 →
    (fePass v).length = 32 ∧ limbVal (fePass v) + (v.getD 31 0 >>> 7) * fieldP = limbVal v ∧
      (∀ i, i < 31 → (fePass v).getD i 0 ≤ 255) ∧ v.getD 31 0 &&& 127 ≤ (fePass v).getD 31 0) ∧
  (∀ v : List Nat, (LimbsWithin 255 127 v → fePass v = v) ∧ (LimbsWithin 255 254 v → LimbsWithin 255 127 (fePass v))) ∧
  (∀ x y : Fe, feInv x → feInv y →
    (∀ u, u = addLimbs (limbs x) (limbs y) → LimbsWithin 510 254 u ∧ LimbsWithin 255 129 (feReduce u 1) ∧
      LimbsWithin 255 127 (feReduce u 2) ∧ feReduce u 4 = feReduce u 2) ∧
    (∀ u, u = subLimbs (limbs x) (limbs y) →
      (∀ i, i < 32 → u.getD i 0 + (limbs y).getD i 0 = (limbs x).getD i 0 + twoPLimbs.getD i 0) ∧
      219 ≤ u.getD 0 0 ∧ u.getD 0 0 ≤ 729 ∧ (∀ i, 0 < i → i < 31 → 255 ≤ u.getD i 0) ∧ 127 ≤ u.getD 31 0 ∧
      LimbsWithin 765 381 u ∧ LimbsWithin 255 129 (feReduce u 1) ∧ LimbsWithin 255 127 (feReduce u 2) ∧
      feReduce u 4 = feReduce u 2) ∧
    (∀ t u, t = convLimbs (limbs x) (limbs y) → u = foldLimbs t →
      (∀ k, t.getD k 0 ≤ 2080800) ∧ LimbsWithin 81151200 2080800 u ∧ LimbsWithin 255 318366 (feReduce u 1) ∧
      LimbsWithin 255 128 (feReduce u 2) ∧ LimbsWithin 255 127 (feReduce u 3)))

/-- O24. The value-level laws of the FE functions on residues. 40_field_element.md R121 (stated). -/
def Obligations.FieldValueLaws : Prop :=
  ∀ x y z : Fe, feInv x → feInv y → feInv z →
    feRes (feAdd x y) = feRes x + feRes y ∧ feRes (feSub x y) = feRes x - feRes y ∧
    feRes (feMul x y) = feRes x * feRes y ∧ feRes (feSquare x) = feRes x ^ 2 ∧
    feRes (feInvert x) = feRes x ^ (fieldP - 2) ∧ feRes (fePow2523 x) = feRes x ^ (2 ^ 252 - 3) ∧
    vecVal (feFreeze x) = (feRes x).val ∧ vecVal (feFreeze x) < fieldP ∧
    feRes (feAdd x y) = feRes (feAdd y x) ∧ feRes (feMul x y) = feRes (feMul y x) ∧
    feRes (feAdd (feAdd x y) z) = feRes (feAdd x (feAdd y z)) ∧ feRes (feMul (feMul x y) z) = feRes (feMul x (feMul y z)) ∧
    (feRes x = feRes y → fePack x = fePack y ∧ feIszero x = feIszero y ∧ feIseq x z = feIseq y z ∧
      feIseq z x = feIseq z y ∧ feGetparity x = feGetparity y)

/-- O25. FE.UNPACK writes the low 255 bits of 32 bytes, little-endian, as limbs that satisfy INV-FE. 30_encoding.md
R87, 40_field_element.md R106 (derived). -/
def Obligations.FeUnpackResult : Prop :=
  ∀ (s : State) (rd imm : Nat), rd < 16 → imm + 32 ≤ 0x1000 →
    ∃ v, imm < 0x1000 ∧ exec (.feUnpack rd imm) s = .next (s.writeF rd v) ∧ feInv v ∧
      (∀ i : Fin 31, v[i.val] = s.readByte (imm + i)) ∧ v[31] = s.readByte (imm + 31) &&& 0x7F ∧
      vecVal v = leVal (s.readBytes imm 32) % 2 ^ 255

/-- O26. FE.PACK writes the 32 little-endian bytes of the canonical representative. 30_encoding.md R87,
40_field_element.md R107 (derived). -/
def Obligations.FePackResult : Prop :=
  ∀ (s : State) (imm ra : Nat), ra < 16 → imm + 32 ≤ 0x1000 → s.isValid (.f ra) = true →
    ∃ bs, exec (.fePack imm ra) s = .next (s.writeBytes imm bs) ∧ bs.length = 32 ∧
      (s.writeBytes imm bs).readBytes imm 32 = bs ∧
      (feInv (s.fe ra) → bs = leBytes 32 (vecVal (s.fe ra) % fieldP) ∧ (bs.getD 31 0).getLsbD 7 = false)

/-- O27. FE.ADD writes the sum: exact value, residue and INV-FE, commutative limb for limb. 40_field_element.md R103,
40_field_element.md R104, 40_field_element.md R108 (derived). -/
def Obligations.FeAddResult : Prop :=
  (∀ (s : State) (rd ra rb : Nat), exec (.feAdd rd ra rb) s = exec (.feAdd rd rb ra) s) ∧
  (∀ (s : State) (rd ra rb : Nat), rd < 16 → ra < 16 → rb < 16 → s.isValid (.f ra) = true → s.isValid (.f rb) = true →
    ∃ v, exec (.feAdd rd ra rb) s = .next (s.writeF rd v) ∧ feInv v ∧ feRes v = feRes (s.fe ra) + feRes (s.fe rb) ∧
      vecVal v = reducedVal (vecVal (s.fe ra) + vecVal (s.fe rb)))

/-- O28. FE.SUB writes the difference: exact value, residue and INV-FE. 40_field_element.md R101, 40_field_element.md
R103, 40_field_element.md R104, 40_field_element.md R109 (derived). -/
def Obligations.FeSubResult : Prop :=
  ∀ (s : State) (rd ra rb : Nat), rd < 16 → ra < 16 → rb < 16 → s.isValid (.f ra) = true → s.isValid (.f rb) = true →
    ∃ v, exec (.feSub rd ra rb) s = .next (s.writeF rd v) ∧ feInv v ∧
      (feInv (s.fe rb) → feRes v = feRes (s.fe ra) - feRes (s.fe rb) ∧
        vecVal v = reducedVal (vecVal (s.fe ra) + 2 * fieldP - vecVal (s.fe rb)))

/-- O29. FE.MUL writes the product: exact value of the folded convolution, residue and INV-FE, commutative limb for
limb. 40_field_element.md R103, 40_field_element.md R104, 40_field_element.md R110 (derived). -/
def Obligations.FeMulResult : Prop :=
  (∀ (s : State) (rd ra rb : Nat), exec (.feMul rd ra rb) s = exec (.feMul rd rb ra) s) ∧
  (∀ (s : State) (rd ra rb : Nat), rd < 16 → ra < 16 → rb < 16 → s.isValid (.f ra) = true → s.isValid (.f rb) = true →
    ∃ v, exec (.feMul rd ra rb) s = .next (s.writeF rd v) ∧ feInv v ∧ feRes v = feRes (s.fe ra) * feRes (s.fe rb) ∧
      vecVal v = reducedVal (foldedProduct (s.fe ra) (s.fe rb)))

/-- O30. FE.SQUARE gives, limb for limb, the result of FE.MUL fd, fa, fa. 40_field_element.md R111 (derived). -/
def Obligations.FeSquareResult : Prop :=
  (∀ (s : State) (rd ra : Nat), exec (.feSquare rd ra) s = exec (.feMul rd ra ra) s) ∧
  (∀ (s : State) (rd ra : Nat), rd < 16 → ra < 16 → s.isValid (.f ra) = true →
    ∃ v, exec (.feSquare rd ra) s = .next (s.writeF rd v) ∧ feInv v ∧ feRes v = feRes (s.fe ra) ^ 2)

/-- O31. FE.INVERT writes x^(p−2), the inverse of a non-zero residue and 0 for 0; FE.POW2523 writes x^((p−5)/8).
40_field_element.md R112, 40_field_element.md R113, 40_field_element.md R114 (derived). -/
def Obligations.FeInvertAndPow2523Results : Prop :=
  (fieldP - 5) / 8 = 2 ^ 252 - 3 ∧
  ∀ (s : State) (rd ra : Nat), rd < 16 → ra < 16 → s.isValid (.f ra) = true →
    (∃ v, exec (.feInvert rd ra) s = .next (s.writeF rd v) ∧ feInv v ∧ feRes v = feRes (s.fe ra) ^ (fieldP - 2) ∧
      (feRes (s.fe ra) ≠ 0 → feRes (s.fe ra) * feRes v = 1) ∧ (feRes (s.fe ra) = 0 → feRes v = 0) ∧
      (vecVal (s.fe ra) = 0 → vecVal v = 0) ∧ (vecVal (s.fe ra) = fieldP → vecVal v = fieldP)) ∧
    ∃ v, exec (.fePow2523 rd ra) s = .next (s.writeF rd v) ∧ feInv v ∧ feRes v = feRes (s.fe ra) ^ (2 ^ 252 - 3) ∧
      (feRes (s.fe ra) = 0 → feRes v = 0) ∧ (feRes (s.fe ra) = 1 → feRes v = 1)

/-- O32. FE.FREEZE writes the canonical limbs, the number of the register mod p. 40_field_element.md R115 (derived). -/
def Obligations.FeFreezeResult : Prop :=
  ∀ (s : State) (rd ra : Nat), rd < 16 → ra < 16 → s.isValid (.f ra) = true →
    ∃ v, exec (.feFreeze rd ra) s = .next (s.writeF rd v) ∧
      (feInv (s.fe ra) → feInv v ∧ vecVal v = vecVal (s.fe ra) % fieldP ∧ feFreeze v = v)

/-- O33. FE.ISZERO, FE.ISEQ and FE.GETPARITY set P from the residue. 40_field_element.md R116, 40_field_element.md
R117, 40_field_element.md R118 (derived). -/
def Obligations.FePredicateResults : Prop :=
  (∀ (s : State) (ra : Nat), ra < 16 → s.isValid (.f ra) = true →
    (∃ b, exec (.feIszero ra) s = .next (s.setP b) ∧ (feInv (s.fe ra) →
      (b = true ↔ feRes (s.fe ra) = 0) ∧ (b = true ↔ vecVal (s.fe ra) = 0 ∨ vecVal (s.fe ra) = fieldP))) ∧
    ∃ b, exec (.feGetparity ra) s = .next (s.setP b) ∧ (feInv (s.fe ra) → (b = true ↔ (feRes (s.fe ra)).val % 2 = 1))) ∧
  (∀ (s : State) (ra rb : Nat), ra < 16 → rb < 16 → s.isValid (.f ra) = true → s.isValid (.f rb) = true →
    ∃ b, exec (.feIseq ra rb) s = .next (s.setP b) ∧
      (feInv (s.fe ra) → feInv (s.fe rb) → (b = true ↔ feRes (s.fe ra) = feRes (s.fe rb))))

/-- O34. FE.CMOV copies the limbs of fa to fd where P = 1 and keeps those of fd where P = 0. 30_encoding.md R86,
40_field_element.md R119 (derived). -/
def Obligations.FeCmovResult : Prop :=
  ∀ (s : State) (rd ra : Nat), rd < 16 → ra < 16 → s.isValid (.f rd) = true → s.isValid (.f ra) = true →
    exec (.feCmov rd ra) s = .next (s.writeF rd (if s.p = true then s.fe ra else s.fe rd))

/-- O35. pack(freeze(unpack(bytes))) is the canonical 255-bit-reduced representative of the bytes. 40_field_element.md
R106, 40_field_element.md R107, 40_field_element.md R115 (derived). -/
def Obligations.PackFreezeUnpackIsCanonical : Prop :=
  ∀ (s : State) (a b r q : Nat), a + 32 ≤ 0x1000 → b + 32 ≤ 0x1000 → r < 16 → q < 16 →
    ∃ s1 s2 s3, exec (.feUnpack r a) s = .next s1 ∧ exec (.feFreeze q r) s1 = .next s2 ∧ exec (.fePack b q) s2 = .next s3 ∧
      s3.readBytes b 32 = leBytes 32 (leVal (s.readBytes a 32) % 2 ^ 255 % fieldP)

/-- O36. Barrett reduction: the quotient estimate is at most two short and the result is X mod L. 41_scalar.md R145
(stated). -/
def Obligations.BarrettReductionIsModL : Prop :=
  3 * groupOrder < 2 ^ 255 ∧ 2 ^ 255 < 256 ^ 33 ∧
  ∀ x : List Nat, x.length = 64 → (∀ u ∈ x, u < 256) →
    limbVal (barrettQuotient x) ≤ limbVal x / groupOrder ∧ limbVal x / groupOrder ≤ limbVal (barrettQuotient x) + 2 ∧
    limbVal (barrettQuotient x) * groupOrder ≤ limbVal x ∧
    limbVal x < limbVal (barrettQuotient x) * groupOrder + 3 * groupOrder ∧
    vecVal (barrettReduce x) = limbVal x % groupOrder ∧ vecVal (barrettReduce x) < groupOrder

/-- O37. SC.FROM32 and SC.FROM64 write the number of 32 or 64 bytes mod L. 30_encoding.md R89, 41_scalar.md R146,
41_scalar.md R147 (derived). -/
def Obligations.ScDecodeResults : Prop :=
  ∀ (s : State) (rd imm : Nat), rd < 4 → imm < 0x1000 →
    (imm + 32 ≤ 0x1000 → ∃ v, exec (.scFrom32 rd imm) s = .next (s.writeS rd v) ∧
      vecVal v = leVal (s.readBytes imm 32) % groupOrder) ∧
    (imm + 64 ≤ 0x1000 → ∃ v, exec (.scFrom64 rd imm) s = .next (s.writeS rd v) ∧
      vecVal v = leVal (s.readBytes imm 64) % groupOrder)

/-- O38. SC.TO32 writes the 32 limbs of a scalar as bytes, unreduced. 30_encoding.md R89, 41_scalar.md R148 (derived). -/
def Obligations.ScTo32Result : Prop :=
  ∀ (s : State) (imm ra rd : Nat), ra < 4 → rd < 4 → imm + 32 ≤ 0x1000 → s.isValid (.s ra) = true →
    ∃ t, t = s.writeBytes imm (leBytes 32 (vecVal (s.sc ra))) ∧ exec (.scTo32 imm ra) s = .next t ∧
      (∀ i : Fin 32, t.readByte (imm + i) = (s.sc ra)[i]) ∧
      ∃ v, exec (.scFrom32 rd imm) t = .next (t.writeS rd v) ∧ vecVal v = vecVal (s.sc ra) % groupOrder

/-- O39. SC.ADD, SC.SUBNR and SC.MUL: the sum less L at most once mod 2^256, the difference mod 2^256, the product mod
L. 41_scalar.md R149, 41_scalar.md R150, 41_scalar.md R151 (derived). -/
def Obligations.ScArithmeticResults : Prop :=
  ∀ (s : State) (rd ra rb : Nat), rd < 4 → ra < 4 → rb < 4 → s.isValid (.s ra) = true → s.isValid (.s rb) = true →
    (∃ v, exec (.scAdd rd ra rb) s = .next (s.writeS rd v) ∧
      (vecVal (s.sc ra) + vecVal (s.sc rb) < groupOrder → vecVal v = vecVal (s.sc ra) + vecVal (s.sc rb)) ∧
      (groupOrder ≤ vecVal (s.sc ra) + vecVal (s.sc rb) →
        vecVal v = (vecVal (s.sc ra) + vecVal (s.sc rb) - groupOrder) % 2 ^ 256) ∧
      (vecVal (s.sc ra) < groupOrder → vecVal (s.sc rb) < groupOrder →
        vecVal v = (vecVal (s.sc ra) + vecVal (s.sc rb)) % groupOrder)) ∧
    (∃ v, exec (.scSubnr rd ra rb) s = .next (s.writeS rd v) ∧
      (vecVal (s.sc rb) ≤ vecVal (s.sc ra) → vecVal v = vecVal (s.sc ra) - vecVal (s.sc rb)) ∧
      (vecVal (s.sc ra) < vecVal (s.sc rb) → vecVal v = vecVal (s.sc ra) + 2 ^ 256 - vecVal (s.sc rb))) ∧
    ∃ v, exec (.scMul rd ra rb) s = .next (s.writeS rd v) ∧
      vecVal v = vecVal (s.sc ra) * vecVal (s.sc rb) % groupOrder

/-- O40. SC.LT, SC.ISZERO, SC.ISSHORT and SC.LESSORDER set P from the stored integer or the raw bytes. 41_scalar.md
R152, 41_scalar.md R153, 41_scalar.md R154, 41_scalar.md R155 (derived). -/
def Obligations.ScPredicateResults : Prop :=
  (∀ (s : State) (ra rb : Nat), ra < 4 → rb < 4 → s.isValid (.s ra) = true → s.isValid (.s rb) = true →
    exec (.scLt ra rb) s = .next (s.setP (decide (vecVal (s.sc ra) < vecVal (s.sc rb)))) ∧
    exec (.scIszero ra) s = .next (s.setP (decide (vecVal (s.sc ra) = 0))) ∧
    exec (.scIsshort ra) s = .next (s.setP (decide (vecVal (s.sc ra) < 2 ^ 128)))) ∧
  (∀ (s : State) (imm : Nat), imm + 32 ≤ 0x1000 →
    exec (.scLessorder imm) s = .next (s.setP (decide (leVal (s.readBytes imm 32) < groupOrder))))

/-- O41. SC.WINDOW3 and SC.WINDOW5 write the signed digits of the scalar as bytes. 30_encoding.md R96, 41_scalar.md
R156, 41_scalar.md R157, 41_scalar.md R158 (derived). -/
def Obligations.ScWindowResults : Prop :=
  ∀ (s : State) (imm ra : Nat), ra < 4 → imm < 0x1000 → s.isValid (.s ra) = true →
    (imm + 85 ≤ 0x1000 → ∃ ds : List Int, exec (.scWindow3 imm ra) s = .next (s.writeBytes imm (ds.map (BitVec.ofInt 8))) ∧
      ds.length = 85 ∧ digitsVal 3 ds = vecVal (s.sc ra) ∧ (∀ i, i < 84 → -4 ≤ ds.getD i 0 ∧ ds.getD i 0 ≤ 3) ∧
      0 ≤ ds.getD 84 0 ∧ ds.getD 84 0 ≤ 16 ∧ (vecVal (s.sc ra) < groupOrder → ds.getD 84 0 ≤ 1)) ∧
    (imm + 51 ≤ 0x1000 → ∃ ds : List Int, exec (.scWindow5 imm ra) s = .next (s.writeBytes imm (ds.map (BitVec.ofInt 8))) ∧
      ds.length = 51 ∧ digitsVal 5 ds = vecVal (s.sc ra) ∧ (∀ i, i < 50 → -16 ≤ ds.getD i 0 ∧ ds.getD i 0 ≤ 15) ∧
      0 ≤ ds.getD 50 0 ∧ ds.getD 50 0 ≤ 64 ∧ (vecVal (s.sc ra) < groupOrder → ds.getD 50 0 ≤ 4))

/-- O42. SC.INTERLEAVE2 writes 127 digits that join bit pairs of the two scalars. 30_encoding.md R96, 41_scalar.md
R159 (derived). -/
def Obligations.ScInterleave2Result : Prop :=
  ∀ (s : State) (imm ra rb : Nat), ra < 4 → rb < 4 → imm + 127 ≤ 0x1000 → s.isValid (.s ra) = true →
    s.isValid (.s rb) = true →
    ∃ t, t = s.writeBytes imm ((List.range 127).map fun i => BitVec.ofNat 8
        (vecVal (s.sc ra) / 4 ^ i % 4 + 4 * (vecVal (s.sc rb) / 4 ^ i % 4))) ∧
      exec (.scInterleave2 imm ra rb) s = .next t ∧
      (∑ i ∈ Finset.range 127, (t.readByte (imm + i)).toNat % 4 * 4 ^ i = vecVal (s.sc ra) % 2 ^ 254) ∧
      (∑ i ∈ Finset.range 127, (t.readByte (imm + i)).toNat / 4 * 4 ^ i = vecVal (s.sc rb) % 2 ^ 254)

/-- O43. The constants of the curve, the base point (L·G is neutral and G is not) and of Barrett reduction satisfy the
checks of R141, R181 and R182. 41_scalar.md R140, 41_scalar.md R141, 42_group_element.md R181, 42_group_element.md
R182 (derived). -/
def Obligations.CurveConstants : Prop :=
  121666 * resD + 121665 = 0 ∧ feRes curveD2 = 2 * resD ∧ feRes curveSqrtM1 ^ 2 = -1 ∧
    OnCurve (feRes geBase.x) (feRes geBase.y) ∧ 5 * feRes geBase.y = 4 ∧ vecVal geBase.x % 2 = 0 ∧
    feRes geBase.t = feRes geBase.x * feRes geBase.y ∧ vecVal geBase.z = 1 ∧
    (∀ v ∈ [curveD, curveD2, curveSqrtM1, geBase.x, geBase.y, geBase.z, geBase.t], vecVal v < fieldP) ∧
    (∀ n, edMul (groupOrder * n) basePoint = (0, 1)) ∧ basePoint ≠ (0, 1) ∧
    barrettMu * groupOrder ≤ 256 ^ 64 ∧ 256 ^ 64 < (barrettMu + 1) * groupOrder ∧
    limbVal muLimbs = barrettMu ∧ limbVal lLimbs = groupOrder

/-- O44. Completeness: ge_add and ge_dbl map well-formed values to well-formed values of the group sum and double.
42_group_element.md R189 (stated). -/
def Obligations.GroupLawIsComplete : Prop :=
  (∀ P Q : Ge, geInv P → geInv Q → GeWellFormed P → GeWellFormed Q →
    geInv (geAdd P Q) ∧ GeWellFormed (geAdd P Q) ∧ feRes (geAdd P Q).z ≠ 0 ∧
      gePoint (geAdd P Q) = edAdd (gePoint P) (gePoint Q) ∧
    geInv (geDbl P) ∧ GeWellFormed (geDbl P) ∧ feRes (geDbl P).z ≠ 0 ∧
      gePoint (geDbl P) = edAdd (gePoint P) (gePoint P)) ∧
  (∀ x1 y1 x2 y2 : ZMod fieldP, OnCurve x1 y1 → OnCurve x2 y2 →
    1 + resD * x1 * x2 * y1 * y2 ≠ 0 ∧ 1 - resD * x1 * x2 * y1 * y2 ≠ 0 ∧
      OnCurve (edAdd (x1, y1) (x2, y2)).1 (edAdd (x1, y1) (x2, y2)).2)

/-- O45. GE.ADD writes the coordinates of the unified addition formula, a point of the sum for well-formed sources.
42_group_element.md R185, 42_group_element.md R186, 42_group_element.md R189 (derived). -/
def Obligations.GeAddResult : Prop :=
  ∀ (s : State) (rd ra rb : Nat), rd < 4 → ra < 4 → rb < 4 → s.isValid (.g ra) = true → s.isValid (.g rb) = true →
    ∃ v, exec (.geAdd rd ra rb) s = .next (s.writeG rd v) ∧ geInv v ∧
      (geInv (s.ge ra) → geInv (s.ge rb) →
        (∀ a b c dd : ZMod fieldP,
          a = (feRes (s.ge ra).y - feRes (s.ge ra).x) * (feRes (s.ge rb).y - feRes (s.ge rb).x) →
          b = (feRes (s.ge ra).y + feRes (s.ge ra).x) * (feRes (s.ge rb).y + feRes (s.ge rb).x) →
          c = feRes (s.ge ra).t * feRes (s.ge rb).t * (2 * resD) → dd = 2 * (feRes (s.ge ra).z * feRes (s.ge rb).z) →
          feRes v.x = (b - a) * (dd - c) ∧ feRes v.y = (dd + c) * (b + a) ∧ feRes v.z = (dd - c) * (dd + c) ∧
            feRes v.t = (b - a) * (b + a)) ∧
        (GeWellFormed (s.ge ra) → GeWellFormed (s.ge rb) →
          GeWellFormed v ∧ gePoint v = edAdd (gePoint (s.ge ra)) (gePoint (s.ge rb))))

/-- O46. GE.DBL writes the coordinates of the doubling formula, the double of the point for a well-formed source.
42_group_element.md R187, 42_group_element.md R188, 42_group_element.md R189 (derived). -/
def Obligations.GeDblResult : Prop :=
  ∀ (s : State) (rd ra : Nat), rd < 4 → ra < 4 → s.isValid (.g ra) = true →
    ∃ v, exec (.geDbl rd ra) s = .next (s.writeG rd v) ∧ geInv v ∧
      (geInv (s.ge ra) →
        (∀ e f g h : ZMod fieldP, h = feRes (s.ge ra).x ^ 2 + feRes (s.ge ra).y ^ 2 →
          e = h - (feRes (s.ge ra).x + feRes (s.ge ra).y) ^ 2 → g = feRes (s.ge ra).x ^ 2 - feRes (s.ge ra).y ^ 2 →
          f = 2 * feRes (s.ge ra).z ^ 2 + g →
          feRes v.x = e * f ∧ feRes v.y = g * h ∧ feRes v.z = f * g ∧ feRes v.t = e * h) ∧
        (GeWellFormed (s.ge ra) → GeWellFormed v ∧ gePoint v = edAdd (gePoint (s.ge ra)) (gePoint (s.ge ra))))

/-- O47. GE.DECOMPNEG succeeds exactly on the encodings of curve points and writes minus the point; else it clears the
register. 30_encoding.md R88, 42_group_element.md R190, 42_group_element.md R191 (derived). -/
def Obligations.GeDecompnegResult : Prop :=
  ∀ (s : State) (rd imm : Nat), rd < 4 → imm + 32 ≤ 0x1000 →
    (∀ A, DecodesTo (s.readBytes imm 32) A →
      ∃ v, exec (.geDecompneg rd imm) s = .next ((s.writeG rd v).setP true) ∧ geInv v ∧ GeWellFormed v ∧
        feRes v.z = 1 ∧ gePoint v = (-A.1, A.2)) ∧
    ((∀ A, ¬DecodesTo (s.readBytes imm 32) A) → exec (.geDecompneg rd imm) s = .next ((s.clearG rd).setP false))

/-- O48. GE.PACK writes the canonical compressed encoding of the point. 30_encoding.md R88, 42_group_element.md R192
(derived). -/
def Obligations.GePackResult : Prop :=
  ∀ (s : State) (imm ra : Nat), ra < 4 → imm + 32 ≤ 0x1000 → s.isValid (.g ra) = true →
    exec (.gePack imm ra) s = .next (s.writeBytes imm (encodePoint (gePoint (s.ge ra)))) ∧
      (feRes (s.ge ra).z = 0 → encodePoint (gePoint (s.ge ra)) = List.replicate 32 0)

/-- O49. GE.DSMUL writes s1·A + s2·G. 42_group_element.md R180, 42_group_element.md R193, 42_group_element.md R194
(derived). -/
def Obligations.GeDsmulResult : Prop :=
  groupOrder < 2 ^ 254 ∧
  ∀ (s : State) (rd ra rb rc : Nat), rd < 4 → ra < 4 → rb < 4 → rc < 4 → s.isValid (.g ra) = true →
    s.isValid (.s rb) = true → s.isValid (.s rc) = true →
    ∃ v, exec (.geDsmul rd ra rb rc) s = .next (s.writeG rd v) ∧
      (geInv (s.ge ra) → GeWellFormed (s.ge ra) → geInv v ∧ GeWellFormed v ∧
        gePoint v = edAdd (edMul (vecVal (s.sc rb) % 2 ^ 254) (gePoint (s.ge ra)))
          (edMul (vecVal (s.sc rc) % 2 ^ 254) basePoint))

/-- O50. VERIFY completes with the Ed25519 verification equation as its verdict. 43_verifier.md R223 (stated). -/
def Obligations.VerifyVerdict : Prop :=
  ∀ s : State, s.msgLen.toNat ≤ s.params.msgMax →
    ∃ b, exec .verify s = .next (s.clearAll.setP b) ∧
      (b = true ↔ s.pkLen = 32 ∧ s.sigLen = 64 ∧ leVal (s.readBytes 0x040 32) < groupOrder ∧
        ∃ A, DecodesTo (s.readBytes 0x000 32) A ∧
          encodePoint (edAdd
            (edMul (vecVal (s.params.hash (s.readBytes 0x020 32 ++ s.readBytes 0x000 32 ++
              s.readBytes 0x1000 s.msgLen.toNat)) % groupOrder) (-A.1, A.2))
            (edMul (leVal (s.readBytes 0x040 32)) basePoint)) = s.readBytes 0x020 32)

/-- O51. VERIFY hashes exactly once, R, PK and MSG, exactly when it does not fault and steps 1 to 4 pass; else the
first failing step rejects; no other command hashes. 20_memory.md R66, 20_memory.md R67, 43_verifier.md R212,
43_verifier.md R221 (derived). The step and the hash transaction are ghost outputs of the model, log entry 11. -/
def Obligations.VerifyStepsAndHashUse : Prop :=
  (∀ s : State, s.msgLen.toNat ≤ s.params.msgMax →
    ((s.pkLen ≠ 32 ∨ s.sigLen ≠ 64) → s.verifyRun = ⟨false, 1, none⟩ ∧ s.hashRequest .verify = none) ∧
    (s.pkLen = 32 → s.sigLen = 64 → s.readByte 0x05F &&& 0xE0 ≠ 0 →
      s.verifyRun = ⟨false, 2, none⟩ ∧ s.hashRequest .verify = none) ∧
    (s.pkLen = 32 → s.sigLen = 64 → s.readByte 0x05F &&& 0xE0 = 0 → groupOrder ≤ leVal (s.readBytes 0x040 32) →
      s.verifyRun = ⟨false, 3, none⟩ ∧ s.hashRequest .verify = none) ∧
    (s.pkLen = 32 → s.sigLen = 64 → leVal (s.readBytes 0x040 32) < groupOrder →
      (∀ A, ¬DecodesTo (s.readBytes 0x000 32) A) → s.verifyRun = ⟨false, 4, none⟩ ∧ s.hashRequest .verify = none) ∧
    (s.pkLen = 32 → s.sigLen = 64 → leVal (s.readBytes 0x040 32) < groupOrder →
      (∃ A, DecodesTo (s.readBytes 0x000 32) A) →
      s.verifyRun.step = 7 ∧ s.hashRequest .verify =
        some (s.readBytes 0x020 32 ++ s.readBytes 0x000 32 ++ s.readBytes 0x1000 s.msgLen.toNat)) ∧
    (s.readBytes 0x020 32 ++ s.readBytes 0x000 32 ++ s.readBytes 0x1000 s.msgLen.toNat).length = 64 + s.msgLen.toNat ∧
    exec .verify s = .next (s.clearAll.setP s.verifyRun.verdict)) ∧
  (∀ s : State, s.params.msgMax < s.msgLen.toNat →
    exec .verify s = .next (s.faulted 0x05) ∧ s.hashRequest .verify = none) ∧
  (∀ (s : State) (i : Instr), i ≠ .verify → s.hashRequest i = none) ∧
  (∀ (s t : State) (i : Instr) (tab : List (List Byte × Digest)), i ≠ .verify → exec i s = .next t →
    exec i { s with params := ⟨s.params.msgMax, tab⟩ } = .next { t with params := ⟨s.params.msgMax, tab⟩ })

/-- O52. A signature with S >= L is rejected at step 3 or before, before any hash; the top-bits test of step 2 changes
no verdict. 43_verifier.md R214, 43_verifier.md R215 (derived). -/
def Obligations.VerifyRejectsNonCanonicalS : Prop :=
  groupOrder < 2 ^ 253 ∧
  ∀ s : State, (s.readByte 0x05F &&& 0xE0 ≠ 0 → 2 ^ 253 ≤ leVal (s.readBytes 0x040 32)) ∧
    (s.msgLen.toNat ≤ s.params.msgMax → groupOrder ≤ leVal (s.readBytes 0x040 32) →
      exec .verify s = .next (s.clearAll.setP false) ∧ s.hashRequest .verify = none ∧ s.verifyRun.step ≤ 3)

/-- O53. After VERIFY every register is unwritten, and every rejection leaves the same state. 43_verifier.md R220,
43_verifier.md R222 (stated). -/
def Obligations.VerifyLeavesNoTrace : Prop :=
  (∀ s : State, s.msgLen.toNat ≤ s.params.msgMax → s.fault = false →
    ∃ t, exec .verify s = .next t ∧ (∀ r, t.isValid r = false) ∧ t.fault = false ∧ t.om = s.om ∧ SameBytes s t ∧
      SameRest s t) ∧
  (∀ s t s' t' : State, exec .verify s = .next s' → exec .verify t = .next t' → s.fault = false → t.fault = false →
    s'.fault = false → t'.fault = false → s'.p = false → t'.p = false → s.f = t.f → s.s = t.s → s.g = t.g →
    s.running = t.running → s.faultCode = t.faultCode →
    s'.p = t'.p ∧ s'.status = t'.status ∧ s'.f = t'.f ∧ s'.s = t'.s ∧ s'.g = t'.g) ∧
  (∀ s t : State, s.fault = false → exec .verify s = .next t → t.fault = true → ∀ r, t.isValid r = s.isValid r)

/-- O54. The verdict depends on the inputs of R211 alone, whatever ran before. 00_scope.md R4, 43_verifier.md R211
(derived). -/
def Obligations.VerifyIsAPureFunctionOfItsInputs : Prop :=
  ∀ s t : State, s.pkLen = t.pkLen → s.sigLen = t.sigLen → s.msgLen = t.msgLen →
    (∀ a, a < 0x060 → s.readByte a = t.readByte a) →
    (∀ a, 0x1000 ≤ a → a < 0x1000 + s.msgLen.toNat → s.readByte a = t.readByte a) →
    (s.params.hash (s.readBytes 0x020 32 ++ s.readBytes 0x000 32 ++ s.readBytes 0x1000 s.msgLen.toNat) =
      t.params.hash (s.readBytes 0x020 32 ++ s.readBytes 0x000 32 ++ s.readBytes 0x1000 s.msgLen.toNat)) →
    s.verifyRun = t.verifyRun ∧
    (s.msgLen.toNat ≤ s.params.msgMax → s.msgLen.toNat ≤ t.params.msgMax →
      ∃ s' t', exec .verify s = .next s' ∧ exec .verify t = .next t' ∧ s'.p = t'.p)

/-- O55. A command that writes a register changes that register and nothing else. 10_state.md R21, 10_state.md R23,
10_state.md R24, 10_state.md R26, 20_memory.md R52, 70_reset_and_hazards.md R266 (derived). -/
def Obligations.FrameOfRegisterCommands : Prop :=
  ∀ (s t : State) (rd ra rb rc imm : Nat), t.fault = false →
    ((∀ i ∈ [Instr.feUnpack rd imm, .feAdd rd ra rb, .feSub rd ra rb, .feMul rd ra rb, .feSquare rd ra, .feInvert rd ra,
        .fePow2523 rd ra, .feFreeze rd ra, .feCmov rd ra], exec i s = .next t →
      SameRegsBut [.f rd] s t ∧ t.p = s.p ∧ SameBytes s t ∧ SameRest s t) ∧
    (∀ i ∈ [Instr.scFrom32 rd imm, .scFrom64 rd imm, .scAdd rd ra rb, .scSubnr rd ra rb, .scMul rd ra rb],
      exec i s = .next t → SameRegsBut [.s rd] s t ∧ t.p = s.p ∧ SameBytes s t ∧ SameRest s t) ∧
    (∀ i ∈ [Instr.geAdd rd ra rb, .geDbl rd ra, .geDsmul rd ra rb rc],
      exec i s = .next t → SameRegsBut [.g rd] s t ∧ t.p = s.p ∧ SameBytes s t ∧ SameRest s t) ∧
    (exec (.geDecompneg rd imm) s = .next t → SameRegsBut [.g rd] s t ∧ SameBytes s t ∧ SameRest s t))

/-- O56. A command that writes operand memory changes the bytes of its span at imm12 and nothing else. 10_state.md
R26, 20_memory.md R52, 20_memory.md R57 (derived). -/
def Obligations.FrameOfStoreCommands : Prop :=
  ∀ (s t : State) (imm ra rb : Nat), t.fault = false →
    ((∀ i ∈ [Instr.fePack imm ra, .scTo32 imm ra, .gePack imm ra], exec i s = .next t →
      SameBytesBut imm 32 s t ∧ SameRegsBut [] s t ∧ t.p = s.p ∧ SameRest s t) ∧
    (exec (.scWindow3 imm ra) s = .next t → SameBytesBut imm 85 s t ∧ SameRegsBut [] s t ∧ t.p = s.p ∧ SameRest s t) ∧
    (exec (.scWindow5 imm ra) s = .next t → SameBytesBut imm 51 s t ∧ SameRegsBut [] s t ∧ t.p = s.p ∧ SameRest s t) ∧
    (exec (.scInterleave2 imm ra rb) s = .next t →
      SameBytesBut imm 127 s t ∧ SameRegsBut [] s t ∧ t.p = s.p ∧ SameRest s t))

/-- O57. A predicate command changes P and nothing else. 10_state.md R26, 20_memory.md R52, 70_reset_and_hazards.md
R268 (derived). -/
def Obligations.FrameOfPredicateCommands : Prop :=
  ∀ (s t : State) (ra rb imm : Nat), t.fault = false →
    ∀ i ∈ [Instr.feIszero ra, .feIseq ra rb, .feGetparity ra, .scLt ra rb, .scIszero ra, .scIsshort ra,
      .scLessorder imm], exec i s = .next t → SameRegsBut [] s t ∧ SameBytes s t ∧ SameRest s t

/-- O58. The state after reset meets the invariants of the machine. 10_state.md R22, 10_state.md R25, 10_state.md R29,
10_state.md R37 (derived). -/
def Obligations.ResetMeetsTheInvariants : Prop :=
  State.reset.Inv ∧ State.reset.PointsOk

/-- O59. Every step keeps the machine's invariant, INV-FE of every written register of an engine that is not stopped
included. 10_state.md R22, 10_state.md R24, 10_state.md R29, 20_memory.md R50, 30_encoding.md R83,
40_field_element.md R104 (derived). -/
def Obligations.StepKeepsTheInvariant : Prop :=
  ∀ s t : State, s.Inv → step s = .next t → t.Inv

/-- O60. Every step keeps every valid GE register well formed while the engine is not stopped, and so it is after
reset. 42_group_element.md R183, 60_exceptions.md R236 (derived). -/
def Obligations.StepKeepsPointsOnTheCurve : Prop :=
  State.reset.PointsOk ∧ ∀ s t : State, s.Inv → s.PointsOk → step s = .next t → t.PointsOk
end

