-- ==== Sys2Proof/Laws/Limbs.lean ====
section
/-! SUPPORT. What the limb operations of Machine/Limbs.lean do to the value and the bounds of a limb vector. -/

namespace Sys2Proof.Machine

/-- Every limb is below a bound. -/
abbrev LimbsBelow (b : Nat) (l : List Nat) : Prop := ∀ x ∈ l, x < b

theorem limbsBelow_nil (b : Nat) : LimbsBelow b [] := fun _ h => absurd h (by simp)

@[simp] theorem limbVal_nil : limbVal [] = 0 := rfl

@[simp] theorem limbVal_cons (x : Nat) (xs : List Nat) : limbVal (x :: xs) = x + 256 * limbVal xs := rfl

theorem limbVal_append (xs ys : List Nat) :
    limbVal (xs ++ ys) = limbVal xs + 256 ^ xs.length * limbVal ys := by
  induction xs with
  | nil => simp
  | cons x xs ih => simp [ih, Nat.pow_succ]; ring

theorem limbVal_lt {l : List Nat} (h : LimbsBelow 256 l) : limbVal l < 256 ^ l.length := by
  induction l with
  | nil => simp
  | cons x xs ih =>
    have hx := h x (by simp)
    have := ih fun y hy => h y (by simp [hy])
    simp only [limbVal_cons, List.length_cons, Nat.pow_succ]
    omega

theorem limbVal_take_add_drop (n : Nat) (l : List Nat) (h : n ≤ l.length) :
    limbVal l = limbVal (l.take n) + 256 ^ n * limbVal (l.drop n) := by
  conv_lhs => rw [← List.take_append_drop n l]
  rw [limbVal_append, List.length_take, Nat.min_eq_left h]

/-- The low limbs are the value mod the weight of the first limb dropped, the high ones the quotient. -/
theorem limbVal_take {l : List Nat} (h : LimbsBelow 256 l) (n : Nat) (hn : n ≤ l.length) :
    limbVal (l.take n) = limbVal l % 256 ^ n := by
  have hlt : limbVal (l.take n) < 256 ^ n := by
    have := limbVal_lt (l := l.take n) fun x hx => h x (List.mem_of_mem_take hx)
    rwa [List.length_take, Nat.min_eq_left hn] at this
  rw [limbVal_take_add_drop n l hn, Nat.add_mul_mod_self_left, Nat.mod_eq_of_lt hlt]

theorem limbVal_drop {l : List Nat} (h : LimbsBelow 256 l) (n : Nat) (hn : n ≤ l.length) :
    limbVal (l.drop n) = limbVal l / 256 ^ n := by
  have hlt : limbVal (l.take n) < 256 ^ n := by
    have := limbVal_lt (l := l.take n) fun x hx => h x (List.mem_of_mem_take hx)
    rwa [List.length_take, Nat.min_eq_left hn] at this
  rw [limbVal_take_add_drop n l hn, Nat.add_mul_div_left _ _ (by positivity), Nat.div_eq_of_lt hlt, Nat.zero_add]

/-! limbsOf and padTo. -/

@[simp] theorem limbsOf_length (n x : Nat) : (limbsOf n x).length = n := by
  induction n generalizing x with
  | zero => rfl
  | succ n ih => simp [limbsOf, ih]

theorem limbsOf_below (n x : Nat) : LimbsBelow 256 (limbsOf n x) := by
  induction n generalizing x with
  | zero => exact limbsBelow_nil 256
  | succ n ih =>
    intro y hy
    simp only [limbsOf, List.mem_cons] at hy
    rcases hy with rfl | hy
    · omega
    · exact ih _ y hy

theorem limbVal_limbsOf (n x : Nat) : limbVal (limbsOf n x) = x % 256 ^ n := by
  induction n generalizing x with
  | zero => simp [limbsOf, Nat.mod_one]
  | succ n ih => rw [limbsOf, limbVal_cons, ih, Nat.pow_succ', Nat.mod_mul]

theorem limbsOf_limbVal {l : List Nat} (h : LimbsBelow 256 l) : limbsOf l.length (limbVal l) = l := by
  induction l with
  | nil => rfl
  | cons x xs ih =>
    have hx := h x (by simp)
    simp only [List.length_cons, limbsOf, limbVal_cons]
    rw [show (x + 256 * limbVal xs) % 256 = x by omega, show (x + 256 * limbVal xs) / 256 = limbVal xs by omega,
      ih fun y hy => h y (by simp [hy])]

/-- Limb vectors of one length below 256 with one value are equal. -/
theorem limbVal_inj {a b : List Nat} (ha : LimbsBelow 256 a) (hb : LimbsBelow 256 b) (hl : a.length = b.length)
    (hv : limbVal a = limbVal b) : a = b := by
  rw [← limbsOf_limbVal ha, ← limbsOf_limbVal hb, hl, hv]

@[simp] theorem length_padTo (n : Nat) (l : List Nat) : (padTo n l).length = n := padTo_length n l

theorem padTo_eq_self (l : List Nat) : padTo l.length l = l := by
  induction l with
  | nil => rfl
  | cons x xs ih => simp [padTo, ih]

theorem padTo_of_length {n : Nat} {l : List Nat} (h : l.length = n) : padTo n l = l := by
  subst h; exact padTo_eq_self l

theorem limbVal_padTo {n : Nat} {l : List Nat} (h : l.length ≤ n) : limbVal (padTo n l) = limbVal l := by
  induction n generalizing l with
  | zero => rw [List.eq_nil_of_length_eq_zero (by omega : l.length = 0)]; rfl
  | succ n ih =>
    cases l with
    | nil => simp only [padTo, limbVal_cons, ih (l := []) (by simp), limbVal_nil]
    | cons x xs => simp only [padTo, limbVal_cons, ih (l := xs) (by simpa using h)]

theorem padTo_below {n b : Nat} {l : List Nat} (hb : 0 < b) (h : LimbsBelow b l) : LimbsBelow b (padTo n l) := by
  induction n generalizing l with
  | zero => exact limbsBelow_nil b
  | succ n ih =>
    cases l with
    | nil =>
      intro y hy
      simp only [padTo, List.mem_cons] at hy
      rcases hy with rfl | hy
      · exact hb
      · exact ih (limbsBelow_nil b) y hy
    | cons x xs =>
      intro y hy
      simp only [padTo, List.mem_cons] at hy
      rcases hy with rfl | hy
      · exact h y (by simp)
      · exact ih (fun z hz => h z (by simp [hz])) y hy

theorem getD_padTo {n i : Nat} (l : List Nat) (h : i < n) : (padTo n l).getD i 0 = l.getD i 0 := by
  induction n generalizing l i with
  | zero => omega
  | succ n ih =>
    cases l with
    | nil => cases i with
      | zero => rfl
      | succ i => simpa [padTo] using ih (l := []) (by omega : i < n)
    | cons x xs => cases i with
      | zero => rfl
      | succ i => simpa [padTo] using ih (l := xs) (by omega : i < n)

/-! Vectors at rest. -/

@[simp] theorem limbs_length {n : Nat} (v : Vector Byte n) : (limbs v).length = n := by simp [limbs]

theorem limbs_below {n : Nat} (v : Vector Byte n) : LimbsBelow 256 (limbs v) := by
  intro x hx
  simp only [limbs, List.mem_map] at hx
  obtain ⟨b, -, rfl⟩ := hx
  exact b.isLt

theorem byteLimbs_below (bs : List Byte) : LimbsBelow 256 (byteLimbs bs) := by
  intro x hx
  simp only [byteLimbs, List.mem_map] at hx
  obtain ⟨b, -, rfl⟩ := hx
  exact b.isLt

@[simp] theorem byteLimbs_length (bs : List Byte) : (byteLimbs bs).length = bs.length := by simp [byteLimbs]

theorem getD_limbs {n i : Nat} (v : Vector Byte n) (h : i < n) : (limbs v).getD i 0 = v[i].toNat := by
  simp [limbs, List.getD, h]

/-- Packing working limbs of 8 bits loses nothing. -/
theorem limbs_packLimbs {n : Nat} {l : List Nat} (hl : l.length = n) (h : LimbsBelow 256 l) :
    limbs (packLimbs n l) = l := by
  subst hl
  have e : (packLimbs l.length l).toList = l.map (BitVec.ofNat 8) := by simp [packLimbs, padTo_eq_self]
  rw [limbs, e, List.map_map]
  conv_rhs => rw [← List.map_id l]
  apply List.map_congr_left
  intro x hx
  simp [Nat.mod_eq_of_lt (h x hx)]

theorem getElem_packLimbs {n : Nat} {l : List Nat} (i : Nat) (hi : i < n) :
    (packLimbs n l)[i] = BitVec.ofNat 8 (l.getD i 0) := by
  rw [← getD_padTo l hi]
  have : i < (padTo n l).length := by simpa using hi
  simp [packLimbs, List.getD_eq_getElem?_getD, List.getElem?_eq_getElem this]

theorem getD_byteLimbs (bs : List Byte) (i : Nat) : (byteLimbs bs).getD i 0 = (bs.getD i 0).toNat := by
  simp only [byteLimbs, List.getD_eq_getElem?_getD, List.getElem?_map]
  cases bs[i]? <;> rfl

theorem packLimbs_limbs {n : Nat} (v : Vector Byte n) : packLimbs n (limbs v) = v := by
  apply Vector.toList_inj.1
  have e : (packLimbs n (limbs v)).toList = (limbs v).map (BitVec.ofNat 8) := by
    simp [packLimbs, padTo_of_length (limbs_length v)]
  rw [e, limbs, List.map_map]
  conv_rhs => rw [← List.map_id v.toList]
  apply List.map_congr_left
  intro x _
  simp

theorem vecVal_packLimbs {n : Nat} {l : List Nat} (hl : l.length = n) (h : LimbsBelow 256 l) :
    vecVal (packLimbs n l) = limbVal l := by
  rw [vecVal, limbs_packLimbs hl h]

theorem vecVal_lt {n : Nat} (v : Vector Byte n) : vecVal v < 256 ^ n := by
  have := limbVal_lt (limbs_below v)
  rwa [limbs_length] at this

theorem limbs_inj {n : Nat} {v w : Vector Byte n} (h : limbs v = limbs w) : v = w := by
  rw [← packLimbs_limbs v, ← packLimbs_limbs w, h]

/-- Two vectors at rest with one value are equal. -/
theorem vecVal_inj {n : Nat} {v w : Vector Byte n} (h : vecVal v = vecVal w) : v = w :=
  limbs_inj (limbVal_inj (limbs_below v) (limbs_below w) (by simp) h)

theorem leVal_lt (bs : List Byte) : leVal bs < 256 ^ bs.length := by
  have := limbVal_lt (byteLimbs_below bs)
  rwa [byteLimbs_length] at this

/-! Sums, products, carries. -/

@[simp] theorem addLimbs_nil_right (xs : List Nat) : addLimbs xs [] = xs := by cases xs <;> rfl

@[simp] theorem addLimbs_nil_left (ys : List Nat) : addLimbs [] ys = ys := rfl

theorem limbVal_addLimbs (xs ys : List Nat) : limbVal (addLimbs xs ys) = limbVal xs + limbVal ys := by
  induction xs generalizing ys with
  | nil => simp
  | cons x xs ih =>
    cases ys with
    | nil => simp
    | cons y ys => simp [addLimbs, ih]; ring

@[simp] theorem addLimbs_length (xs ys : List Nat) : (addLimbs xs ys).length = max xs.length ys.length := by
  induction xs generalizing ys with
  | nil => simp
  | cons x xs ih =>
    cases ys with
    | nil => simp
    | cons y ys => simp [addLimbs, ih]

theorem addLimbs_comm (xs ys : List Nat) : addLimbs xs ys = addLimbs ys xs := by
  induction xs generalizing ys with
  | nil => simp
  | cons x xs ih =>
    cases ys with
    | nil => simp
    | cons y ys => simp [addLimbs, ih ys, Nat.add_comm]

theorem addLimbs_assoc (xs ys zs : List Nat) :
    addLimbs (addLimbs xs ys) zs = addLimbs xs (addLimbs ys zs) := by
  induction xs generalizing ys zs with
  | nil => simp
  | cons x xs ih =>
    cases ys with
    | nil => simp
    | cons y ys =>
      cases zs with
      | nil => simp
      | cons z zs => simp [addLimbs, ih, Nat.add_assoc]

theorem getD_addLimbs (xs ys : List Nat) (i : Nat) :
    (addLimbs xs ys).getD i 0 = xs.getD i 0 + ys.getD i 0 := by
  induction xs generalizing ys i with
  | nil => simp
  | cons x xs ih =>
    cases ys with
    | nil => simp
    | cons y ys =>
      cases i with
      | zero => simp [addLimbs]
      | succ i => simpa [addLimbs] using ih ys i

theorem limbVal_scaleLimbs (k : Nat) (xs : List Nat) : limbVal (scaleLimbs k xs) = k * limbVal xs := by
  induction xs with
  | nil => simp [scaleLimbs]
  | cons x xs ih =>
    simp only [scaleLimbs, List.map_cons, limbVal_cons] at *
    rw [ih]; ring

@[simp] theorem scaleLimbs_length (k : Nat) (xs : List Nat) : (scaleLimbs k xs).length = xs.length := by
  simp [scaleLimbs]

theorem getD_scaleLimbs (k : Nat) (xs : List Nat) (i : Nat) : (scaleLimbs k xs).getD i 0 = k * xs.getD i 0 := by
  induction xs generalizing i with
  | nil => simp [scaleLimbs]
  | cons x xs ih =>
    cases i with
    | zero => simp [scaleLimbs]
    | succ i => simpa [scaleLimbs] using ih i

theorem limbVal_convLimbs (xs ys : List Nat) : limbVal (convLimbs xs ys) = limbVal xs * limbVal ys := by
  induction xs with
  | nil => simp [convLimbs]
  | cons x xs ih => simp [convLimbs, limbVal_addLimbs, limbVal_scaleLimbs, ih]; ring

theorem convLimbs_length (x : Nat) (xs ys : List Nat) (h : ys ≠ []) :
    (convLimbs (x :: xs) ys).length = xs.length + ys.length := by
  have hy : 0 < ys.length := List.length_pos_iff.2 h
  induction xs generalizing x with
  | nil => simp [convLimbs]; omega
  | cons a as ih => rw [convLimbs, addLimbs_length, List.length_cons, ih a]; simp; omega

/-- A convolution of a vectors limbs below 256 with limbs below 256 has limbs of at most 255² times the number of rows. -/
theorem getD_convLimbs_le {xs ys : List Nat} (hx : LimbsBelow 256 xs) (hy : LimbsBelow 256 ys) (i : Nat) :
    (convLimbs xs ys).getD i 0 ≤ xs.length * 65025 := by
  induction xs generalizing i with
  | nil => simp [convLimbs]
  | cons x xs ih =>
    have hx' : x ≤ 255 := by have := hx x (by simp); omega
    have hyi : ys.getD i 0 ≤ 255 := by
      by_cases h : i < ys.length
      · have := hy ys[i] (List.getElem_mem h)
        simp only [List.getD_eq_getElem?_getD, List.getElem?_eq_getElem h, Option.getD_some]; omega
      · simp [List.getD_eq_getElem?_getD, List.getElem?_eq_none (by omega : ys.length ≤ i)]
    have hmul : x * ys.getD i 0 ≤ 65025 := by
      calc x * ys.getD i 0 ≤ 255 * 255 := Nat.mul_le_mul hx' hyi
        _ = 65025 := rfl
    rw [convLimbs, getD_addLimbs, getD_scaleLimbs, List.length_cons]
    cases i with
    | zero => simp only [List.getD_cons_zero]; omega
    | succ i =>
      have := ih (fun y h => hx y (by simp [h])) i
      simp only [List.getD_cons_succ]; omega

@[simp] theorem carryLimbs_length (c : Nat) (l : List Nat) : (carryLimbs c l).length = l.length := by
  induction l generalizing c with
  | nil => rfl
  | cons x xs ih =>
    cases xs with
    | nil => rfl
    | cons y ys => rw [carryLimbs, List.length_cons, ih]; rfl

theorem limbVal_carryLimbs (c : Nat) {l : List Nat} (h : l ≠ []) :
    limbVal (carryLimbs c l) = limbVal l + c := by
  induction l generalizing c with
  | nil => exact absurd rfl h
  | cons x xs ih =>
    cases xs with
    | nil => simp [carryLimbs]
    | cons y ys =>
      rw [carryLimbs, limbVal_cons, ih _ (by simp), limbVal_cons (x := x)]
      omega

/-- Every limb but the last keeps 8 bits. -/
theorem carryLimbs_dropLast_below (c : Nat) (l : List Nat) : LimbsBelow 256 (carryLimbs c l).dropLast := by
  induction l generalizing c with
  | nil => exact limbsBelow_nil 256
  | cons x xs ih =>
    cases xs with
    | nil => exact limbsBelow_nil 256
    | cons y ys =>
      intro z hz
      rw [carryLimbs] at hz
      have hne : carryLimbs ((x + c) / 256) (y :: ys) ≠ [] := by
        intro h
        have := carryLimbs_length ((x + c) / 256) (y :: ys)
        rw [h] at this; simp at this
      rw [List.dropLast_cons_of_ne_nil hne, List.mem_cons] at hz
      rcases hz with rfl | hz
      · omega
      · exact ih _ z hz

/-! The borrow chain. -/

@[simp] theorem borrowLimbs_length (bo : Nat) (a b : List Nat) : (borrowLimbs bo a b).1.length = a.length := by
  induction a generalizing bo b with
  | nil => rfl
  | cons x xs ih => simp [borrowLimbs, ih]

theorem borrowLimbs_borrow_le (bo : Nat) (a b : List Nat) (h : bo ≤ 1) : (borrowLimbs bo a b).2 ≤ 1 := by
  induction a generalizing bo b with
  | nil => simpa [borrowLimbs] using h
  | cons x xs ih =>
    simp only [borrowLimbs]
    apply ih
    split <;> omega

/-- The difference of two limb vectors: `val(t) = val(a) − val(b) − bo + 256^n·borrow`, every limb 8 bits. -/
theorem borrowLimbs_spec {a b : List Nat} {bo : Nat} (ha : LimbsBelow 256 a) (hb : LimbsBelow 256 b)
    (hl : b.length = a.length) (hbo : bo ≤ 1) :
    LimbsBelow 256 (borrowLimbs bo a b).1 ∧
      limbVal (borrowLimbs bo a b).1 + limbVal b + bo =
        limbVal a + 256 ^ a.length * (borrowLimbs bo a b).2 := by
  induction a generalizing bo b with
  | nil =>
    have : b = [] := List.eq_nil_of_length_eq_zero (by simpa using hl)
    subst this
    exact ⟨limbsBelow_nil 256, by simp [borrowLimbs]⟩
  | cons x xs ih =>
    cases b with
    | nil => simp at hl
    | cons y ys =>
      have hx := ha x (by simp)
      have hy := hb y (by simp)
      have hxs : LimbsBelow 256 xs := fun z hz => ha z (by simp [hz])
      have hys : LimbsBelow 256 ys := fun z hz => hb z (by simp [hz])
      simp only [borrowLimbs, List.headD_cons, List.tail_cons, List.length_cons, limbVal_cons]
      by_cases hd : ((x : Int) - (y : Nat) - bo) < 0
      · simp only [hd, if_true]
        obtain ⟨h1, h2⟩ := ih (b := ys) (bo := 1) hxs hys (by simpa using hl) (by omega)
        refine ⟨?_, ?_⟩
        · intro z hz
          simp only [List.mem_cons] at hz
          rcases hz with rfl | hz
          · omega
          · exact h1 z hz
        · have : ((x : Int) - (y : Nat) - bo + 256 * ((1 : Nat) : Int)).toNat = x + 256 - y - bo := by omega
          rw [this, Nat.pow_succ]
          have e : 256 ^ xs.length * 256 * (borrowLimbs 1 xs ys).2 = 256 * (256 ^ xs.length * (borrowLimbs 1 xs ys).2) := by ring
          omega
      · simp only [hd, if_false]
        obtain ⟨h1, h2⟩ := ih (b := ys) (bo := 0) hxs hys (by simpa using hl) (by omega)
        refine ⟨?_, ?_⟩
        · intro z hz
          simp only [List.mem_cons] at hz
          rcases hz with rfl | hz
          · omega
          · exact h1 z hz
        · have : ((x : Int) - (y : Nat) - bo + 256 * ((0 : Nat) : Int)).toNat = x - y - bo := by omega
          rw [this, Nat.pow_succ]
          have e : 256 ^ xs.length * 256 * (borrowLimbs 0 xs ys).2 = 256 * (256 ^ xs.length * (borrowLimbs 0 xs ys).2) := by ring
          omega

/-! One limb replaced. -/

theorem limbVal_set {l : List Nat} {i : Nat} (h : i < l.length) (y : Nat) :
    limbVal (l.set i y) + 256 ^ i * l.getD i 0 = limbVal l + 256 ^ i * y := by
  induction l generalizing i with
  | nil => simp at h
  | cons x xs ih =>
    cases i with
    | zero => simp; omega
    | succ i =>
      have := ih (i := i) (by simpa using h)
      simp only [List.set_cons_succ, limbVal_cons, List.getD_cons_succ, Nat.pow_succ]
      have e1 : 256 ^ i * 256 * xs.getD i 0 = 256 * (256 ^ i * xs.getD i 0) := by ring
      have e2 : 256 ^ i * 256 * y = 256 * (256 ^ i * y) := by ring
      omega

end Sys2Proof.Machine
end

