-- ==== Sys2Proof/Laws/Reduce.lean ====
section
/-! SUPPORT. The carry-propagation pass (spec/40_field_element.md R102 to R104): its exact value, its fixed points, and
that the passes after an addition, a subtraction and a multiplication end in INV-FE. -/

namespace Sys2Proof.Machine

/-- 32 limbs of 8 bits whose value is below 2^255: INV-FE as a statement about working limbs. -/
structure Reduced (l : List Nat) : Prop where
  length : l.length = 32
  below : LimbsBelow 256 l
  value : limbVal l < 2 ^ 255

/-- 32 limbs of which all but the last are below 256: what every pass leaves (R102). -/
structure Carried (l : List Nat) : Prop where
  length : l.length = 32
  low : LimbsBelow 256 l.dropLast

theorem Reduced.carried {l : List Nat} (h : Reduced l) : Carried l :=
  ⟨h.length, fun x hx => h.below x (List.mem_of_mem_dropLast hx)⟩

/-- A 32-limb vector is its first 31 limbs and its last. -/
theorem limbVal_split {l : List Nat} (h : l.length = 32) :
    limbVal l = limbVal l.dropLast + 256 ^ 31 * l.getD 31 0 := by
  have hne : l ≠ [] := by intro e; simp [e] at h
  have hlast : l.getLast hne = l.getD 31 0 := by
    rw [List.getLast_eq_getElem]
    simp [List.getD_eq_getElem?_getD, h]
  have hd : l.dropLast.length = 31 := by simp [h]
  conv_lhs => rw [← List.dropLast_append_getLast hne, limbVal_append, hd, hlast]
  simp

theorem Carried.low_lt {l : List Nat} (h : Carried l) : limbVal l.dropLast < 256 ^ 31 := by
  have := limbVal_lt h.low
  rwa [List.length_dropLast, h.length] at this

/-- The part of a carried vector at weight 2^255 and above is its value divided by 2^255. -/
theorem Carried.top {l : List Nat} (h : Carried l) : l.getD 31 0 / 128 = limbVal l / 2 ^ 255 := by
  have h1 := limbVal_split h.length
  have h2 := h.low_lt
  have e : (2 : Nat) ^ 255 = 256 ^ 31 * 128 := by norm_num
  rw [h1, e, ← Nat.div_div_eq_div_mul, Nat.add_mul_div_left _ _ (by positivity), Nat.div_eq_of_lt h2, Nat.zero_add]

/-- A carried vector whose value is below 2^255 is reduced. -/
theorem Carried.reduced {l : List Nat} (h : Carried l) (hv : limbVal l < 2 ^ 255) : Reduced l := by
  refine ⟨h.length, ?_, hv⟩
  have hne : l ≠ [] := by intro e; have := h.length; simp [e] at this
  have hlast : l.getLast hne = l.getD 31 0 := by
    rw [List.getLast_eq_getElem]
    simp [List.getD_eq_getElem?_getD, h.length]
  have h1 := limbVal_split h.length
  have hl : l.getD 31 0 < 128 := by
    by_contra hc
    have : 256 ^ 31 * 128 ≤ 256 ^ 31 * l.getD 31 0 := Nat.mul_le_mul_left _ (by omega)
    have e : (2 : Nat) ^ 255 = 256 ^ 31 * 128 := by norm_num
    omega
  intro x hx
  rw [← List.dropLast_append_getLast hne, List.mem_append, List.mem_singleton, hlast] at hx
  rcases hx with hx | rfl
  · exact h.low x hx
  · omega

/-! One pass. -/

@[simp] theorem fePass_length (v : List Nat) : (fePass v).length = v.length := by simp [fePass]

theorem fieldP_pos : 0 < fieldP := by decide

theorem fieldP_add : fieldP + 19 = 2 ^ 255 := by decide

/-- R102: "Exactly, as integers: val(w) = val(v) − t·p". -/
theorem limbVal_fePass {v : List Nat} (h : v.length = 32) :
    limbVal (fePass v) + v.getD 31 0 / 128 * fieldP = limbVal v := by
  have hne : ((v.set 31 (v.getD 31 0 % 128)).set 0 (v.getD 0 0 + 19 * (v.getD 31 0 / 128))) ≠ [] := by
    intro e
    have := congrArg List.length e
    simp [h] at this
  simp only [fePass]
  rw [limbVal_carryLimbs 0 hne]
  have h1 := limbVal_set (l := v.set 31 (v.getD 31 0 % 128)) (i := 0) (by simp [h])
    (v.getD 0 0 + 19 * (v.getD 31 0 / 128))
  have h2 := limbVal_set (l := v) (i := 31) (by omega) (v.getD 31 0 % 128)
  have h0 : (v.set 31 (v.getD 31 0 % 128)).getD 0 0 = v.getD 0 0 := by
    simp [List.getD_eq_getElem?_getD]
  rw [h0] at h1
  have hp := fieldP_add
  have e : v.getD 31 0 / 128 * fieldP + v.getD 31 0 / 128 * 19 = v.getD 31 0 / 128 * 2 ^ 255 := by
    rw [← Nat.mul_add, hp]
  have hm := Nat.div_add_mod (v.getD 31 0) 128
  generalize v.getD 31 0 / 128 = t at *
  generalize v.getD 31 0 % 128 = r at *
  generalize v.getD 31 0 = x at *
  have : (2 : Nat) ^ 255 = 256 ^ 31 * 128 := by norm_num
  rw [this] at e
  subst hm
  have e2 : 256 ^ 31 * (128 * t + r) = t * (256 ^ 31 * 128) + 256 ^ 31 * r := by ring
  omega

/-- R102: "and `w[0..30]` are in [0, 255]". -/
theorem fePass_carried {v : List Nat} (h : v.length = 32) : Carried (fePass v) :=
  ⟨by simp [h], carryLimbs_dropLast_below 0 _⟩

/-- On a vector that a pass has left, a pass folds the part above 2^255. -/
theorem limbVal_fePass_carried {v : List Nat} (h : Carried v) :
    limbVal (fePass v) = limbVal v % 2 ^ 255 + 19 * (limbVal v / 2 ^ 255) := by
  have h1 := limbVal_fePass h.length
  rw [h.top] at h1
  have hp := fieldP_add
  have hm := Nat.div_add_mod (limbVal v) (2 ^ 255)
  have e : limbVal v / 2 ^ 255 * fieldP + limbVal v / 2 ^ 255 * 19 = 2 ^ 255 * (limbVal v / 2 ^ 255) := by
    rw [← Nat.mul_add, hp, Nat.mul_comm]
  omega

/-- R104 (a): a pass leaves a reduced vector as it is. -/
theorem fePass_reduced {v : List Nat} (h : Reduced v) : fePass v = v := by
  have h1 := limbVal_fePass_carried h.carried
  rw [Nat.mod_eq_of_lt h.value, Nat.div_eq_of_lt h.value] at h1
  have h2 := (fePass_carried h.length).reduced (by have := h.value; omega)
  exact limbVal_inj h2.below h.below (by simp) (by omega)

/-- R104 (b): a carried vector whose last limb is at most 254 is reduced after one pass. -/
theorem fePass_closes {v : List Nat} (h : Carried v) (hv : limbVal v < 255 * 256 ^ 31) : Reduced (fePass v) := by
  refine (fePass_carried h.length).reduced ?_
  rw [limbVal_fePass_carried h]
  norm_num at hv ⊢
  omega

/-! Several passes. -/

theorem feReduce_reduced {v : List Nat} (h : Reduced v) (n : Nat) : feReduce v n = v := by
  induction n with
  | zero => rfl
  | succ n ih => rw [feReduce, fePass_reduced h, ih]

/-- The value of limbs bounded by B. -/
theorem limbVal_le {B : Nat} {l : List Nat} (h : ∀ x ∈ l, x ≤ B) : 255 * limbVal l + B ≤ B * 256 ^ l.length := by
  induction l with
  | nil => simp
  | cons x xs ih =>
    have hx := h x (by simp)
    have := ih fun y hy => h y (by simp [hy])
    simp only [limbVal_cons, List.length_cons, Nat.pow_succ]
    have e : B * (256 ^ xs.length * 256) = 256 * (B * 256 ^ xs.length) := by ring
    omega

/-- The value after the first pass, from bounds on the limbs before it. -/
theorem limbVal_fePass_le {B : Nat} {v : List Nat} (h : v.length = 32) (hb : ∀ x ∈ v, x ≤ B) :
    255 * limbVal (fePass v) ≤ B * 256 ^ 31 + 255 * (127 * 256 ^ 31) + 255 * (19 * (B / 128)) := by
  have h1 := limbVal_fePass h
  have h2 := limbVal_split h
  have h3 := limbVal_le (B := B) (l := v.dropLast) fun x hx => hb x (List.mem_of_mem_dropLast hx)
  rw [List.length_dropLast, h] at h3
  have h31 : v.getD 31 0 ≤ B := by
    have hm : v[31]'(by omega) ∈ v := List.getElem_mem _
    have := hb _ hm
    simpa [List.getD_eq_getElem?_getD, h] using this
  have ht : v.getD 31 0 / 128 ≤ B / 128 := Nat.div_le_div_right h31
  have hm := Nat.div_add_mod (v.getD 31 0) 128
  have hr := Nat.mod_lt (v.getD 31 0) (by norm_num : 0 < 128)
  have hp := fieldP_add
  have e : v.getD 31 0 / 128 * fieldP + v.getD 31 0 / 128 * 19 = v.getD 31 0 / 128 * 2 ^ 255 := by
    rw [← Nat.mul_add, hp]
  generalize v.getD 31 0 / 128 = t at *
  generalize v.getD 31 0 % 128 = r at *
  generalize v.getD 31 0 = x at *
  generalize B / 128 = T at *
  have : (2 : Nat) ^ 255 = 256 ^ 31 * 128 := by norm_num
  rw [this] at e
  subst hm
  have e2 : 256 ^ 31 * (128 * t + r) = t * (256 ^ 31 * 128) + 256 ^ 31 * r := by ring
  have e3 : 256 ^ 31 * r ≤ 127 * 256 ^ 31 := by rw [Nat.mul_comm]; exact Nat.mul_le_mul_right _ (by omega)
  have e4 : (32 : Nat) - 1 = 31 := rfl
  rw [e4] at h3
  omega

/-- The value of a vector is kept mod p by any number of passes. -/
theorem limbVal_feReduce (v : List Nat) (h : v.length = 32) (n : Nat) :
    ((limbVal (feReduce v n) : Nat) : ZMod fieldP) = (limbVal v : Nat) := by
  induction n generalizing v with
  | zero => rfl
  | succ n ih =>
    rw [feReduce, ih _ (by simp [h])]
    have := limbVal_fePass h
    conv_rhs => rw [← this]
    simp

theorem feReduce_length (v : List Nat) (n : Nat) : (feReduce v n).length = v.length := by
  induction n generalizing v with
  | zero => rfl
  | succ n ih => rw [feReduce, ih]; simp

/-- R104 (c), (d): four passes after an addition or a subtraction of INV-FE operands end in INV-FE. -/
theorem feReduce_four {v : List Nat} (h : v.length = 32) (hb : ∀ x ∈ v, x ≤ 765) : Reduced (feReduce v 4) := by
  have h1 := limbVal_fePass_le h hb
  have h2 : Reduced (fePass (fePass v)) := by
    refine fePass_closes (fePass_carried h) ?_
    norm_num at h1 ⊢
    omega
  have : feReduce v 4 = feReduce (fePass (fePass v)) 2 := rfl
  rw [this, feReduce_reduced h2]
  exact h2

/-- R104 (e): three passes after a multiplication of INV-FE operands end in INV-FE. -/
theorem feReduce_three {v : List Nat} (h : v.length = 32) (hb : ∀ x ∈ v, x ≤ 81151200) : Reduced (feReduce v 3) := by
  have h1 := limbVal_fePass_le h hb
  have hc := fePass_carried h
  have h2 := limbVal_fePass_carried hc
  have h3 : Reduced (fePass (fePass (fePass v))) := by
    refine fePass_closes (fePass_carried (by simp [h])) ?_
    rw [h2]
    norm_num at h1 ⊢
    omega
  exact h3

end Sys2Proof.Machine
end

