-- ==== Sys2Proof/Laws/FieldElement.lean ====
section
/-! SUPPORT. The value laws of the FE unit (spec/40_field_element.md R121): every function keeps INV-FE and computes its
operation on residues. -/

namespace Sys2Proof.Machine

theorem feInv_iff (v : Fe) : feInv v ↔ vecVal v < 2 ^ 255 := by
  have h := limbVal_split (l := limbs v) (by simp)
  have h31 := getD_limbs v (i := 31) (by omega)
  have hlow : limbVal (limbs v).dropLast < 256 ^ 31 := by
    have := limbVal_lt (l := (limbs v).dropLast) fun x hx => limbs_below v x (List.mem_of_mem_dropLast hx)
    simpa using this
  rw [h31] at h
  have e : (2 : Nat) ^ 255 = 256 ^ 31 * 128 := by norm_num
  show v[31].toNat ≤ 127 ↔ limbVal (limbs v) < 2 ^ 255
  rw [h, e]
  constructor
  · intro hv
    have : 256 ^ 31 * v[31].toNat ≤ 256 ^ 31 * 127 := Nat.mul_le_mul_left _ hv
    omega
  · intro hv
    by_contra hc
    have : 256 ^ 31 * 128 ≤ 256 ^ 31 * v[31].toNat := Nat.mul_le_mul_left _ (by omega)
    omega

theorem reduced_limbs {v : Fe} (h : feInv v) : Reduced (limbs v) :=
  ⟨limbs_length v, limbs_below v, (feInv_iff v).1 h⟩

theorem Reduced.limbs_pack {l : List Nat} (h : Reduced l) : limbs (packLimbs 32 l) = l :=
  limbs_packLimbs h.length h.below

theorem Reduced.vecVal_pack {l : List Nat} (h : Reduced l) : vecVal (packLimbs 32 l) = limbVal l :=
  vecVal_packLimbs h.length h.below

theorem Reduced.inv_pack {l : List Nat} (h : Reduced l) : feInv (packLimbs 32 l) := by
  rw [feInv_iff, h.vecVal_pack]; exact h.value

theorem feInv_zero : feInv feZero := by decide

theorem feInv_one : feInv feOne := by decide

theorem vecVal_zero : vecVal feZero = 0 := by decide

theorem vecVal_one : vecVal feOne = 1 := by decide

@[simp] theorem feRes_zero : feRes feZero = 0 := by rw [feRes, vecVal_zero]; simp

@[simp] theorem feRes_one : feRes feOne = 1 := by rw [feRes, vecVal_one]; simp

/-! Addition, subtraction, multiplication. -/

theorem limb_le {v : Fe} {x : Nat} (h : x ∈ limbs v) : x ≤ 255 := by have := limbs_below v x h; omega

theorem getD_limbs_le (v : Fe) (i : Nat) : (limbs v).getD i 0 ≤ 255 := by
  by_cases h : i < 32
  · rw [getD_limbs v h]; have := v[i].isLt; omega
  · simp [List.getD_eq_getElem?_getD, List.getElem?_eq_none (by simp; omega : (limbs v).length ≤ i)]

/-- A bound on every position bounds every limb. -/
theorem limb_bound {l : List Nat} {B : Nat} (h : ∀ i, l.getD i 0 ≤ B) : ∀ x ∈ l, x ≤ B := by
  intro x hx
  obtain ⟨i, hi, rfl⟩ := List.getElem_of_mem hx
  have := h i
  simpa [List.getD_eq_getElem?_getD, hi] using this

theorem reduced_add (x y : Fe) : Reduced (feReduce (addLimbs (limbs x) (limbs y)) 4) := by
  refine feReduce_four (by simp) (limb_bound fun i => ?_)
  rw [getD_addLimbs]
  have := getD_limbs_le x i
  have := getD_limbs_le y i
  omega

theorem feInv_add (x y : Fe) : feInv (feAdd x y) := (reduced_add x y).inv_pack

theorem feRes_add (x y : Fe) : feRes (feAdd x y) = feRes x + feRes y := by
  rw [feRes, feAdd, (reduced_add x y).vecVal_pack, limbVal_feReduce _ (by simp), limbVal_addLimbs]
  simp [feRes, vecVal]

theorem limbVal_twoP : limbVal twoPLimbs = 2 * fieldP := by decide

theorem twoP_getD_le (i : Nat) (h : i < 32) : twoPLimbs.getD i 0 ≤ 510 := by
  revert h i
  decide

theorem twoP_getD (i : Nat) (h : i < 31) : 474 ≤ twoPLimbs.getD i 0 := by
  revert h i
  decide

theorem zipWith_sub_val {a b : List Nat} (hl : b.length = a.length) (h : ∀ i, b.getD i 0 ≤ a.getD i 0) :
    limbVal (List.zipWith (· - ·) a b) + limbVal b = limbVal a := by
  induction a generalizing b with
  | nil =>
    rw [List.eq_nil_of_length_eq_zero (by simpa using hl : b.length = 0)]
    rfl
  | cons x xs ih =>
    cases b with
    | nil => simp at hl
    | cons y ys =>
      have h0 := h 0
      have := ih (b := ys) (by simpa using hl) fun i => by simpa using h (i + 1)
      simp only [List.getD_cons_zero] at h0
      simp only [List.zipWith_cons_cons, limbVal_cons]
      omega

theorem subLimbs_length (x y : Fe) : (subLimbs (limbs x) (limbs y)).length = 32 := by
  simp [subLimbs, twoPLimbs]

theorem subLimbs_le (x y : Fe) : ∀ u ∈ subLimbs (limbs x) (limbs y), u ≤ 765 := by
  intro u hu
  rw [subLimbs, List.mem_iff_getElem] at hu
  obtain ⟨i, hi, rfl⟩ := hu
  rw [List.getElem_zipWith]
  have h1 : (addLimbs (limbs x) twoPLimbs).getD i 0 ≤ 765 := by
    rw [getD_addLimbs]
    have := getD_limbs_le x i
    have h2 : twoPLimbs.getD i 0 ≤ 510 := by
      by_cases hi' : i < 32
      · exact twoP_getD_le i hi'
      · simp [List.getD_eq_getElem?_getD, List.getElem?_eq_none (by simp [twoPLimbs]; omega : twoPLimbs.length ≤ i)]
    omega
  have h3 : i < (addLimbs (limbs x) twoPLimbs).length := by simp [twoPLimbs] at hi ⊢; omega
  simp only [List.getD_eq_getElem?_getD, List.getElem?_eq_getElem h3, Option.getD_some] at h1
  omega

/-- R104 (d): no limb difference of a subtraction is negative, for a subtrahend that satisfies INV-FE. -/
theorem subLimbs_nonneg (x : Fe) {y : Fe} (hy : feInv y) (i : Nat) :
    (limbs y).getD i 0 ≤ (addLimbs (limbs x) twoPLimbs).getD i 0 := by
  rw [getD_addLimbs]
  have h1 := getD_limbs_le y i
  by_cases h31 : i < 31
  · have := twoP_getD i h31; omega
  · by_cases h : i = 31
    · subst h
      rw [getD_limbs y (by omega)]
      have : twoPLimbs.getD 31 0 = 254 := by decide
      have : y[31].toNat ≤ 127 := hy
      omega
    · have : (limbs y).getD i 0 = 0 := by
        simp [List.getD_eq_getElem?_getD, List.getElem?_eq_none (by simp; omega : (limbs y).length ≤ i)]
      omega

theorem limbVal_subLimbs (x : Fe) {y : Fe} (hy : feInv y) :
    limbVal (subLimbs (limbs x) (limbs y)) + vecVal y = vecVal x + 2 * fieldP := by
  have := zipWith_sub_val (a := addLimbs (limbs x) twoPLimbs) (b := limbs y) (by simp [twoPLimbs])
    (subLimbs_nonneg x hy)
  rw [limbVal_addLimbs, limbVal_twoP] at this
  exact this

theorem reduced_sub (x y : Fe) : Reduced (feReduce (subLimbs (limbs x) (limbs y)) 4) :=
  feReduce_four (subLimbs_length x y) (subLimbs_le x y)

theorem feInv_sub (x y : Fe) : feInv (feSub x y) := (reduced_sub x y).inv_pack

theorem feRes_sub (x : Fe) {y : Fe} (hy : feInv y) : feRes (feSub x y) = feRes x - feRes y := by
  rw [feRes, feSub, (reduced_sub x y).vecVal_pack, limbVal_feReduce _ (subLimbs_length x y)]
  have h := congrArg (Nat.cast (R := ZMod fieldP)) (limbVal_subLimbs x hy)
  simp only [Nat.cast_add, Nat.cast_mul, ZMod.natCast_self, mul_zero, add_zero] at h
  rw [feRes, feRes, ← h]
  ring

theorem conv_length (x y : Fe) : (convLimbs (limbs x) (limbs y)).length = 63 := by
  have hx := limbs_length x
  have hy := limbs_length y
  generalize limbs x = a at *
  generalize limbs y = b at *
  cases a with
  | nil => simp at hx
  | cons c cs =>
    rw [convLimbs_length c cs b (by intro e; simp [e] at hy)]
    simp at hx; omega

theorem fold_length (x y : Fe) : (foldLimbs (convLimbs (limbs x) (limbs y))).length = 32 := by
  simp [foldLimbs, conv_length]

theorem getD_take_le (l : List Nat) (n i : Nat) : (l.take n).getD i 0 ≤ l.getD i 0 := by
  by_cases h : i < n
  · simp [List.getD_eq_getElem?_getD, h]
  · simp [List.getD_eq_getElem?_getD, h]

theorem getD_drop (l : List Nat) (n i : Nat) : (l.drop n).getD i 0 = l.getD (n + i) 0 := by
  simp [List.getD_eq_getElem?_getD, List.getElem?_drop]

theorem fold_le (x y : Fe) : ∀ u ∈ foldLimbs (convLimbs (limbs x) (limbs y)), u ≤ 81151200 := by
  refine limb_bound fun i => ?_
  have hb := fun i => getD_convLimbs_le (limbs_below x) (limbs_below y) i
  simp only [limbs_length] at hb
  rw [foldLimbs, getD_addLimbs, getD_scaleLimbs, getD_drop]
  have h1 := getD_take_le (convLimbs (limbs x) (limbs y)) 32 i
  have h2 := hb i
  have h3 := hb (32 + i)
  omega

theorem reduced_mul (x y : Fe) : Reduced (feReduce (foldLimbs (convLimbs (limbs x) (limbs y))) 3) :=
  feReduce_three (fold_length x y) (fold_le x y)

theorem feInv_mul (x y : Fe) : feInv (feMul x y) := (reduced_mul x y).inv_pack

/-- The identity 2^256 ≡ 38 (R100). -/
theorem two_pow_256 : ((256 ^ 32 : Nat) : ZMod fieldP) = 38 := by
  have h : (256 ^ 32 : Nat) = 2 * fieldP + 38 := by decide
  rw [h]
  simp

theorem foldLimbs_val (t : List Nat) (h : 32 ≤ t.length) :
    ((limbVal (foldLimbs t) : Nat) : ZMod fieldP) = (limbVal t : Nat) := by
  rw [foldLimbs, limbVal_addLimbs, limbVal_scaleLimbs, limbVal_take_add_drop 32 t h]
  push_cast
  have := two_pow_256
  push_cast at this
  rw [this]

theorem feRes_mul (x y : Fe) : feRes (feMul x y) = feRes x * feRes y := by
  rw [feRes, feMul, (reduced_mul x y).vecVal_pack, limbVal_feReduce _ (fold_length x y),
    foldLimbs_val _ (by rw [conv_length]; omega), limbVal_convLimbs]
  simp [feRes, vecVal]

theorem feInv_square (x : Fe) : feInv (feSquare x) := feInv_mul x x

theorem feRes_square (x : Fe) : feRes (feSquare x) = feRes x ^ 2 := by rw [feSquare, feRes_mul, sq]

theorem feRes_neg {x : Fe} (hx : feInv x) : feRes (feNeg x) = -feRes x := by
  rw [feNeg, feRes_sub _ hx, feRes_zero, zero_sub]

theorem feInv_neg (x : Fe) : feInv (feNeg x) := feInv_sub _ x

/-! Powers. -/

theorem feRes_sqn (x : Fe) (n : Nat) : feRes (feSqn x n) = feRes x ^ 2 ^ n := by
  induction n generalizing x with
  | zero => simp [feSqn]
  | succ n ih => rw [feSqn, ih, feRes_square, ← pow_mul, pow_succ']

/-- R112: the chain's first result is x^(2^250 − 1). -/
theorem feRes_chain_fst (x : Fe) : feRes (feChain250 x).1 = feRes x ^ (2 ^ 250 - 1) := by
  simp only [feChain250, feRes_mul, feRes_sqn, feRes_square, ← pow_mul, ← pow_succ, ← pow_add]
  norm_num

/-- R112: the chain's second result is x^11. -/
theorem feRes_chain_snd (x : Fe) : feRes (feChain250 x).2 = feRes x ^ 11 := by
  simp only [feChain250, feRes_mul, feRes_sqn, feRes_square, ← pow_mul, ← pow_succ, ← pow_add]
  norm_num

theorem feInv_invert (x : Fe) : feInv (feInvert x) := feInv_mul _ _

/-- R113: x^(p − 2). -/
theorem feRes_invert (x : Fe) : feRes (feInvert x) = feRes x ^ (fieldP - 2) := by
  rw [feInvert, feRes_mul, feRes_sqn, feRes_chain_fst, feRes_chain_snd, ← pow_mul, ← pow_add]
  norm_num [fieldP]

theorem feInv_pow2523 (x : Fe) : feInv (fePow2523 x) := feInv_mul _ _

/-- R114: x^((p − 5)/8). -/
theorem feRes_pow2523 (x : Fe) : feRes (fePow2523 x) = feRes x ^ ((fieldP - 5) / 8) := by
  rw [fePow2523, feRes_mul, feRes_sqn, feRes_chain_fst, ← pow_mul, ← pow_succ]
  norm_num [fieldP]

/-! Canonical form. -/

theorem limbVal_pLimbs : limbVal pLimbs = fieldP := by decide

theorem limb_list {l : List Nat} (h : l.length = 32) :
    l = l.getD 0 0 :: ((l.drop 1).take 30 ++ [l.getD 31 0]) := by
  cases l with
  | nil => simp at h
  | cons x xs =>
    have h' : xs.length = 31 := by simpa using h
    simp only [List.getD_cons_zero, List.drop_one, List.tail_cons, List.getD_cons_succ, List.cons.injEq, true_and]
    have hd : xs.drop 30 = [xs.getD 30 0] := by
      rw [List.drop_eq_getElem_cons (by omega : 30 < xs.length), List.drop_eq_nil_of_le (by omega)]
      simp [List.getD_eq_getElem?_getD, h']
    conv_lhs => rw [← List.take_append_drop 30 xs, hd]

/-- R115: the condition m = 1 is exactly `val(v) ≥ p`. -/
theorem feAtLeastP_iff {v : List Nat} (h : Reduced v) : feAtLeastP v = true ↔ fieldP ≤ limbVal v := by
  have hl := limb_list h.length
  have hmid : ((v.drop 1).take 30).length = 30 := by simp [h.length]
  have hb : ∀ x ∈ (v.drop 1).take 30, x ≤ 255 := fun x hx => by
    have := h.below x (List.mem_of_mem_drop (List.mem_of_mem_take hx)); omega
  have hval : limbVal v = v.getD 0 0 + 256 * (limbVal ((v.drop 1).take 30) + 256 ^ 30 * v.getD 31 0) := by
    conv_lhs => rw [hl]
    rw [limbVal_cons, limbVal_append, hmid]; simp
  have h0 : v.getD 0 0 ≤ 255 := by
    have : v.getD 0 0 ∈ v := by rw [hl]; simp
    have := h.below _ this; omega
  have hp : fieldP = 2 ^ 255 - 19 := rfl
  have hv := h.value
  have hm := limbVal_le hb
  rw [hmid] at hm
  have key : (fieldP ≤ limbVal v ↔
      v.getD 31 0 = 127 ∧ limbVal ((v.drop 1).take 30) = 256 ^ 30 - 1 ∧ 237 ≤ v.getD 0 0) := by
    rw [hval] at hv ⊢
    rw [hp]
    generalize v.getD 0 0 = a at *
    generalize v.getD 31 0 = b at *
    generalize limbVal ((v.drop 1).take 30) = c at *
    norm_num at hv hm ⊢
    omega
  have hmv : (∀ x ∈ (v.drop 1).take 30, x = 255) ↔ limbVal ((v.drop 1).take 30) = 256 ^ 30 - 1 := by
    have e2 : limbVal (List.replicate 30 255) = 256 ^ 30 - 1 := by decide
    constructor
    · intro hall
      rw [List.eq_replicate_iff.2 ⟨hmid, hall⟩, e2]
    · intro e
      have : (v.drop 1).take 30 = List.replicate 30 255 := by
        refine limbVal_inj (fun x hx => by have := hb x hx; omega) (fun x hx => ?_) (by rw [hmid]; rfl) (by rw [e, e2])
        rw [List.eq_of_mem_replicate hx]; omega
      rw [this]
      exact fun x hx => List.eq_of_mem_replicate hx
  rw [key, ← hmv]
  simp only [feAtLeastP, Bool.and_eq_true, beq_iff_eq, decide_eq_true_eq, List.all_eq_true]
  tauto

/-- R115: "`fe_freeze(v) = limbs_32(val(v) mod p)` for every INV-FE vector". -/
theorem vecVal_freeze {x : Fe} (h : feInv x) : vecVal (feFreeze x) = vecVal x % fieldP := by
  have hr := reduced_limbs h
  have hv : limbVal (limbs x) < 2 ^ 255 := hr.value
  show vecVal (packLimbs 32 (if feAtLeastP (limbs x) then List.zipWith (· - ·) (limbs x) pLimbs else limbs x)) = _
  by_cases hm : feAtLeastP (limbs x) = true
  · have hge := (feAtLeastP_iff hr).1 hm
    rw [if_pos hm]
    have hall := hm
    simp only [feAtLeastP, Bool.and_eq_true, beq_iff_eq, decide_eq_true_eq, List.all_eq_true] at hall
    have hle : ∀ i, pLimbs.getD i 0 ≤ (limbs x).getD i 0 := by
      have hl := limb_list (limbs_length x)
      have e : ((limbs x).drop 1).take 30 = List.replicate 30 255 :=
        List.eq_replicate_iff.2 ⟨by simp, hall.1.2⟩
      rw [e, hall.1.1] at hl
      rw [hl]
      intro i
      cases i with
      | zero => simpa [pLimbs] using hall.2
      | succ i => simp [pLimbs]
    have hz := zipWith_sub_val (a := limbs x) (b := pLimbs) (by simp [pLimbs]) hle
    rw [limbVal_pLimbs] at hz
    have hlen : (List.zipWith (· - ·) (limbs x) pLimbs).length = 32 := by simp [pLimbs]
    have hbel : LimbsBelow 256 (List.zipWith (· - ·) (limbs x) pLimbs) := by
      intro u hu
      rw [List.mem_iff_getElem] at hu
      obtain ⟨i, hi, rfl⟩ := hu
      rw [List.getElem_zipWith]
      have := limbs_below x ((limbs x)[i]'(by simp at hi ⊢; omega)) (List.getElem_mem _)
      omega
    rw [vecVal_packLimbs hlen hbel]
    show _ = limbVal (limbs x) % fieldP
    rw [Nat.mod_eq_sub_mod hge, Nat.mod_eq_of_lt (by have := fieldP_add; simp only [fieldP] at *; omega)]
    omega
  · rw [if_neg hm, packLimbs_limbs]
    rw [feAtLeastP_iff hr] at hm
    exact (Nat.mod_eq_of_lt (by show limbVal (limbs x) < _; omega)).symm

theorem feInv_freeze {x : Fe} (h : feInv x) : feInv (feFreeze x) := by
  rw [feInv_iff, vecVal_freeze h]
  have := Nat.mod_lt (vecVal x) fieldP_pos
  have := fieldP_add
  omega

/-- The canonical value is that of the residue (R121: "`val(fe_freeze(x)) = [x]` taken in [0, p)"). -/
theorem vecVal_freeze_res {x : Fe} (h : feInv x) : vecVal (feFreeze x) = (feRes x).val := by
  rw [vecVal_freeze h, feRes, ZMod.val_natCast]

theorem feRes_freeze {x : Fe} (h : feInv x) : feRes (feFreeze x) = feRes x := by
  rw [feRes, vecVal_freeze h, feRes, ZMod.natCast_mod]

/-- A vector at rest as its little-endian bytes. -/
theorem toList_eq_leBytes {n : Nat} (v : Vector Byte n) : v.toList = leBytes n (vecVal v) := by
  have h := limbsOf_limbVal (limbs_below v)
  rw [limbs_length] at h
  rw [leBytes, vecVal, h, limbs, List.map_map]
  conv_lhs => rw [← List.map_id v.toList]
  apply List.map_congr_left
  intro x _
  simp

/-- R107: the packed bytes are those of the canonical representative. -/
theorem fePack_eq {x : Fe} (h : feInv x) : fePack x = leBytes 32 (feRes x).val := by
  rw [fePack, toList_eq_leBytes, vecVal_freeze_res h]

/-! Predicates. -/

theorem limbVal_eq_zero {l : List Nat} : limbVal l = 0 ↔ l.all (· == 0) = true := by
  induction l with
  | nil => simp
  | cons x xs ih => simp only [limbVal_cons, List.all_cons, Bool.and_eq_true, beq_iff_eq, ← ih]; omega

/-- R116: P = 1 exactly when the residue is 0. -/
theorem feIszero_iff {x : Fe} (h : feInv x) : feIszero x = true ↔ feRes x = 0 := by
  rw [feIszero, ← limbVal_eq_zero]
  show vecVal (feFreeze x) = 0 ↔ _
  rw [vecVal_freeze_res h, ZMod.val_eq_zero]

/-- R117: P = 1 exactly when the two registers represent one residue. -/
theorem feIseq_iff {x y : Fe} (hx : feInv x) (hy : feInv y) : feIseq x y = true ↔ feRes x = feRes y := by
  rw [feIseq, beq_iff_eq]
  constructor
  · intro h
    have : vecVal (feFreeze x) = vecVal (feFreeze y) := congrArg limbVal h
    rw [← feRes_freeze hx, ← feRes_freeze hy, feRes, feRes, this]
  · intro h
    have : feFreeze x = feFreeze y := vecVal_inj (by rw [vecVal_freeze_res hx, vecVal_freeze_res hy, h])
    rw [this]

theorem limbVal_mod_two (l : List Nat) : limbVal l % 2 = l.getD 0 0 % 2 := by
  cases l with
  | nil => rfl
  | cons x xs => simp only [limbVal_cons, List.getD_cons_zero]; omega

/-- R118: P is the low bit of the canonical representative. -/
theorem feGetparity_eq {x : Fe} (h : feInv x) : feGetparity x = ((feRes x).val % 2 == 1) := by
  rw [feGetparity, ← limbVal_mod_two, ← vecVal_freeze_res h, vecVal]

/-- R119: the selected limbs, not a residue. -/
theorem feCmov_eq (p : Bool) (r x : Fe) : feCmov p r x = if p then x else r := by
  have hz : ∀ a b : List Nat, a.length = b.length →
      List.zipWith (fun ri xi => if p then xi else ri) a b = if p then b else a := by
    intro a
    induction a with
    | nil => intro b hb; rw [List.eq_nil_of_length_eq_zero (by simpa using hb.symm : b.length = 0)]; simp
    | cons c cs ih =>
      intro b hb
      cases b with
      | nil => simp at hb
      | cons d ds => rw [List.zipWith_cons_cons, ih ds (by simpa using hb)]; cases p <;> rfl
  rw [feCmov, hz _ _ (by simp)]
  cases p
  · exact packLimbs_limbs r
  · exact packLimbs_limbs x

/-! Unpacking. -/

/-- R106: the value is the low 255 bits of the bytes, and INV-FE holds. -/
theorem reduced_unpack {bs : List Byte} (h : bs.length = 32) :
    Reduced ((byteLimbs bs).set 31 ((byteLimbs bs).getD 31 0 % 128)) ∧
      limbVal ((byteLimbs bs).set 31 ((byteLimbs bs).getD 31 0 % 128)) = leVal bs % 2 ^ 255 := by
  have hs := limbVal_set (l := byteLimbs bs) (i := 31) (by simp [h]) ((byteLimbs bs).getD 31 0 % 128)
  have hsp := limbVal_split (l := byteLimbs bs) (by simp [h])
  have hlow : limbVal (byteLimbs bs).dropLast < 256 ^ 31 := by
    have := limbVal_lt (l := (byteLimbs bs).dropLast) fun x hx => byteLimbs_below bs x (List.mem_of_mem_dropLast hx)
    simpa [h] using this
  have hm := Nat.div_add_mod ((byteLimbs bs).getD 31 0) 128
  have hr := Nat.mod_lt ((byteLimbs bs).getD 31 0) (by norm_num : 0 < 128)
  have hval : limbVal ((byteLimbs bs).set 31 ((byteLimbs bs).getD 31 0 % 128)) = leVal bs % 2 ^ 255 := by
    show _ = limbVal (byteLimbs bs) % 2 ^ 255
    generalize (byteLimbs bs).getD 31 0 / 128 = t at *
    generalize (byteLimbs bs).getD 31 0 % 128 = r at *
    generalize (byteLimbs bs).getD 31 0 = x at *
    subst hm
    rw [hsp]
    rw [hsp] at hs
    norm_num at *
    omega
  refine ⟨⟨by simp [h], ?_, ?_⟩, hval⟩
  · intro x hx
    rcases List.mem_or_eq_of_mem_set hx with hx | rfl
    · exact byteLimbs_below bs x hx
    · omega
  · rw [hval]; exact Nat.mod_lt _ (by norm_num)

theorem feInv_unpack {bs : List Byte} (h : bs.length = 32) : feInv (feUnpack bs) := (reduced_unpack h).1.inv_pack

theorem vecVal_unpack {bs : List Byte} (h : bs.length = 32) : vecVal (feUnpack bs) = leVal bs % 2 ^ 255 := by
  rw [feUnpack, (reduced_unpack h).1.vecVal_pack, (reduced_unpack h).2]

end Sys2Proof.Machine
end

