-- ==== Sys2Proof/Laws/Prime.lean ====
section
/-! SUPPORT. The modulus p = 2^255 − 19 is prime (spec/40_field_element.md R100: "The field is GF(p)"), by Lucas's test
with a factorisation of p − 1 and, recursively, of the large factors; and two facts on squares mod p. -/

namespace Sys2Proof.Machine

/-- A prime that divides a product of a power of a prime and a rest is that prime or divides the rest. -/
theorem eq_or_dvd_of_dvd_pow_mul {q r k m : Nat} (hq : q.Prime) (hr : r.Prime) (h : q ∣ r ^ k * m) : q = r ∨ q ∣ m := by
  rcases (hq.dvd_mul).1 h with h | h
  · exact .inl ((Nat.prime_dvd_prime_iff_eq hq hr).1 (hq.dvd_of_dvd_pow h))
  · exact .inr h

theorem natCast_ne_one {n c : Nat} (h : c % n ≠ 1 % n) : (c : ZMod n) ≠ 1 := by
  intro e
  exact h ((ZMod.natCast_eq_natCast_iff' c 1 n).1 (by simpa using e))

theorem prime_8574133 : Nat.Prime 8574133 := by
  refine lucas_primality _ 2 (by reduce_mod_char) fun q hq hd => ?_
  rw [show 8574133 - 1 =
    2 ^ 2 * (3 ^ 1 * (7 ^ 1 * (103 ^ 1 * (991 ^ 1 * 1)))) by norm_num] at hd
  rcases eq_or_dvd_of_dvd_pow_mul hq (by norm_num) hd with rfl | hd
  · rw [show (2 : ZMod 8574133) ^ ((8574133 - 1) / 2) =
      (8574132 : Nat) by
      norm_num; reduce_mod_char]
    exact natCast_ne_one (by norm_num)
  rcases eq_or_dvd_of_dvd_pow_mul hq (by norm_num) hd with rfl | hd
  · rw [show (2 : ZMod 8574133) ^ ((8574133 - 1) / 3) =
      (7079057 : Nat) by
      norm_num; reduce_mod_char]
    exact natCast_ne_one (by norm_num)
  rcases eq_or_dvd_of_dvd_pow_mul hq (by norm_num) hd with rfl | hd
  · rw [show (2 : ZMod 8574133) ^ ((8574133 - 1) / 7) =
      (7470406 : Nat) by
      norm_num; reduce_mod_char]
    exact natCast_ne_one (by norm_num)
  rcases eq_or_dvd_of_dvd_pow_mul hq (by norm_num) hd with rfl | hd
  · rw [show (2 : ZMod 8574133) ^ ((8574133 - 1) / 103) =
      (4321357 : Nat) by
      norm_num; reduce_mod_char]
    exact natCast_ne_one (by norm_num)
  rcases eq_or_dvd_of_dvd_pow_mul hq (by norm_num) hd with rfl | hd
  · rw [show (2 : ZMod 8574133) ^ ((8574133 - 1) / 991) =
      (3435729 : Nat) by
      norm_num; reduce_mod_char]
    exact natCast_ne_one (by norm_num)
  exact absurd (Nat.dvd_one.1 hd) hq.one_lt.ne'

theorem prime_773320623 : Nat.Prime 2773320623 := by
  refine lucas_primality _ 5 (by reduce_mod_char) fun q hq hd => ?_
  rw [show 2773320623 - 1 =
    2 ^ 1 * (2437 ^ 1 * (569003 ^ 1 * 1)) by norm_num] at hd
  rcases eq_or_dvd_of_dvd_pow_mul hq (by norm_num) hd with rfl | hd
  · rw [show (5 : ZMod 2773320623) ^ ((2773320623 - 1) / 2) =
      (2773320622 : Nat) by
      norm_num; reduce_mod_char]
    exact natCast_ne_one (by norm_num)
  rcases eq_or_dvd_of_dvd_pow_mul hq (by norm_num) hd with rfl | hd
  · rw [show (5 : ZMod 2773320623) ^ ((2773320623 - 1) / 2437) =
      (844634197 : Nat) by
      norm_num; reduce_mod_char]
    exact natCast_ne_one (by norm_num)
  rcases eq_or_dvd_of_dvd_pow_mul hq (by norm_num) hd with rfl | hd
  · rw [show (5 : ZMod 2773320623) ^ ((2773320623 - 1) / 569003) =
      (2420059583 : Nat) by
      norm_num; reduce_mod_char]
    exact natCast_ne_one (by norm_num)
  exact absurd (Nat.dvd_one.1 hd) hq.one_lt.ne'

theorem prime_106336199 : Nat.Prime 72106336199 := by
  refine lucas_primality _ 7 (by reduce_mod_char) fun q hq hd => ?_
  rw [show 72106336199 - 1 =
    2 ^ 1 * (13 ^ 1 * (2773320623 ^ 1 * 1)) by norm_num] at hd
  rcases eq_or_dvd_of_dvd_pow_mul hq (by norm_num) hd with rfl | hd
  · rw [show (7 : ZMod 72106336199) ^ ((72106336199 - 1) / 2) =
      (72106336198 : Nat) by
      norm_num; reduce_mod_char]
    exact natCast_ne_one (by norm_num)
  rcases eq_or_dvd_of_dvd_pow_mul hq (by norm_num) hd with rfl | hd
  · rw [show (7 : ZMod 72106336199) ^ ((72106336199 - 1) / 13) =
      (58700762603 : Nat) by
      norm_num; reduce_mod_char]
    exact natCast_ne_one (by norm_num)
  rcases eq_or_dvd_of_dvd_pow_mul hq prime_773320623 hd with rfl | hd
  · rw [show (7 : ZMod 72106336199) ^ ((72106336199 - 1) / 2773320623) =
      (28357292573 : Nat) by
      norm_num; reduce_mod_char]
    exact natCast_ne_one (by norm_num)
  exact absurd (Nat.dvd_one.1 hd) hq.one_lt.ne'

theorem prime_1923133 : Nat.Prime 1923133 := by
  refine lucas_primality _ 2 (by reduce_mod_char) fun q hq hd => ?_
  rw [show 1923133 - 1 =
    2 ^ 2 * (3 ^ 1 * (43 ^ 1 * (3727 ^ 1 * 1))) by norm_num] at hd
  rcases eq_or_dvd_of_dvd_pow_mul hq (by norm_num) hd with rfl | hd
  · rw [show (2 : ZMod 1923133) ^ ((1923133 - 1) / 2) =
      (1923132 : Nat) by
      norm_num; reduce_mod_char]
    exact natCast_ne_one (by norm_num)
  rcases eq_or_dvd_of_dvd_pow_mul hq (by norm_num) hd with rfl | hd
  · rw [show (2 : ZMod 1923133) ^ ((1923133 - 1) / 3) =
      (1862225 : Nat) by
      norm_num; reduce_mod_char]
    exact natCast_ne_one (by norm_num)
  rcases eq_or_dvd_of_dvd_pow_mul hq (by norm_num) hd with rfl | hd
  · rw [show (2 : ZMod 1923133) ^ ((1923133 - 1) / 43) =
      (1760861 : Nat) by
      norm_num; reduce_mod_char]
    exact natCast_ne_one (by norm_num)
  rcases eq_or_dvd_of_dvd_pow_mul hq (by norm_num) hd with rfl | hd
  · rw [show (2 : ZMod 1923133) ^ ((1923133 - 1) / 3727) =
      (740012 : Nat) by
      norm_num; reduce_mod_char]
    exact natCast_ne_one (by norm_num)
  exact absurd (Nat.dvd_one.1 hd) hq.one_lt.ne'

theorem prime_568855353 : Nat.Prime 31757755568855353 := by
  refine lucas_primality _ 10 (by reduce_mod_char) fun q hq hd => ?_
  rw [show 31757755568855353 - 1 =
    2 ^ 3 * (3 ^ 1 * (31 ^ 1 * (107 ^ 1 * (223 ^ 1 * (4153 ^ 1 * (430751 ^ 1 * 1)))))) by norm_num] at hd
  rcases eq_or_dvd_of_dvd_pow_mul hq (by norm_num) hd with rfl | hd
  · rw [show (10 : ZMod 31757755568855353) ^ ((31757755568855353 - 1) / 2) =
      (31757755568855352 : Nat) by
      norm_num; reduce_mod_char]
    exact natCast_ne_one (by norm_num)
  rcases eq_or_dvd_of_dvd_pow_mul hq (by norm_num) hd with rfl | hd
  · rw [show (10 : ZMod 31757755568855353) ^ ((31757755568855353 - 1) / 3) =
      (22133410514677784 : Nat) by
      norm_num; reduce_mod_char]
    exact natCast_ne_one (by norm_num)
  rcases eq_or_dvd_of_dvd_pow_mul hq (by norm_num) hd with rfl | hd
  · rw [show (10 : ZMod 31757755568855353) ^ ((31757755568855353 - 1) / 31) =
      (24776906756080210 : Nat) by
      norm_num; reduce_mod_char]
    exact natCast_ne_one (by norm_num)
  rcases eq_or_dvd_of_dvd_pow_mul hq (by norm_num) hd with rfl | hd
  · rw [show (10 : ZMod 31757755568855353) ^ ((31757755568855353 - 1) / 107) =
      (30702321360579269 : Nat) by
      norm_num; reduce_mod_char]
    exact natCast_ne_one (by norm_num)
  rcases eq_or_dvd_of_dvd_pow_mul hq (by norm_num) hd with rfl | hd
  · rw [show (10 : ZMod 31757755568855353) ^ ((31757755568855353 - 1) / 223) =
      (5141820974828509 : Nat) by
      norm_num; reduce_mod_char]
    exact natCast_ne_one (by norm_num)
  rcases eq_or_dvd_of_dvd_pow_mul hq (by norm_num) hd with rfl | hd
  · rw [show (10 : ZMod 31757755568855353) ^ ((31757755568855353 - 1) / 4153) =
      (29494927157741833 : Nat) by
      norm_num; reduce_mod_char]
    exact natCast_ne_one (by norm_num)
  rcases eq_or_dvd_of_dvd_pow_mul hq (by norm_num) hd with rfl | hd
  · rw [show (10 : ZMod 31757755568855353) ^ ((31757755568855353 - 1) / 430751) =
      (25185179080663893 : Nat) by
      norm_num; reduce_mod_char]
    exact natCast_ne_one (by norm_num)
  exact absurd (Nat.dvd_one.1 hd) hq.one_lt.ne'

theorem prime_569386763 : Nat.Prime 1919519569386763 := by
  refine lucas_primality _ 2 (by reduce_mod_char) fun q hq hd => ?_
  rw [show 1919519569386763 - 1 =
    2 ^ 1 * (3 ^ 1 * (7 ^ 1 * (19 ^ 1 * (47 ^ 2 * (127 ^ 1 * (8574133 ^ 1 * 1)))))) by norm_num] at hd
  rcases eq_or_dvd_of_dvd_pow_mul hq (by norm_num) hd with rfl | hd
  · rw [show (2 : ZMod 1919519569386763) ^ ((1919519569386763 - 1) / 2) =
      (1919519569386762 : Nat) by
      norm_num; reduce_mod_char]
    exact natCast_ne_one (by norm_num)
  rcases eq_or_dvd_of_dvd_pow_mul hq (by norm_num) hd with rfl | hd
  · rw [show (2 : ZMod 1919519569386763) ^ ((1919519569386763 - 1) / 3) =
      (1786118255295340 : Nat) by
      norm_num; reduce_mod_char]
    exact natCast_ne_one (by norm_num)
  rcases eq_or_dvd_of_dvd_pow_mul hq (by norm_num) hd with rfl | hd
  · rw [show (2 : ZMod 1919519569386763) ^ ((1919519569386763 - 1) / 7) =
      (1124719358789780 : Nat) by
      norm_num; reduce_mod_char]
    exact natCast_ne_one (by norm_num)
  rcases eq_or_dvd_of_dvd_pow_mul hq (by norm_num) hd with rfl | hd
  · rw [show (2 : ZMod 1919519569386763) ^ ((1919519569386763 - 1) / 19) =
      (602275051902557 : Nat) by
      norm_num; reduce_mod_char]
    exact natCast_ne_one (by norm_num)
  rcases eq_or_dvd_of_dvd_pow_mul hq (by norm_num) hd with rfl | hd
  · rw [show (2 : ZMod 1919519569386763) ^ ((1919519569386763 - 1) / 47) =
      (621931926534591 : Nat) by
      norm_num; reduce_mod_char]
    exact natCast_ne_one (by norm_num)
  rcases eq_or_dvd_of_dvd_pow_mul hq (by norm_num) hd with rfl | hd
  · rw [show (2 : ZMod 1919519569386763) ^ ((1919519569386763 - 1) / 127) =
      (576774792492622 : Nat) by
      norm_num; reduce_mod_char]
    exact natCast_ne_one (by norm_num)
  rcases eq_or_dvd_of_dvd_pow_mul hq prime_8574133 hd with rfl | hd
  · rw [show (2 : ZMod 1919519569386763) ^ ((1919519569386763 - 1) / 8574133) =
      (1059928654987441 : Nat) by
      norm_num; reduce_mod_char]
    exact natCast_ne_one (by norm_num)
  exact absurd (Nat.dvd_one.1 hd) hq.one_lt.ne'

theorem prime_543864801 : Nat.Prime 75445702479781427272750846543864801 := by
  refine lucas_primality _ 7 (by reduce_mod_char) fun q hq hd => ?_
  rw [show 75445702479781427272750846543864801 - 1 =
    2 ^ 5 * (3 ^ 2 * (5 ^ 2 * (75707 ^ 1 * (72106336199 ^ 1 * (1919519569386763 ^ 1 * 1))))) by norm_num] at hd
  rcases eq_or_dvd_of_dvd_pow_mul hq (by norm_num) hd with rfl | hd
  · rw [show (7 : ZMod 75445702479781427272750846543864801) ^ ((75445702479781427272750846543864801 - 1) / 2) =
      (75445702479781427272750846543864800 : Nat) by
      norm_num; reduce_mod_char]
    exact natCast_ne_one (by norm_num)
  rcases eq_or_dvd_of_dvd_pow_mul hq (by norm_num) hd with rfl | hd
  · rw [show (7 : ZMod 75445702479781427272750846543864801) ^ ((75445702479781427272750846543864801 - 1) / 3) =
      (17027744575660264744512945715121884 : Nat) by
      norm_num; reduce_mod_char]
    exact natCast_ne_one (by norm_num)
  rcases eq_or_dvd_of_dvd_pow_mul hq (by norm_num) hd with rfl | hd
  · rw [show (7 : ZMod 75445702479781427272750846543864801) ^ ((75445702479781427272750846543864801 - 1) / 5) =
      (52755092631156469601217826477970212 : Nat) by
      norm_num; reduce_mod_char]
    exact natCast_ne_one (by norm_num)
  rcases eq_or_dvd_of_dvd_pow_mul hq (by norm_num) hd with rfl | hd
  · rw [show (7 : ZMod 75445702479781427272750846543864801) ^ ((75445702479781427272750846543864801 - 1) / 75707) =
      (57103426308028043857659793617446015 : Nat) by
      norm_num; reduce_mod_char]
    exact natCast_ne_one (by norm_num)
  rcases eq_or_dvd_of_dvd_pow_mul hq prime_106336199 hd with rfl | hd
  · rw [show (7 : ZMod 75445702479781427272750846543864801) ^ ((75445702479781427272750846543864801 - 1) / 72106336199) =
      (72344277920069036431504068385047591 : Nat) by
      norm_num; reduce_mod_char]
    exact natCast_ne_one (by norm_num)
  rcases eq_or_dvd_of_dvd_pow_mul hq prime_569386763 hd with rfl | hd
  · rw [show (7 : ZMod 75445702479781427272750846543864801) ^ ((75445702479781427272750846543864801 - 1) / 1919519569386763) =
      (33763476511538335360127990623883028 : Nat) by
      norm_num; reduce_mod_char]
    exact natCast_ne_one (by norm_num)
  exact absurd (Nat.dvd_one.1 hd) hq.one_lt.ne'

theorem prime_754340907 : Nat.Prime 74058212732561358302231226437062788676166966415465897661863160754340907 := by
  refine lucas_primality _ 2 (by reduce_mod_char) fun q hq hd => ?_
  rw [show 74058212732561358302231226437062788676166966415465897661863160754340907 - 1 =
    2 ^ 1 * (3 ^ 1 * (353 ^ 1 * (57467 ^ 1 * (132049 ^ 1 * (1923133 ^ 1 * (31757755568855353 ^ 1 * (75445702479781427272750846543864801 ^ 1 * 1))))))) by norm_num] at hd
  rcases eq_or_dvd_of_dvd_pow_mul hq (by norm_num) hd with rfl | hd
  · rw [show (2 : ZMod 74058212732561358302231226437062788676166966415465897661863160754340907) ^ ((74058212732561358302231226437062788676166966415465897661863160754340907 - 1) / 2) =
      (74058212732561358302231226437062788676166966415465897661863160754340906 : Nat) by
      norm_num; reduce_mod_char]
    exact natCast_ne_one (by norm_num)
  rcases eq_or_dvd_of_dvd_pow_mul hq (by norm_num) hd with rfl | hd
  · rw [show (2 : ZMod 74058212732561358302231226437062788676166966415465897661863160754340907) ^ ((74058212732561358302231226437062788676166966415465897661863160754340907 - 1) / 3) =
      (30397109428614726089754189191956088611235801571633239974164411255784155 : Nat) by
      norm_num; reduce_mod_char]
    exact natCast_ne_one (by norm_num)
  rcases eq_or_dvd_of_dvd_pow_mul hq (by norm_num) hd with rfl | hd
  · rw [show (2 : ZMod 74058212732561358302231226437062788676166966415465897661863160754340907) ^ ((74058212732561358302231226437062788676166966415465897661863160754340907 - 1) / 353) =
      (8562916886866218785688304546164188478888058893729309188831496247839076 : Nat) by
      norm_num; reduce_mod_char]
    exact natCast_ne_one (by norm_num)
  rcases eq_or_dvd_of_dvd_pow_mul hq (by norm_num) hd with rfl | hd
  · rw [show (2 : ZMod 74058212732561358302231226437062788676166966415465897661863160754340907) ^ ((74058212732561358302231226437062788676166966415465897661863160754340907 - 1) / 57467) =
      (34423717228876157273670922671787235583289084632054732964365754153055025 : Nat) by
      norm_num; reduce_mod_char]
    exact natCast_ne_one (by norm_num)
  rcases eq_or_dvd_of_dvd_pow_mul hq (by norm_num) hd with rfl | hd
  · rw [show (2 : ZMod 74058212732561358302231226437062788676166966415465897661863160754340907) ^ ((74058212732561358302231226437062788676166966415465897661863160754340907 - 1) / 132049) =
      (54871647690314810166557542068595163151590274869528630571075996285882505 : Nat) by
      norm_num; reduce_mod_char]
    exact natCast_ne_one (by norm_num)
  rcases eq_or_dvd_of_dvd_pow_mul hq prime_1923133 hd with rfl | hd
  · rw [show (2 : ZMod 74058212732561358302231226437062788676166966415465897661863160754340907) ^ ((74058212732561358302231226437062788676166966415465897661863160754340907 - 1) / 1923133) =
      (52266576830164329332527201090776533817489900267135412990654516667243924 : Nat) by
      norm_num; reduce_mod_char]
    exact natCast_ne_one (by norm_num)
  rcases eq_or_dvd_of_dvd_pow_mul hq prime_568855353 hd with rfl | hd
  · rw [show (2 : ZMod 74058212732561358302231226437062788676166966415465897661863160754340907) ^ ((74058212732561358302231226437062788676166966415465897661863160754340907 - 1) / 31757755568855353) =
      (50366660687963342066214195241331738400016478712605795091965648721912165 : Nat) by
      norm_num; reduce_mod_char]
    exact natCast_ne_one (by norm_num)
  rcases eq_or_dvd_of_dvd_pow_mul hq prime_543864801 hd with rfl | hd
  · rw [show (2 : ZMod 74058212732561358302231226437062788676166966415465897661863160754340907) ^ ((74058212732561358302231226437062788676166966415465897661863160754340907 - 1) / 75445702479781427272750846543864801) =
      (69490809710348678725736597923071784769591275419387514694139338586948360 : Nat) by
      norm_num; reduce_mod_char]
    exact natCast_ne_one (by norm_num)
  exact absurd (Nat.dvd_one.1 hd) hq.one_lt.ne'

theorem prime_25519 : Nat.Prime 57896044618658097711785492504343953926634992332820282019728792003956564819949 := by
  refine lucas_primality _ 2 (by reduce_mod_char) fun q hq hd => ?_
  rw [show 57896044618658097711785492504343953926634992332820282019728792003956564819949 - 1 =
    2 ^ 2 * (3 ^ 1 * (65147 ^ 1 * (74058212732561358302231226437062788676166966415465897661863160754340907 ^ 1 * 1))) by norm_num] at hd
  rcases eq_or_dvd_of_dvd_pow_mul hq (by norm_num) hd with rfl | hd
  · rw [show (2 : ZMod 57896044618658097711785492504343953926634992332820282019728792003956564819949) ^ ((57896044618658097711785492504343953926634992332820282019728792003956564819949 - 1) / 2) =
      (57896044618658097711785492504343953926634992332820282019728792003956564819948 : Nat) by
      norm_num; reduce_mod_char]
    exact natCast_ne_one (by norm_num)
  rcases eq_or_dvd_of_dvd_pow_mul hq (by norm_num) hd with rfl | hd
  · rw [show (2 : ZMod 57896044618658097711785492504343953926634992332820282019728792003956564819949) ^ ((57896044618658097711785492504343953926634992332820282019728792003956564819949 - 1) / 3) =
      (25380276437079137597092236364571181010632177832931468165172742469126098314552 : Nat) by
      norm_num; reduce_mod_char]
    exact natCast_ne_one (by norm_num)
  rcases eq_or_dvd_of_dvd_pow_mul hq (by norm_num) hd with rfl | hd
  · rw [show (2 : ZMod 57896044618658097711785492504343953926634992332820282019728792003956564819949) ^ ((57896044618658097711785492504343953926634992332820282019728792003956564819949 - 1) / 65147) =
      (22602559476203468486837656474023958799180643873278202064348025470901666305470 : Nat) by
      norm_num; reduce_mod_char]
    exact natCast_ne_one (by norm_num)
  rcases eq_or_dvd_of_dvd_pow_mul hq prime_754340907 hd with rfl | hd
  · rw [show (2 : ZMod 57896044618658097711785492504343953926634992332820282019728792003956564819949) ^ ((57896044618658097711785492504343953926634992332820282019728792003956564819949 - 1) / 74058212732561358302231226437062788676166966415465897661863160754340907) =
      (427094198651976259540344842774561673889945192655078505504941250475370961481 : Nat) by
      norm_num; reduce_mod_char]
    exact natCast_ne_one (by norm_num)
  exact absurd (Nat.dvd_one.1 hd) hq.one_lt.ne'

end Sys2Proof.Machine
end

