-- ==== Sys2Proof/Laws/Curve.lean ====
section
/-! SUPPORT. The group law of the twisted Edwards curve of spec/42_group_element.md R180: the affine addition law has no
exceptional case (R189), keeps the curve, and is commutative and associative with neutral element (0, 1). The
polynomial identities hold over any field; they are applied to the field of p elements. -/

namespace Sys2Proof.Machine

section AnyField

variable {K : Type} [Field K] {d x1 y1 x2 y2 x3 y3 x4 y4 x5 y5 : K}

/-- Two quotients are equal where their cross products are, up to common factors. -/
theorem quotients_eq {a b c e A B C D k m : K} (hk : k ≠ 0) (hm : m ≠ 0) (hb : b ≠ 0) (he : e ≠ 0)
    (h1 : a * k = A) (h2 : b * k = B) (h3 : c * m = C) (h4 : e * m = D) (h : A * D = C * B) : a * b⁻¹ = c * e⁻¹ := by
  rw [← div_eq_mul_inv, ← div_eq_mul_inv, div_eq_div_iff hb he]
  refine mul_right_cancel₀ (mul_ne_zero hk hm) ?_
  subst h1 h2 h3 h4
  linear_combination h

/-- The sum of two points is on the curve. -/
theorem curve_closed (h1 : -x1 ^ 2 + y1 ^ 2 = 1 + d * x1 ^ 2 * y1 ^ 2) (h2 : -x2 ^ 2 + y2 ^ 2 = 1 + d * x2 ^ 2 * y2 ^ 2)
    (dx : 1 + d * x1 * x2 * y1 * y2 ≠ 0) (dy : 1 - d * x1 * x2 * y1 * y2 ≠ 0)
    (hx : x4 * (1 + d * x1 * x2 * y1 * y2) = x1 * y2 + x2 * y1)
    (hy : y4 * (1 - d * x1 * x2 * y1 * y2) = y1 * y2 + x1 * x2) :
    -x4 ^ 2 + y4 ^ 2 = 1 + d * x4 ^ 2 * y4 ^ 2 := by
  refine mul_right_cancel₀ (pow_ne_zero 2 (mul_ne_zero dx dy)) ?_
  rw [show (-x4 ^ 2 + y4 ^ 2) * ((1 + d * x1 * x2 * y1 * y2) * (1 - d * x1 * x2 * y1 * y2)) ^ 2 =
      -(x4 * (1 + d * x1 * x2 * y1 * y2)) ^ 2 * (1 - d * x1 * x2 * y1 * y2) ^ 2 +
        (y4 * (1 - d * x1 * x2 * y1 * y2)) ^ 2 * (1 + d * x1 * x2 * y1 * y2) ^ 2 by ring,
    show (1 + d * x4 ^ 2 * y4 ^ 2) * ((1 + d * x1 * x2 * y1 * y2) * (1 - d * x1 * x2 * y1 * y2)) ^ 2 =
      ((1 + d * x1 * x2 * y1 * y2) * (1 - d * x1 * x2 * y1 * y2)) ^ 2 +
        d * (x4 * (1 + d * x1 * x2 * y1 * y2)) ^ 2 * (y4 * (1 - d * x1 * x2 * y1 * y2)) ^ 2 by ring, hx, hy]
  linear_combination
      (x1^2*y1^2*x2^4*y2^4*d^3 - x1^2*x2^4*y2^4*d^2 - x1^2*x2^4*y2^2*d + x1^2*x2^2*y2^4*d + y1^2*x2^4*y2^4*d^2
      + y1^2*x2^4*y2^2*d - y1^2*x2^2*y2^4*d - x2^4*y2^4*d^2 - 2*x2^4*y2^4*d - 2*x2^4*y2^2 + x2^4 + 2*x2^2*y2^4
      - 2*x2^2*y2^2*d - 4*x2^2*y2^2 + y2^4) * h1 +
      (x1^4*x2^2*y2^2*d + 2*x1^2*x2^2*y2^2*d + 2*x1^2*x2^2*y2^2 - x1^2*x2^2 + x1^2*y2^2 + y1^4*x2^2*y2^2*d -
      2*y1^2*x2^2*y2^2*d - 2*y1^2*x2^2*y2^2 + y1^2*x2^2 - y1^2*y2^2 + x2^2*y2^2*d + 2*x2^2*y2^2 - x2^2 + y2^2
      + 1) * h2

/-- Associativity, the x coordinate. -/
theorem curve_assoc_x (h1 : -x1 ^ 2 + y1 ^ 2 = 1 + d * x1 ^ 2 * y1 ^ 2) (h2 : -x2 ^ 2 + y2 ^ 2 = 1 + d * x2 ^ 2 * y2 ^ 2)
    (h3 : -x3 ^ 2 + y3 ^ 2 = 1 + d * x3 ^ 2 * y3 ^ 2)
    (d4x : 1 + d * x1 * x2 * y1 * y2 ≠ 0) (d4y : 1 - d * x1 * x2 * y1 * y2 ≠ 0)
    (d5x : 1 + d * x2 * x3 * y2 * y3 ≠ 0) (d5y : 1 - d * x2 * x3 * y2 * y3 ≠ 0)
    (hx4 : x4 * (1 + d * x1 * x2 * y1 * y2) = x1 * y2 + x2 * y1)
    (hy4 : y4 * (1 - d * x1 * x2 * y1 * y2) = y1 * y2 + x1 * x2)
    (hx5 : x5 * (1 + d * x2 * x3 * y2 * y3) = x2 * y3 + x3 * y2)
    (hy5 : y5 * (1 - d * x2 * x3 * y2 * y3) = y2 * y3 + x2 * x3)
    (dl : 1 + d * x4 * x3 * y4 * y3 ≠ 0) (dr : 1 + d * x1 * x5 * y1 * y5 ≠ 0) :
    (x4 * y3 + x3 * y4) * (1 + d * x4 * x3 * y4 * y3)⁻¹ = (x1 * y5 + x5 * y1) * (1 + d * x1 * x5 * y1 * y5)⁻¹ := by
  refine quotients_eq (mul_ne_zero d4x d4y) (mul_ne_zero d5x d5y) dl dr
    (A := (x1 * y2 + x2 * y1) * (1 - d * x1 * x2 * y1 * y2) * y3 + (y1 * y2 + x1 * x2) * (1 + d * x1 * x2 * y1 * y2) * x3)
    (B := (1 + d * x1 * x2 * y1 * y2) * (1 - d * x1 * x2 * y1 * y2) + d * (x1 * y2 + x2 * y1) * (y1 * y2 + x1 * x2) * x3 * y3)
    (C := x1 * (y2 * y3 + x2 * x3) * (1 + d * x2 * x3 * y2 * y3) + y1 * (x2 * y3 + x3 * y2) * (1 - d * x2 * x3 * y2 * y3))
    (D := (1 + d * x2 * x3 * y2 * y3) * (1 - d * x2 * x3 * y2 * y3) + d * x1 * y1 * (x2 * y3 + x3 * y2) * (y2 * y3 + x2 * x3))
    ?_ ?_ ?_ ?_ ?_
  · linear_combination y3 * (1 - d * x1 * x2 * y1 * y2) * hx4 + x3 * (1 + d * x1 * x2 * y1 * y2) * hy4
  · linear_combination (d * x3 * y3 * y4 * (1 - d * x1 * x2 * y1 * y2)) * hx4 + d * x3 * y3 * (x1 * y2 + x2 * y1) * hy4
  · linear_combination x1 * (1 + d * x2 * x3 * y2 * y3) * hy5 + y1 * (1 - d * x2 * x3 * y2 * y3) * hx5
  · linear_combination (d * x1 * y1 * y5 * (1 - d * x2 * x3 * y2 * y3)) * hx5 + d * x1 * y1 * (x2 * y3 + x3 * y2) * hy5
  · linear_combination
      (-x1*x2^4*y2^3*x3^2*y3*d^2 - x1*x2^4*y2*x3^2*y3*d - x1*x2^3*y2^4*x3*y3^2*d^2 - x1*x2^3*y2^2*x3^3*d -
      x1*x2^3*y2^2*x3*d + x1*x2^2*y2^3*y3^3*d - x1*x2^2*y2^3*y3*d + x1*x2*y2^4*x3*y3^2*d +
      y1*x2^4*y2^3*x3*y3^2*d^2 + y1*x2^4*y2*x3*y3^2*d + y1*x2^3*y2^4*x3^2*y3*d^2 + y1*x2^3*y2^2*y3^3*d -
      y1*x2^3*y2^2*y3*d - y1*x2^2*y2^3*x3^3*d - y1*x2^2*y2^3*x3*d - y1*x2*y2^4*x3^2*y3*d) * h1 +
      (x1^3*x2^2*y2*x3^2*y3*d + x1^3*x2*y2^2*x3*y3^2*d + x1^3*x2*x3^3*y3^2*d + x1^3*x2*x3^3 - x1^3*x2*x3*y3^2
      + x1^3*x2*x3 + x1^3*y2*x3^2*y3^3*d + x1^3*y2*x3^2*y3 - x1^3*y2*y3^3 + x1^3*y2*y3 +
      x1^2*y1*x2^2*y2*x3^3*y3^2*d^2 - x1^2*y1*x2^2*y2*x3*y3^2*d - x1^2*y1*x2*y2^2*x3^2*y3^3*d^2 -
      x1^2*y1*x2*y2^2*x3^2*y3*d + x1^2*y1*x2*x3^2*y3^3*d + x1^2*y1*x2*x3^2*y3 - x1^2*y1*x2*y3^3 +
      x1^2*y1*x2*y3 + x1^2*y1*y2*x3^3*y3^2*d + x1^2*y1*y2*x3^3 - x1^2*y1*y2*x3*y3^2 + x1^2*y1*y2*x3 -
      x1*y1^2*x2^2*y2*x3^2*y3^3*d^2 - x1*y1^2*x2^2*y2*x3^2*y3*d + x1*y1^2*x2*y2^2*x3^3*y3^2*d^2 -
      x1*y1^2*x2*y2^2*x3*y3^2*d - x1*y1^2*x2*x3^3*y3^2*d - x1*y1^2*x2*x3^3 + x1*y1^2*x2*x3*y3^2 -
      x1*y1^2*x2*x3 - x1*y1^2*y2*x3^2*y3^3*d - x1*y1^2*y2*x3^2*y3 + x1*y1^2*y2*y3^3 - x1*y1^2*y2*y3 +
      x1*x2^2*y2*x3^2*y3*d + x1*x2*y2^2*x3*y3^2*d + x1*x2*x3^3*y3^2*d + x1*x2*x3^3 - x1*x2*x3*y3^2 + x1*x2*x3
      + x1*y2*x3^2*y3^3*d + x1*y2*x3^2*y3 - x1*y2*y3^3 + x1*y2*y3 + y1^3*x2^2*y2*x3*y3^2*d +
      y1^3*x2*y2^2*x3^2*y3*d - y1^3*x2*x3^2*y3^3*d - y1^3*x2*x3^2*y3 + y1^3*x2*y3^3 - y1^3*x2*y3 -
      y1^3*y2*x3^3*y3^2*d - y1^3*y2*x3^3 + y1^3*y2*x3*y3^2 - y1^3*y2*x3 - y1*x2^2*y2*x3*y3^2*d -
      y1*x2*y2^2*x3^2*y3*d + y1*x2*x3^2*y3^3*d + y1*x2*x3^2*y3 - y1*x2*y3^3 + y1*x2*y3 + y1*y2*x3^3*y3^2*d +
      y1*y2*x3^3 - y1*y2*x3*y3^2 + y1*y2*x3) * h2 +
      (-x1^3*x2^3*x3 - x1^3*x2^2*y2*y3 + x1^3*x2*y2^2*x3 - x1^3*x2*x3 + x1^3*y2^3*y3 - x1^3*y2*y3 -
      x1^2*y1*x2^3*y3 - x1^2*y1*x2^2*y2*x3*d - x1^2*y1*x2^2*y2*x3 + x1^2*y1*x2*y2^2*y3*d + x1^2*y1*x2*y2^2*y3
      - x1^2*y1*x2*y3 + x1^2*y1*y2^3*x3 - x1^2*y1*y2*x3 + x1*y1^2*x2^3*x3 + x1*y1^2*x2^2*y2*y3*d +
      x1*y1^2*x2^2*y2*y3 - x1*y1^2*x2*y2^2*x3*d - x1*y1^2*x2*y2^2*x3 + x1*y1^2*x2*x3 - x1*y1^2*y2^3*y3 +
      x1*y1^2*y2*y3 - x1*x2^3*x3 - x1*x2^2*y2*y3 + x1*x2*y2^2*x3 - x1*x2*x3 + x1*y2^3*y3 - x1*y2*y3 +
      y1^3*x2^3*y3 + y1^3*x2^2*y2*x3 - y1^3*x2*y2^2*y3 + y1^3*x2*y3 - y1^3*y2^3*x3 + y1^3*y2*x3 - y1*x2^3*y3 -
      y1*x2^2*y2*x3 + y1*x2*y2^2*y3 - y1*x2*y3 + y1*y2^3*x3 - y1*y2*x3) * h3

/-- Associativity, the y coordinate. -/
theorem curve_assoc_y (h1 : -x1 ^ 2 + y1 ^ 2 = 1 + d * x1 ^ 2 * y1 ^ 2) (h2 : -x2 ^ 2 + y2 ^ 2 = 1 + d * x2 ^ 2 * y2 ^ 2)
    (h3 : -x3 ^ 2 + y3 ^ 2 = 1 + d * x3 ^ 2 * y3 ^ 2)
    (d4x : 1 + d * x1 * x2 * y1 * y2 ≠ 0) (d4y : 1 - d * x1 * x2 * y1 * y2 ≠ 0)
    (d5x : 1 + d * x2 * x3 * y2 * y3 ≠ 0) (d5y : 1 - d * x2 * x3 * y2 * y3 ≠ 0)
    (hx4 : x4 * (1 + d * x1 * x2 * y1 * y2) = x1 * y2 + x2 * y1)
    (hy4 : y4 * (1 - d * x1 * x2 * y1 * y2) = y1 * y2 + x1 * x2)
    (hx5 : x5 * (1 + d * x2 * x3 * y2 * y3) = x2 * y3 + x3 * y2)
    (hy5 : y5 * (1 - d * x2 * x3 * y2 * y3) = y2 * y3 + x2 * x3)
    (dl : 1 - d * x4 * x3 * y4 * y3 ≠ 0) (dr : 1 - d * x1 * x5 * y1 * y5 ≠ 0) :
    (y4 * y3 + x4 * x3) * (1 - d * x4 * x3 * y4 * y3)⁻¹ = (y1 * y5 + x1 * x5) * (1 - d * x1 * x5 * y1 * y5)⁻¹ := by
  refine quotients_eq (mul_ne_zero d4x d4y) (mul_ne_zero d5x d5y) dl dr
    (A := (y1 * y2 + x1 * x2) * (1 + d * x1 * x2 * y1 * y2) * y3 + (x1 * y2 + x2 * y1) * (1 - d * x1 * x2 * y1 * y2) * x3)
    (B := (1 + d * x1 * x2 * y1 * y2) * (1 - d * x1 * x2 * y1 * y2) - d * (x1 * y2 + x2 * y1) * (y1 * y2 + x1 * x2) * x3 * y3)
    (C := y1 * (y2 * y3 + x2 * x3) * (1 + d * x2 * x3 * y2 * y3) + x1 * (x2 * y3 + x3 * y2) * (1 - d * x2 * x3 * y2 * y3))
    (D := (1 + d * x2 * x3 * y2 * y3) * (1 - d * x2 * x3 * y2 * y3) - d * x1 * y1 * (x2 * y3 + x3 * y2) * (y2 * y3 + x2 * x3))
    ?_ ?_ ?_ ?_ ?_
  · linear_combination y3 * (1 + d * x1 * x2 * y1 * y2) * hy4 + x3 * (1 - d * x1 * x2 * y1 * y2) * hx4
  · linear_combination -(d * x3 * y3 * y4 * (1 - d * x1 * x2 * y1 * y2)) * hx4 - d * x3 * y3 * (x1 * y2 + x2 * y1) * hy4
  · linear_combination y1 * (1 + d * x2 * x3 * y2 * y3) * hy5 + x1 * (1 - d * x2 * x3 * y2 * y3) * hx5
  · linear_combination -(d * x1 * y1 * y5 * (1 - d * x2 * x3 * y2 * y3)) * hx5 - d * x1 * y1 * (x2 * y3 + x3 * y2) * hy5
  · linear_combination
      (x1*x2^4*y2^3*x3*y3^2*d^2 + x1*x2^4*y2*x3*y3^2*d + x1*x2^3*y2^4*x3^2*y3*d^2 + x1*x2^3*y2^2*y3^3*d -
      x1*x2^3*y2^2*y3*d - x1*x2^2*y2^3*x3^3*d - x1*x2^2*y2^3*x3*d - x1*x2*y2^4*x3^2*y3*d -
      y1*x2^4*y2^3*x3^2*y3*d^2 - y1*x2^4*y2*x3^2*y3*d - y1*x2^3*y2^4*x3*y3^2*d^2 - y1*x2^3*y2^2*x3^3*d -
      y1*x2^3*y2^2*x3*d + y1*x2^2*y2^3*y3^3*d - y1*x2^2*y2^3*y3*d + y1*x2*y2^4*x3*y3^2*d) * h1 +
      (-x1^3*x2^2*y2*x3*y3^2*d - x1^3*x2*y2^2*x3^2*y3*d + x1^3*x2*x3^2*y3^3*d + x1^3*x2*x3^2*y3 - x1^3*x2*y3^3
      + x1^3*x2*y3 + x1^3*y2*x3^3*y3^2*d + x1^3*y2*x3^3 - x1^3*y2*x3*y3^2 + x1^3*y2*x3 +
      x1^2*y1*x2^2*y2*x3^2*y3^3*d^2 + x1^2*y1*x2^2*y2*x3^2*y3*d - x1^2*y1*x2*y2^2*x3^3*y3^2*d^2 +
      x1^2*y1*x2*y2^2*x3*y3^2*d + x1^2*y1*x2*x3^3*y3^2*d + x1^2*y1*x2*x3^3 - x1^2*y1*x2*x3*y3^2 +
      x1^2*y1*x2*x3 + x1^2*y1*y2*x3^2*y3^3*d + x1^2*y1*y2*x3^2*y3 - x1^2*y1*y2*y3^3 + x1^2*y1*y2*y3 -
      x1*y1^2*x2^2*y2*x3^3*y3^2*d^2 + x1*y1^2*x2^2*y2*x3*y3^2*d + x1*y1^2*x2*y2^2*x3^2*y3^3*d^2 +
      x1*y1^2*x2*y2^2*x3^2*y3*d - x1*y1^2*x2*x3^2*y3^3*d - x1*y1^2*x2*x3^2*y3 + x1*y1^2*x2*y3^3 -
      x1*y1^2*x2*y3 - x1*y1^2*y2*x3^3*y3^2*d - x1*y1^2*y2*x3^3 + x1*y1^2*y2*x3*y3^2 - x1*y1^2*y2*x3 -
      x1*x2^2*y2*x3*y3^2*d - x1*x2*y2^2*x3^2*y3*d + x1*x2*x3^2*y3^3*d + x1*x2*x3^2*y3 - x1*x2*y3^3 + x1*x2*y3
      + x1*y2*x3^3*y3^2*d + x1*y2*x3^3 - x1*y2*x3*y3^2 + x1*y2*x3 - y1^3*x2^2*y2*x3^2*y3*d -
      y1^3*x2*y2^2*x3*y3^2*d - y1^3*x2*x3^3*y3^2*d - y1^3*x2*x3^3 + y1^3*x2*x3*y3^2 - y1^3*x2*x3 -
      y1^3*y2*x3^2*y3^3*d - y1^3*y2*x3^2*y3 + y1^3*y2*y3^3 - y1^3*y2*y3 + y1*x2^2*y2*x3^2*y3*d +
      y1*x2*y2^2*x3*y3^2*d + y1*x2*x3^3*y3^2*d + y1*x2*x3^3 - y1*x2*x3*y3^2 + y1*x2*x3 + y1*y2*x3^2*y3^3*d +
      y1*y2*x3^2*y3 - y1*y2*y3^3 + y1*y2*y3) * h2 +
      (-x1^3*x2^3*y3 - x1^3*x2^2*y2*x3 + x1^3*x2*y2^2*y3 - x1^3*x2*y3 + x1^3*y2^3*x3 - x1^3*y2*x3 -
      x1^2*y1*x2^3*x3 - x1^2*y1*x2^2*y2*y3*d - x1^2*y1*x2^2*y2*y3 + x1^2*y1*x2*y2^2*x3*d + x1^2*y1*x2*y2^2*x3
      - x1^2*y1*x2*x3 + x1^2*y1*y2^3*y3 - x1^2*y1*y2*y3 + x1*y1^2*x2^3*y3 + x1*y1^2*x2^2*y2*x3*d +
      x1*y1^2*x2^2*y2*x3 - x1*y1^2*x2*y2^2*y3*d - x1*y1^2*x2*y2^2*y3 + x1*y1^2*x2*y3 - x1*y1^2*y2^3*x3 +
      x1*y1^2*y2*x3 - x1*x2^3*y3 - x1*x2^2*y2*x3 + x1*x2*y2^2*y3 - x1*x2*y3 + x1*y2^3*x3 - x1*y2*x3 +
      y1^3*x2^3*x3 + y1^3*x2^2*y2*y3 - y1^3*x2*y2^2*x3 + y1^3*x2*x3 - y1^3*y2^3*y3 + y1^3*y2*y3 - y1*x2^3*x3 -
      y1*x2^2*y2*y3 + y1*x2*y2^2*x3 - y1*x2*x3 + y1*y2^3*y3 - y1*y2*y3) * h3

/-- The addition law has no exceptional case where −1 is a square and d is none: no denominator vanishes. -/
theorem curve_complete (h20 : (2 : K) ≠ 0) {i : K} (hi : i ^ 2 = -1) (hd : ¬IsSquare d)
    (h1 : -x1 ^ 2 + y1 ^ 2 = 1 + d * x1 ^ 2 * y1 ^ 2) (h2 : -x2 ^ 2 + y2 ^ 2 = 1 + d * x2 ^ 2 * y2 ^ 2)
    {e : K} (he : e ^ 2 = 1) (h : d * x1 * x2 * y1 * y2 = e) : False := by
  have he0 : e ≠ 0 := by rintro rfl; simp at he
  have hx1 : x1 ≠ 0 := by rintro rfl; exact he0 (by rw [← h]; ring)
  have hy1 : y1 ≠ 0 := by rintro rfl; exact he0 (by rw [← h]; ring)
  have hx2 : x2 ≠ 0 := by rintro rfl; exact he0 (by rw [← h]; ring)
  have key : ∀ s : K, s ^ 2 = 1 → i * x2 + s * y2 = 0 := by
    intro s hs
    by_contra hne
    refine hd ⟨(i * x1 + s * e * y1) / (x1 * y1 * (i * x2 + s * y2)), ?_⟩
    have hden : x1 * y1 * (i * x2 + s * y2) ≠ 0 := mul_ne_zero (mul_ne_zero hx1 hy1) hne
    rw [div_mul_div_comm, eq_div_iff (mul_ne_zero hden hden)]
    subst h
    linear_combination (d * x1 ^ 2 * y1 ^ 2 * x2 ^ 2 - x1 ^ 2) * hi +
      (d * x1 ^ 2 * y1 ^ 2 * y2 ^ 2 - (d * x1 * x2 * y1 * y2) ^ 2 * y1 ^ 2) * hs + d * x1 ^ 2 * y1 ^ 2 * h2 - h1 +
      (1 - y1 ^ 2) * he
  have h1' := key 1 (by ring)
  have h2' := key (-1) (by ring)
  have hx : 2 * (i * x2) = 0 := by linear_combination h1' + h2'
  have hi0 : i ≠ 0 := by rintro rfl; simp at hi
  rcases mul_eq_zero.1 hx with h' | h'
  · exact h20 h'
  · rcases mul_eq_zero.1 h' with h' | h'
    · exact hi0 h'
    · exact hx2 h'

end AnyField

/-! The field of the curve. -/

theorem fieldP_prime : Nat.Prime fieldP := prime_25519

theorem fieldP_fact : Fact fieldP.Prime := ⟨fieldP_prime⟩

theorem resD_eq : resD = ((37095705934669439343138083508754565189542113879843219016388785533085940283555 : Nat) : ZMod fieldP) := by
  rw [resD, feRes]; congr 1

/-- √−1, spec/42_group_element.md R181. -/
theorem resI_sq : feRes curveSqrtM1 ^ 2 = -1 := by
  have h : vecVal curveSqrtM1 = 19681161376707505956807079304988542015446066515923890162744021073123829784752 := by decide
  rw [feRes, h, eq_neg_iff_add_eq_zero]
  have : ((19681161376707505956807079304988542015446066515923890162744021073123829784752 ^ 2 + 1 : Nat) : ZMod fieldP) = 0 :=
    (ZMod.natCast_eq_zero_iff _ _).2 (by decide)
  exact_mod_cast this

theorem two_ne_zero_fieldP : (2 : ZMod fieldP) ≠ 0 := by
  intro h
  have : fieldP ∣ 2 := (ZMod.natCast_eq_zero_iff 2 fieldP).1 (by exact_mod_cast h)
  exact absurd (Nat.le_of_dvd (by norm_num) this) (by decide)

/-- d is not a square mod p (spec/42_group_element.md R189), by Euler's criterion. -/
theorem resD_not_square : ¬IsSquare resD := by
  have := fieldP_fact
  have e : ((37095705934669439343138083508754565189542113879843219016388785533085940283555 : Nat) :
      ZMod 57896044618658097711785492504343953926634992332820282019728792003956564819949) ^
      28948022309329048855892746252171976963317496166410141009864396001978282409974 =
      ((57896044618658097711785492504343953926634992332820282019728792003956564819948 : Nat) : ZMod _) := by
    norm_num; reduce_mod_char
  have e' : resD ^ (fieldP / 2) =
      ((57896044618658097711785492504343953926634992332820282019728792003956564819948 : Nat) : ZMod fieldP) := by
    rw [resD_eq]; exact e
  have hpow : resD ^ (fieldP / 2) ≠ 1 := by
    rw [e']; exact natCast_ne_one (by decide)
  have h0 : resD ≠ 0 := by
    intro h
    rw [resD_eq, ZMod.natCast_eq_zero_iff] at h
    exact absurd h (by decide)
  exact fun h => hpow ((ZMod.euler_criterion fieldP h0).1 h)

/-! The group. -/

theorem resD_complete {x1 y1 x2 y2 : ZMod fieldP} (h1 : OnCurve x1 y1) (h2 : OnCurve x2 y2) :
    1 + resD * x1 * x2 * y1 * y2 ≠ 0 ∧ 1 - resD * x1 * x2 * y1 * y2 ≠ 0 := by
  have := fieldP_fact
  refine ⟨fun h => ?_, fun h => ?_⟩
  · exact curve_complete two_ne_zero_fieldP resI_sq resD_not_square h1 h2 (e := -1) (by ring) (by linear_combination h)
  · exact curve_complete two_ne_zero_fieldP resI_sq resD_not_square h1 h2 (e := 1) (by ring) (by linear_combination -h)

theorem edAdd_coords {x1 y1 x2 y2 : ZMod fieldP} (h1 : OnCurve x1 y1) (h2 : OnCurve x2 y2) :
    (edAdd (x1, y1) (x2, y2)).1 * (1 + resD * x1 * x2 * y1 * y2) = x1 * y2 + x2 * y1 ∧
      (edAdd (x1, y1) (x2, y2)).2 * (1 - resD * x1 * x2 * y1 * y2) = y1 * y2 + x1 * x2 := by
  have := fieldP_fact
  obtain ⟨ha, hb⟩ := resD_complete h1 h2
  exact ⟨inv_mul_cancel_right₀ ha _, inv_mul_cancel_right₀ hb _⟩

/-- The sum of two points of the curve is a point of the curve. -/
theorem onCurve_edAdd {p q : ZMod fieldP × ZMod fieldP} (hp : OnCurve p.1 p.2) (hq : OnCurve q.1 q.2) :
    OnCurve (edAdd p q).1 (edAdd p q).2 := by
  have := fieldP_fact
  obtain ⟨ha, hb⟩ := resD_complete hp hq
  obtain ⟨h1, h2⟩ := edAdd_coords hp hq
  exact curve_closed hp hq ha hb h1 h2

theorem edAdd_comm (p q : ZMod fieldP × ZMod fieldP) : edAdd p q = edAdd q p := by
  simp only [edAdd]
  rw [show p.1 * q.2 + q.1 * p.2 = q.1 * p.2 + p.1 * q.2 by ring, show p.2 * q.2 + p.1 * q.1 = q.2 * p.2 + q.1 * p.1 by ring,
    show resD * p.1 * q.1 * p.2 * q.2 = resD * q.1 * p.1 * q.2 * p.2 by ring]

theorem edAdd_assoc {p q r : ZMod fieldP × ZMod fieldP} (hp : OnCurve p.1 p.2) (hq : OnCurve q.1 q.2)
    (hr : OnCurve r.1 r.2) : edAdd (edAdd p q) r = edAdd p (edAdd q r) := by
  have := fieldP_fact
  obtain ⟨a4, b4⟩ := resD_complete hp hq
  obtain ⟨a5, b5⟩ := resD_complete hq hr
  obtain ⟨hx4, hy4⟩ := edAdd_coords hp hq
  obtain ⟨hx5, hy5⟩ := edAdd_coords hq hr
  obtain ⟨la, lb⟩ := resD_complete (onCurve_edAdd hp hq) hr
  obtain ⟨ra, rb⟩ := resD_complete hp (onCurve_edAdd hq hr)
  exact Prod.ext (curve_assoc_x hp hq hr a4 b4 a5 b5 hx4 hy4 hx5 hy5 la ra)
    (curve_assoc_y hp hq hr a4 b4 a5 b5 hx4 hy4 hx5 hy5 lb rb)

theorem onCurve_zero : OnCurve 0 1 := by simp [OnCurve]

theorem edAdd_zero (p : ZMod fieldP × ZMod fieldP) : edAdd (0, 1) p = p := by
  have := fieldP_fact
  simp [edAdd]

theorem onCurve_neg {x y : ZMod fieldP} (h : OnCurve x y) : OnCurve (-x) y := by
  unfold OnCurve at *
  linear_combination h

/-- −(x, y) = (−x, y) (spec/42_group_element.md R180). -/
theorem edAdd_neg {x y : ZMod fieldP} (h : OnCurve x y) : edAdd (-x, y) (x, y) = (0, 1) := by
  have := fieldP_fact
  obtain ⟨-, hb⟩ := resD_complete (onCurve_neg h) h
  refine Prod.ext ?_ ?_
  · show (-x * y + x * y) * _ = 0
    ring
  · show (y * y + -x * x) * (1 - resD * -x * x * y * y)⁻¹ = 1
    rw [show y * y + -x * x = 1 - resD * -x * x * y * y by unfold OnCurve at h; linear_combination h]
    exact mul_inv_cancel₀ hb

/-- The points of the curve. -/
abbrev CurvePoint := { p : ZMod fieldP × ZMod fieldP // OnCurve p.1 p.2 }

/-- The points of the curve as an additive group. -/
@[reducible] def curveGroup : AddCommGroup CurvePoint :=
  letI : Zero CurvePoint := ⟨⟨(0, 1), onCurve_zero⟩⟩
  letI : Add CurvePoint := ⟨fun p q => ⟨edAdd p.1 q.1, onCurve_edAdd p.2 q.2⟩⟩
  letI : Neg CurvePoint := ⟨fun p => ⟨(-p.1.1, p.1.2), onCurve_neg p.2⟩⟩
  { AddGroup.ofLeftAxioms (G := CurvePoint) (fun p q r => Subtype.ext (edAdd_assoc p.2 q.2 r.2))
      (fun p => Subtype.ext (edAdd_zero p.1)) (fun p => Subtype.ext (edAdd_neg p.2)) with
    add_comm := fun p q => Subtype.ext (edAdd_comm p.1 q.1) }

/-- n·P is the n-fold sum of the group. -/
theorem edMul_eq_nsmul (n : Nat) (p : CurvePoint) : edMul n p.1 = (letI := curveGroup; (n • p : CurvePoint)).1 := by
  let := curveGroup
  induction n with
  | zero => exact (congrArg Subtype.val (zero_nsmul p)).symm
  | succ n ih =>
    rw [edMul, ih]
    exact (congrArg Subtype.val (succ_nsmul p n)).symm

theorem onCurve_edMul (n : Nat) {p : ZMod fieldP × ZMod fieldP} (hp : OnCurve p.1 p.2) :
    OnCurve (edMul n p).1 (edMul n p).2 := by
  induction n with
  | zero => exact onCurve_zero
  | succ n ih => exact onCurve_edAdd ih hp

end Sys2Proof.Machine
end

