-- ==== Sys2Proof/Laws/Encoding.lean ====
section
/-! SUPPORT. Words and their fields (spec/30_encoding.md R76, R85), and masks field by field. -/

namespace Sys2Proof

/-- The fields fit their widths, R76. -/
structure Fields.Fit (f : Fields) : Prop where
  op : f.op < 256
  rd : f.rd < 16
  ra : f.ra < 16
  rb : f.rb < 16
  imm : f.imm < 4096

theorem fit_mk {op rd ra rb imm : Nat} (h1 : op < 256) (h2 : rd < 16) (h3 : ra < 16) (h4 : rb < 16) (h5 : imm < 4096) :
    Fields.Fit ⟨op, rd, ra, rb, imm⟩ := ⟨h1, h2, h3, h4, h5⟩

theorem fieldsOf_fit (w : Word) : (fieldsOf w).Fit := by
  have := w.isLt
  constructor <;> simp only [fieldsOf] <;> omega

/-- R85: decoding reads back the fields. -/
theorem fieldsOf_wordOf {f : Fields} (h : f.Fit) : fieldsOf (wordOf f.op f.rd f.ra f.rb f.imm) = f := by
  obtain ⟨op, rd, ra, rb, imm⟩ := f
  obtain ⟨h1, h2, h3, h4, h5⟩ := h
  simp only at *
  simp only [fieldsOf, wordOf, BitVec.toNat_ofNat, Fields.mk.injEq]
  refine ⟨?_, ?_, ?_, ?_, ?_⟩ <;> omega

/-- R85: a word is that of its fields. -/
theorem wordOf_fieldsOf (w : Word) :
    wordOf (fieldsOf w).op (fieldsOf w).rd (fieldsOf w).ra (fieldsOf w).rb (fieldsOf w).imm = w := by
  apply BitVec.eq_of_toNat_eq
  have := w.isLt
  simp only [fieldsOf, wordOf, BitVec.toNat_ofNat]
  omega

theorem land_shift (k : Nat) {a b c d : Nat} (hb : b < 2 ^ k) (hd : d < 2 ^ k) :
    (a * 2 ^ k + b) &&& (c * 2 ^ k + d) = (a &&& c) * 2 ^ k + (b &&& d) := by
  apply Nat.eq_of_testBit_eq
  intro i
  have hbd : b &&& d < 2 ^ k := lt_of_le_of_lt Nat.and_le_left hb
  rw [Nat.testBit_and, Nat.mul_comm a, Nat.mul_comm c, Nat.mul_comm (a &&& c), Nat.testBit_two_pow_mul_add a hb,
    Nat.testBit_two_pow_mul_add c hd, Nat.testBit_two_pow_mul_add _ hbd]
  split <;> simp [Nat.testBit_and]

theorem wordOf_toNat {f : Fields} (h : f.Fit) :
    (wordOf f.op f.rd f.ra f.rb f.imm).toNat =
      (((f.op * 2 ^ 4 + f.rd) * 2 ^ 4 + f.ra) * 2 ^ 4 + f.rb) * 2 ^ 12 + f.imm := by
  obtain ⟨h1, h2, h3, h4, h5⟩ := h
  simp only [wordOf, BitVec.toNat_ofNat]
  omega

/-- A mask is applied field by field. -/
theorem wordOf_and {f m : Fields} (hf : f.Fit) (hm : m.Fit) :
    wordOf f.op f.rd f.ra f.rb f.imm &&& wordOf m.op m.rd m.ra m.rb m.imm =
      wordOf (f.op &&& m.op) (f.rd &&& m.rd) (f.ra &&& m.ra) (f.rb &&& m.rb) (f.imm &&& m.imm) := by
  apply BitVec.eq_of_toNat_eq
  have le := fun {a b n : Nat} (h : a < n) => lt_of_le_of_lt (Nat.and_le_left (n := a) (m := b)) h
  have hfm : Fields.Fit ⟨f.op &&& m.op, f.rd &&& m.rd, f.ra &&& m.ra, f.rb &&& m.rb, f.imm &&& m.imm⟩ :=
    ⟨le hf.op, le hf.rd, le hf.ra, le hf.rb, le hf.imm⟩
  rw [BitVec.toNat_and, wordOf_toNat hf, wordOf_toNat hm, wordOf_toNat hfm, land_shift 12 hf.imm hm.imm,
    land_shift 4 hf.rb hm.rb, land_shift 4 hf.ra hm.ra, land_shift 4 hf.rd hm.rd]

/-- Words of fields are equal exactly when the fields are. -/
theorem wordOf_inj {f g : Fields} (hf : f.Fit) (hg : g.Fit)
    (h : wordOf f.op f.rd f.ra f.rb f.imm = wordOf g.op g.rd g.ra g.rb g.imm) : f = g := by
  rw [← fieldsOf_wordOf hf, ← fieldsOf_wordOf hg, h]

/-! The masks of the map, field by field. -/

theorem land_full8 {a : Nat} (h : a < 256) : a &&& 0xFF = a := by
  rw [Nat.and_two_pow_sub_one_eq_mod a 8]; omega

theorem land_full4 {a : Nat} (h : a < 16) : a &&& 0xF = a := by
  rw [Nat.and_two_pow_sub_one_eq_mod a 4]; omega

theorem land_full12 {a : Nat} (h : a < 4096) : a &&& 0xFFF = a := by
  rw [Nat.and_two_pow_sub_one_eq_mod a 12]; omega

/-- R78: bits 3:2 of an SC or GE index. -/
theorem land_idx {a : Nat} (h : a < 16) : a &&& 0xC = 0 ↔ a < 4 := by
  have : ∀ a < 16, (a &&& 0xC = 0 ↔ a < 4) := by decide
  exact this a h

/-- R77, format DABC: imm12[11:2]. -/
theorem land_rc {a : Nat} (h : a < 4096) : a &&& 0xFFC = 0 ↔ a < 4 := by
  have e : a = a / 4 * 2 ^ 2 + a % 4 := by omega
  have hl := land_shift 2 (a := a / 4) (b := a % 4) (c := 0x3FF) (d := 0) (by omega) (by omega)
  rw [e, show (0xFFC : Nat) = 0x3FF * 2 ^ 2 + 0 from rfl, hl, Nat.and_two_pow_sub_one_eq_mod _ 10, Nat.and_zero]
  omega

theorem land_idx_zero {a : Nat} (h : a < 4) : a &&& 0xC = 0 := (land_idx (by omega)).2 h

theorem land_rc_zero {a : Nat} (h : a < 4) : a &&& 0xFFC = 0 := (land_rc (by omega)).2 h

/-- A word matches a mask and a match value given as words of fields exactly when it does so field by field. -/
theorem accepts_iff {f m v : Fields} (hf : f.Fit) (hm : m.Fit) (hv : v.Fit) :
    wordOf f.op f.rd f.ra f.rb f.imm &&& wordOf m.op m.rd m.ra m.rb m.imm = wordOf v.op v.rd v.ra v.rb v.imm ↔
      f.op &&& m.op = v.op ∧ f.rd &&& m.rd = v.rd ∧ f.ra &&& m.ra = v.ra ∧ f.rb &&& m.rb = v.rb ∧
        f.imm &&& m.imm = v.imm := by
  rw [wordOf_and hf hm]
  have le := fun {a b n : Nat} (h : a < n) => lt_of_le_of_lt (Nat.and_le_left (n := a) (m := b)) h
  constructor
  · intro h
    have e := wordOf_inj (f := ⟨f.op &&& m.op, f.rd &&& m.rd, f.ra &&& m.ra, f.rb &&& m.rb, f.imm &&& m.imm⟩)
      ⟨le hf.op, le hf.rd, le hf.ra, le hf.rb, le hf.imm⟩ hv h
    subst e
    exact ⟨rfl, rfl, rfl, rfl, rfl⟩
  · rintro ⟨h1, h2, h3, h4, h5⟩
    rw [h1, h2, h3, h4, h5]

end Sys2Proof
end

