-- ==== Sys2Proof/Laws/Exact.lean ====
section
/-! SUPPORT. The exact representative the FE arithmetic leaves, not only its residue (spec/40_field_element.md R102, R103,
R108 to R110): `reducedVal` of the integer that enters carry propagation. -/
namespace Sys2Proof.Machine

/-- A pass leaves a value below 2^255 alone. -/
theorem limbVal_fePass_small {v : List Nat} (h : v.length = 32) (hv : limbVal v < 2 ^ 255) :
    limbVal (fePass v) = limbVal v := by
  have h1 := limbVal_fePass h
  have h2 := limbVal_split h
  have h3 : v.getD 31 0 / 128 = 0 := by
    have e : (2 : Nat) ^ 255 = 256 ^ 31 * 128 := by norm_num
    rw [h2, e] at hv
    have : v.getD 31 0 < 128 := by
      by_contra hn
      have := Nat.mul_le_mul_left (256 ^ 31) (Nat.le_of_not_lt hn)
      omega
    omega
  rw [h3] at h1
  omega

/-- A pass that subtracts p leaves at least 19: the fold adds 19 for each p taken away. -/
theorem limbVal_fePass_ge {v : List Nat} (h : v.length = 32) (hv : 19 ≤ limbVal v) : 19 ≤ limbVal (fePass v) := by
  have h1 := limbVal_fePass h
  have h2 := limbVal_split h
  have e : fieldP + 19 = 256 ^ 31 * 128 := by decide
  have h3 := Nat.mul_le_mul_left (256 ^ 31) (Nat.div_mul_le_self (v.getD 31 0) 128)
  have h4 : v.getD 31 0 / 128 * fieldP + v.getD 31 0 / 128 * 19 = 256 ^ 31 * (v.getD 31 0 / 128 * 128) := by
    rw [← Nat.mul_add, e]; ring
  rcases Nat.eq_zero_or_pos (v.getD 31 0 / 128) with h5 | h5
  · rw [h5] at h1; omega
  · omega

/-- Carry propagation that ends below 2^255 ends at one definite representative. -/
theorem limbVal_feReduce_exact {v : List Nat} (h : v.length = 32) (n : Nat) (hr : limbVal (feReduce v n) < 2 ^ 255) :
    limbVal (feReduce v n) = reducedVal (limbVal v) := by
  have small : ∀ n, ∀ v : List Nat, v.length = 32 → limbVal v < 2 ^ 255 → limbVal (feReduce v n) = limbVal v := by
    intro n
    induction n with
    | zero => intro v _ _; rfl
    | succ n ih =>
      intro v h hv
      have e := limbVal_fePass_small h hv
      rw [feReduce, ih _ (by simp [h]) (by rw [e]; exact hv), e]
  have ge : ∀ n, ∀ v : List Nat, v.length = 32 → 19 ≤ limbVal v → 19 ≤ limbVal (feReduce v n) := by
    intro n
    induction n with
    | zero => intro v _ hv; exact hv
    | succ n ih => intro v h hv; exact ih _ (by simp [h]) (limbVal_fePass_ge h hv)
  unfold reducedVal
  split
  · rename_i hv; exact small n v h hv
  · rename_i hv
    have hp := fieldP_add
    have h19 : 19 ≤ limbVal v := by omega
    have hg := ge n v h h19
    have hm : limbVal (feReduce v n) % fieldP = limbVal v % fieldP := by
      have := limbVal_feReduce v h n
      exact (ZMod.natCast_eq_natCast_iff' _ _ _).1 this
    have hm' : (limbVal (feReduce v n) - 19) % fieldP = (limbVal v - 19) % fieldP := by
      have : limbVal (feReduce v n) - 19 + 19 ≡ limbVal v - 19 + 19 [MOD fieldP] := by
        rw [Nat.sub_add_cancel hg, Nat.sub_add_cancel h19]; exact hm
      exact Nat.ModEq.add_right_cancel' 19 this
    rw [← hm', Nat.mod_eq_of_lt (by omega)]
    omega

theorem vecVal_add (x y : Fe) : vecVal (feAdd x y) = reducedVal (vecVal x + vecVal y) := by
  have h := reduced_add x y
  rw [feAdd, h.vecVal_pack, limbVal_feReduce_exact (by simp) 4 h.value, limbVal_addLimbs]
  rfl

theorem vecVal_sub (x : Fe) {y : Fe} (hy : feInv y) :
    vecVal (feSub x y) = reducedVal (vecVal x + 2 * fieldP - vecVal y) := by
  have h := reduced_sub x y
  rw [feSub, h.vecVal_pack, limbVal_feReduce_exact (subLimbs_length x y) 4 h.value]
  have := limbVal_subLimbs x hy
  congr 1
  omega

/-- A list of limbs against weights. -/
def weigh (l : List Nat) (g : Nat → Nat) : Nat := ∑ i ∈ Finset.range l.length, l.getD i 0 * g i

theorem weigh_cons (x : Nat) (xs : List Nat) (g : Nat → Nat) :
    weigh (x :: xs) g = x * g 0 + weigh xs (fun i => g (i + 1)) := by
  rw [weigh, List.length_cons, Finset.sum_range_succ', Nat.add_comm]
  rfl

theorem weigh_add (xs ys : List Nat) (g : Nat → Nat) : weigh (addLimbs xs ys) g = weigh xs g + weigh ys g := by
  induction xs generalizing ys g with
  | nil => simp [weigh]
  | cons x xs ih =>
    cases ys with
    | nil => simp [weigh]
    | cons y ys => rw [addLimbs, weigh_cons, weigh_cons, weigh_cons, ih]; ring

theorem weigh_scale (k : Nat) (xs : List Nat) (g : Nat → Nat) : weigh (scaleLimbs k xs) g = k * weigh xs g := by
  rw [weigh, weigh, scaleLimbs_length, Finset.mul_sum]
  exact Finset.sum_congr rfl fun i _ => by rw [getD_scaleLimbs, Nat.mul_assoc]

theorem weigh_conv (xs ys : List Nat) (g : Nat → Nat) :
    weigh (convLimbs xs ys) g = weigh xs fun i => weigh ys fun j => g (i + j) := by
  induction xs generalizing g with
  | nil => simp [weigh, convLimbs]
  | cons x xs ih =>
    rw [convLimbs, weigh_add, weigh_scale, weigh_cons, weigh_cons, ih]
    simp only [Nat.zero_mul, Nat.zero_add]
    congr 2
    funext i
    congr 1
    funext j
    rw [Nat.add_right_comm]

theorem limbVal_eq_weigh (l : List Nat) : limbVal l = weigh l (256 ^ ·) := by
  have : ∀ k, 256 ^ k * limbVal l = weigh l (fun i => 256 ^ (k + i)) := by
    induction l with
    | nil => simp [weigh]
    | cons x xs ih =>
      intro k
      have h := ih (k + 1)
      rw [weigh_cons, limbVal_cons]
      have e : (fun i => 256 ^ (k + (i + 1))) = fun i => 256 ^ (k + 1 + i) := by funext i; congr 1; omega
      rw [e, ← h]
      ring
  simpa using this 0

theorem limbVal_foldLimbs {l : List Nat} (h : 32 ≤ l.length) : limbVal (foldLimbs l) = weigh l foldWeight := by
  have happ : ∀ (a b : List Nat) (g : Nat → Nat), weigh (a ++ b) g = weigh a g + weigh b fun i => g (a.length + i) := by
    intro a
    induction a with
    | nil => intro b g; simp [weigh]
    | cons x xs ih =>
      intro b g
      rw [List.cons_append, weigh_cons, weigh_cons, ih]
      simp only [List.length_cons, Nat.add_right_comm, Nat.add_assoc]
  rw [foldLimbs, limbVal_addLimbs, limbVal_scaleLimbs]
  conv_rhs => rw [← List.take_append_drop 32 l, happ]
  have hl : (l.take 32).length = 32 := by simp [h]
  rw [hl, limbVal_eq_weigh, limbVal_eq_weigh, weigh, weigh, weigh, weigh, hl, Finset.mul_sum]
  refine congrArg₂ (· + ·) ?_ ?_
  · refine Finset.sum_congr rfl fun i hi => ?_
    rw [foldWeight, if_pos (Finset.mem_range.1 hi)]
  · refine Finset.sum_congr rfl fun i _ => ?_
    have e : foldWeight (32 + i) = 38 * 256 ^ i := by
      unfold foldWeight
      rw [if_neg (by omega), Nat.add_sub_cancel_left]
    rw [e]
    ring

theorem weigh_limbs {n : Nat} (v : Vector Byte n) (g : Nat → Nat) : weigh (limbs v) g = ∑ i : Fin n, v[i].toNat * g i := by
  rw [weigh, limbs_length, Finset.sum_range]
  refine Finset.sum_congr rfl fun i _ => ?_
  rw [getD_limbs v i.isLt]
  rfl

theorem limbVal_fold_conv (x y : Fe) : limbVal (foldLimbs (convLimbs (limbs x) (limbs y))) = foldedProduct x y := by
  rw [limbVal_foldLimbs (by rw [conv_length]; omega), weigh_conv, weigh_limbs, foldedProduct]
  refine Finset.sum_congr rfl fun i _ => ?_
  rw [weigh_limbs, Finset.mul_sum]
  exact Finset.sum_congr rfl fun j _ => by ring

theorem vecVal_mul (x y : Fe) : vecVal (feMul x y) = reducedVal (foldedProduct x y) := by
  have h := reduced_mul x y
  rw [feMul, h.vecVal_pack, limbVal_feReduce_exact (by simp [foldLimbs, conv_length]) 3 h.value, limbVal_fold_conv]

theorem feAdd_comm (x y : Fe) : feAdd x y = feAdd y x := by rw [feAdd, feAdd, addLimbs_comm]

theorem foldedProduct_comm (x y : Fe) : foldedProduct x y = foldedProduct y x := by
  unfold foldedProduct
  rw [Finset.sum_comm]
  refine Finset.sum_congr rfl fun i _ => Finset.sum_congr rfl fun j _ => ?_
  rw [Nat.mul_comm (BitVec.toNat x[j]), Nat.add_comm (Fin.val j)]

theorem feMul_comm (x y : Fe) : feMul x y = feMul y x := by
  apply vecVal_inj
  rw [vecVal_mul, vecVal_mul, foldedProduct_comm]

end Sys2Proof.Machine
end

