-- ==== Sys2Proof/Laws/Scalar.lean ====
section
/-! SUPPORT. The value laws of the SC unit: the borrow chain against L (spec/41_scalar.md R143), Barrett reduction (R144,
R145), the predicates and the recodings (R152 to R159). -/

namespace Sys2Proof.Machine

theorem lLimbs_below : LimbsBelow 256 lLimbs := limbsOf_below _ _

theorem limbVal_lLimbs : limbVal lLimbs = groupOrder := by decide

theorem limbVal_muLimbs : limbVal muLimbs = barrettMu := by decide

theorem muLimbs_length : muLimbs.length = 33 := by simp [muLimbs]

theorem lLimbs_length : lLimbs.length = 32 := by simp [lLimbs]

/-! Carries that end within 8 bits. -/

theorem below_of_dropLast {l : List Nat} (h : LimbsBelow 256 l.dropLast) (hv : limbVal l < 256 ^ l.length) :
    LimbsBelow 256 l := by
  by_cases hne : l = []
  · subst hne; exact limbsBelow_nil 256
  · have e := List.dropLast_append_getLast hne
    have hl : l.dropLast.length + 1 = l.length := by
      have := List.length_pos_iff.2 hne
      rw [List.length_dropLast]; omega
    have hlast : l.getLast hne < 256 := by
      rw [← hl, Nat.pow_succ] at hv
      conv at hv => lhs; rw [← e, limbVal_append]
      simp only [limbVal_cons, limbVal_nil, Nat.mul_zero, Nat.add_zero] at hv
      have : 256 ^ l.dropLast.length * l.getLast hne < 256 ^ l.dropLast.length * 256 := by omega
      exact lt_of_mul_lt_mul_left this (by positivity)
    intro x hx
    rw [← e, List.mem_append, List.mem_singleton] at hx
    rcases hx with hx | rfl
    · exact h x hx
    · exact hlast

theorem carryLimbs_below {c : Nat} {l : List Nat} (hne : l ≠ []) (h : limbVal l + c < 256 ^ l.length) :
    LimbsBelow 256 (carryLimbs c l) :=
  below_of_dropLast (carryLimbs_dropLast_below c l) (by rw [limbVal_carryLimbs c hne, carryLimbs_length]; exact h)

/-! sc_trysub and the corrective step. -/

/-- R143: "`borrow = 1` exactly when `val(r) < L`", and without a borrow `val(t) = val(r) − L`. -/
theorem scTrysub_spec {r : List Nat} (hl : r.length = 32) (h : LimbsBelow 256 r) :
    LimbsBelow 256 (scTrysub r).1 ∧ (scTrysub r).1.length = 32 ∧
      ((limbVal r < groupOrder ∧ (scTrysub r).2 = 1) ∨
        (groupOrder ≤ limbVal r ∧ (scTrysub r).2 = 0 ∧ limbVal (scTrysub r).1 + groupOrder = limbVal r)) := by
  obtain ⟨h1, h2⟩ := borrowLimbs_spec (bo := 0) h lLimbs_below (by rw [lLimbs_length, hl]) (by omega)
  have hb := borrowLimbs_borrow_le 0 r lLimbs (by omega)
  have hlt := limbVal_lt h1
  have hr := limbVal_lt h
  rw [borrowLimbs_length] at hlt
  rw [hl] at h2 hlt hr
  rw [limbVal_lLimbs] at h2
  have hLp : groupOrder < 256 ^ 32 := by decide
  refine ⟨h1, by simp [scTrysub, hl], ?_⟩
  show (limbVal r < groupOrder ∧ (borrowLimbs 0 r lLimbs).2 = 1) ∨
    (groupOrder ≤ limbVal r ∧ (borrowLimbs 0 r lLimbs).2 = 0 ∧ limbVal (borrowLimbs 0 r lLimbs).1 + groupOrder = limbVal r)
  generalize limbVal (borrowLimbs 0 r lLimbs).1 = v at *
  generalize (borrowLimbs 0 r lLimbs).2 = b at *
  rcases (by omega : b = 0 ∨ b = 1) with rfl | rfl
  · right; omega
  · left; omega

/-- R144: one corrective step subtracts L once where the value is at least L. -/
theorem scCorrect_spec {r : List Nat} (hl : r.length = 32) (h : LimbsBelow 256 r) :
    LimbsBelow 256 (scCorrect r) ∧ (scCorrect r).length = 32 ∧
      limbVal (scCorrect r) = if groupOrder ≤ limbVal r then limbVal r - groupOrder else limbVal r := by
  obtain ⟨h1, h2, h3⟩ := scTrysub_spec hl h
  rcases h3 with ⟨hlt, hb⟩ | ⟨hge, hb, hv⟩
  · have e : scCorrect r = r := by simp [scCorrect, hb]
    rw [e, if_neg (by omega)]
    exact ⟨h, hl, rfl⟩
  · have e : scCorrect r = (scTrysub r).1 := by simp [scCorrect, hb]
    rw [e, if_pos hge]
    exact ⟨h1, h2, by omega⟩

/-! Barrett reduction, R145. -/

theorem mu_mul_lt {a : Nat} (h : a < 256 ^ 33) : barrettMu * a < 256 ^ 66 := by
  have hm : barrettMu < 256 ^ 33 := by decide
  calc barrettMu * a < 256 ^ 33 * 256 ^ 33 := Nat.mul_lt_mul'' hm h
    _ = 256 ^ 66 := by norm_num

/-- R144: the quotient estimate is ⌊⌊X / b^31⌋·μ / b^33⌋. -/
theorem barrettQuotient_spec {x : List Nat} (hl : x.length = 64) (h : LimbsBelow 256 x) :
    LimbsBelow 256 (barrettQuotient x) ∧ (barrettQuotient x).length = 33 ∧
      limbVal (barrettQuotient x) = limbVal x / 256 ^ 31 * barrettMu / 256 ^ 33 := by
  have hq : limbVal (x.drop 31) = limbVal x / 256 ^ 31 := limbVal_drop h 31 (by omega)
  have hqlt : limbVal (x.drop 31) < 256 ^ 33 := by
    have := limbVal_lt (l := x.drop 31) fun y hy => h y (List.mem_of_mem_drop hy)
    simpa [hl] using this
  have hcl : (convLimbs muLimbs (x.drop 31)).length = 65 := by
    have hm := muLimbs_length
    generalize muLimbs = m at *
    cases m with
    | nil => simp at hm
    | cons c cs =>
      rw [convLimbs_length c cs _ (by intro e; have := congrArg List.length e; simp [hl] at this)]
      simp [hl] at hm ⊢; omega
  have hne : padTo 66 (convLimbs muLimbs (x.drop 31)) ≠ [] := by
    intro e; have := congrArg List.length e; simp at this
  have hv : limbVal (padTo 66 (convLimbs muLimbs (x.drop 31))) = barrettMu * limbVal (x.drop 31) := by
    rw [limbVal_padTo (by omega), limbVal_convLimbs, limbVal_muLimbs]
  have hbel : LimbsBelow 256 (carryLimbs 0 (padTo 66 (convLimbs muLimbs (x.drop 31)))) := by
    refine carryLimbs_below hne ?_
    rw [hv, length_padTo, Nat.add_zero]
    exact mu_mul_lt hqlt
  refine ⟨fun y hy => hbel y (List.mem_of_mem_drop hy), by simp [barrettQuotient], ?_⟩
  show limbVal ((carryLimbs 0 (padTo 66 (convLimbs muLimbs (x.drop 31)))).drop 33) = _
  rw [limbVal_drop hbel 33 (by simp), limbVal_carryLimbs 0 hne, hv, hq, Nat.add_zero, Nat.mul_comm]

/-- R144: r2 is (q3·L) mod b^33. -/
theorem barrettProduct_spec {q : List Nat} (hl : q.length = 33) :
    LimbsBelow 256 (barrettProduct q) ∧ (barrettProduct q).length = 33 ∧
      limbVal (barrettProduct q) = groupOrder * limbVal q % 256 ^ 33 := by
  have hcl : (convLimbs lLimbs q).length = 64 := by
    have hm := lLimbs_length
    generalize lLimbs = m at *
    cases m with
    | nil => simp at hm
    | cons c cs =>
      rw [convLimbs_length c cs _ (by intro e; simp [e] at hl)]
      simp [hl] at hm ⊢; omega
  have htl : ((convLimbs lLimbs q).take 33).length = 33 := by simp [hcl]
  have hne : (convLimbs lLimbs q).take 33 ≠ [] := by intro e; simp [e] at htl
  have hval := limbVal_take_add_drop 33 (convLimbs lLimbs q) (by omega)
  rw [limbVal_convLimbs, limbVal_lLimbs] at hval
  have hc := limbVal_carryLimbs 0 hne
  have hcd := carryLimbs_dropLast_below 0 ((convLimbs lLimbs q).take 33)
  have hclen : (carryLimbs 0 ((convLimbs lLimbs q).take 33)).length = 33 := by simp [htl]
  have e : barrettProduct q = (carryLimbs 0 ((convLimbs lLimbs q).take 33)).set 32
      ((carryLimbs 0 ((convLimbs lLimbs q).take 33)).getD 32 0 % 256) := rfl
  rw [e]
  generalize carryLimbs 0 ((convLimbs lLimbs q).take 33) = c at *
  have hs := limbVal_set (l := c) (i := 32) (by omega) (c.getD 32 0 % 256)
  have hbel : LimbsBelow 256 (c.set 32 (c.getD 32 0 % 256)) := by
    intro y hy
    have hne' : c ≠ [] := by intro e; simp [e] at hclen
    rw [← List.dropLast_append_getLast hne', List.set_append_right _ _ (by simp [hclen])] at hy
    simp only [List.length_dropLast, hclen, List.mem_append] at hy
    rcases hy with hy | hy
    · exact hcd y hy
    · simp at hy; omega
  refine ⟨hbel, by simp [hclen], ?_⟩
  have hlt := limbVal_lt hbel
  rw [List.length_set, hclen] at hlt
  have hm := Nat.div_add_mod (c.getD 32 0) 256
  rw [Nat.add_zero] at hc
  generalize c.getD 32 0 / 256 = t at *
  generalize c.getD 32 0 % 256 = m at *
  generalize c.getD 32 0 = y at *
  generalize limbVal (c.set 32 m) = s at *
  have e3 : 256 ^ 32 * y = 256 ^ 33 * t + 256 ^ 32 * m := by rw [← hm]; ring
  have e4 : limbVal c = s + 256 ^ 33 * t := by omega
  rw [hval, ← hc, e4, Nat.add_assoc, ← Nat.mul_add, Nat.add_mul_mod_self_left, Nat.mod_eq_of_lt hlt]

/-- R145 (i) to (iii): the estimate is at most two below the quotient. -/
theorem barrett_bounds {X : Nat} (h : X < 256 ^ 64) :
    groupOrder * (X / 256 ^ 31 * barrettMu / 256 ^ 33) ≤ X ∧
      X < groupOrder * (X / 256 ^ 31 * barrettMu / 256 ^ 33) + 3 * groupOrder := by
  have hL : groupOrder = 7237005577332262213973186563042994240857116359379907606001950938285454250989 := by decide
  have hmu : barrettMu =
    1852673427797059126777135760139006525645217721299241702126143248052143860224795 := by decide
  rw [hL, hmu]
  have h1 := Nat.div_add_mod X (256 ^ 31)
  have h2 := Nat.mod_lt X (by norm_num : 0 < 256 ^ 31)
  generalize X / 256 ^ 31 = q at *
  generalize X % 256 ^ 31 = r at *
  have h3 := Nat.div_add_mod
    (q * 1852673427797059126777135760139006525645217721299241702126143248052143860224795) (256 ^ 33)
  have h4 := Nat.mod_lt
    (q * 1852673427797059126777135760139006525645217721299241702126143248052143860224795)
    (by norm_num : 0 < 256 ^ 33)
  generalize q * 1852673427797059126777135760139006525645217721299241702126143248052143860224795 / 256 ^ 33 = k at *
  generalize q * 1852673427797059126777135760139006525645217721299241702126143248052143860224795 % 256 ^ 33 = m at *
  norm_num at h h1 h2 h3 h4 ⊢
  constructor
  · zify at *; nlinarith
  · zify at *; nlinarith

/-- R145: `barrett_reduce(x)` is `limbs_32(X mod L)`. -/
theorem vecVal_barrettReduce {x : List Nat} (hl : x.length = 64) (h : LimbsBelow 256 x) :
    vecVal (barrettReduce x) = limbVal x % groupOrder := by
  obtain ⟨-, hq2, hq3⟩ := barrettQuotient_spec hl h
  obtain ⟨hp1, hp2, hp3⟩ := barrettProduct_spec (q := barrettQuotient x) hq2
  have hX : limbVal x < 256 ^ 64 := by have := limbVal_lt h; rwa [hl] at this
  obtain ⟨hb1, hb2⟩ := barrett_bounds hX
  rw [← hq3] at hb1 hb2
  have ht : LimbsBelow 256 (x.take 33) := fun y hy => h y (List.mem_of_mem_take hy)
  have htl : (x.take 33).length = 33 := by simp [hl]
  obtain ⟨hr1, hr2⟩ := borrowLimbs_spec (bo := 0) ht hp1 (by omega) (by omega)
  have hrb := borrowLimbs_borrow_le 0 (x.take 33) (barrettProduct (barrettQuotient x)) (by omega)
  have hrl := borrowLimbs_length 0 (x.take 33) (barrettProduct (barrettQuotient x))
  have hrlt := limbVal_lt hr1
  rw [hrl, htl] at hrlt
  rw [htl, hp3, limbVal_take h 33 (by omega), Nat.add_zero] at hr2
  have hL3 : 3 * groupOrder < 256 ^ 32 := by decide
  have e : barrettReduce x = packLimbs 32 (scCorrect (scCorrect
      ((borrowLimbs 0 (x.take 33) (barrettProduct (barrettQuotient x))).1.take 32))) := rfl
  rw [e]
  generalize (borrowLimbs 0 (x.take 33) (barrettProduct (barrettQuotient x))).2 = b at *
  generalize (borrowLimbs 0 (x.take 33) (barrettProduct (barrettQuotient x))).1 = r at *
  have hrv : limbVal r = limbVal x - groupOrder * limbVal (barrettQuotient x) := by
    generalize groupOrder * limbVal (barrettQuotient x) = s at *
    have hs := Nat.div_add_mod s (256 ^ 33)
    have hxm := Nat.div_add_mod (limbVal x) (256 ^ 33)
    have hsm := Nat.mod_lt s (by norm_num : 0 < 256 ^ 33)
    have hxmm := Nat.mod_lt (limbVal x) (by norm_num : 0 < 256 ^ 33)
    norm_num at *
    omega
  have hrl' : r.length = 33 := by rw [hrl, htl]
  have ht32 : limbVal (r.take 32) = limbVal r := by
    rw [limbVal_take hr1 32 (by omega), Nat.mod_eq_of_lt (by omega)]
  obtain ⟨c1, c2, c3⟩ := scCorrect_spec (r := r.take 32) (by simp [hrl'])
    fun y hy => hr1 y (List.mem_of_mem_take hy)
  obtain ⟨d1, d2, d3⟩ := scCorrect_spec (r := scCorrect (r.take 32)) c2 c1
  rw [vecVal_packLimbs d2 d1, d3, c3, ht32, hrv]
  have hmod : limbVal x % groupOrder = (limbVal x - groupOrder * limbVal (barrettQuotient x)) % groupOrder := by
    rw [Nat.sub_mul_mod hb1]
  rw [hmod]
  generalize limbVal x - groupOrder * limbVal (barrettQuotient x) = y at *
  have hy : y < 3 * groupOrder := by omega
  have hLpos : 0 < groupOrder := by decide
  by_cases h1 : groupOrder ≤ y
  · rw [if_pos h1]
    by_cases h2 : groupOrder ≤ y - groupOrder
    · rw [if_pos h2, Nat.mod_eq_sub_mod h1, Nat.mod_eq_sub_mod h2, Nat.mod_eq_of_lt (by omega)]
    · rw [if_neg h2, Nat.mod_eq_sub_mod h1, Nat.mod_eq_of_lt (by omega)]
  · rw [if_neg h1, if_neg h1, Nat.mod_eq_of_lt (by omega)]

theorem vecVal_scFrom32 {bs : List Byte} (h : bs.length = 32) : vecVal (scFrom32 bs) = leVal bs % groupOrder := by
  rw [scFrom32, vecVal_barrettReduce (by simp) (padTo_below (by omega) (byteLimbs_below bs)),
    limbVal_padTo (by simp [h])]
  rfl

theorem vecVal_scFrom64 {bs : List Byte} (h : bs.length = 64) : vecVal (scFrom64 bs) = leVal bs % groupOrder :=
  vecVal_barrettReduce (by simp [h]) (byteLimbs_below bs)

/-! Arithmetic. -/

theorem vecVal_pack_limbsOf (x : Nat) : vecVal (packLimbs 32 (limbsOf 32 x)) = x % 256 ^ 32 := by
  rw [vecVal_packLimbs (limbsOf_length 32 x) (limbsOf_below 32 x), limbVal_limbsOf]

/-- R149. -/
theorem vecVal_scAdd (a b : Sc) : vecVal (scAdd a b) =
    (if groupOrder ≤ vecVal a + vecVal b then vecVal a + vecVal b - groupOrder else vecVal a + vecVal b) % 2 ^ 256 := by
  rw [scAdd, vecVal_pack_limbsOf]
  have e : (256 : Nat) ^ 32 = 2 ^ 256 := by norm_num
  rw [e, Nat.mod_mod]

/-- R150. -/
theorem vecVal_scSubnr (a b : Sc) : vecVal (scSubnr a b) = (vecVal a + 2 ^ 256 - vecVal b) % 2 ^ 256 := by
  obtain ⟨h1, h2⟩ := borrowLimbs_spec (bo := 0) (limbs_below a) (limbs_below b) (by simp) (by omega)
  have hlt := limbVal_lt h1
  have ha := vecVal_lt a
  have hb := vecVal_lt b
  have hbo := borrowLimbs_borrow_le 0 (limbs a) (limbs b) (by omega)
  rw [scSubnr, vecVal_packLimbs (by simp) h1]
  rw [borrowLimbs_length, limbs_length] at hlt
  rw [limbs_length] at h2
  show limbVal (borrowLimbs 0 (limbs a) (limbs b)).1 = (limbVal (limbs a) + 2 ^ 256 - limbVal (limbs b)) % 2 ^ 256
  simp only [vecVal] at ha hb
  generalize (borrowLimbs 0 (limbs a) (limbs b)).2 = bo at *
  generalize limbVal (borrowLimbs 0 (limbs a) (limbs b)).1 = v at *
  norm_num at *
  omega

/-- R151. -/
theorem vecVal_scMul (a b : Sc) : vecVal (scMul a b) = vecVal a * vecVal b % groupOrder := by
  have hcl : (convLimbs (limbs a) (limbs b)).length = 63 := by
    have ha := limbs_length a
    have hb := limbs_length b
    generalize limbs a = x at *
    generalize limbs b = y at *
    cases x with
    | nil => simp at ha
    | cons c cs =>
      rw [convLimbs_length c cs y (by intro e; simp [e] at hb)]
      simp at ha; omega
  have hne : padTo 64 (convLimbs (limbs a) (limbs b)) ≠ [] := by
    intro e; have := congrArg List.length e; simp at this
  have hv : limbVal (padTo 64 (convLimbs (limbs a) (limbs b))) = vecVal a * vecVal b := by
    rw [limbVal_padTo (by omega), limbVal_convLimbs]; rfl
  have hbel : LimbsBelow 256 (carryLimbs 0 (padTo 64 (convLimbs (limbs a) (limbs b)))) := by
    refine carryLimbs_below hne ?_
    rw [hv, length_padTo, Nat.add_zero]
    calc vecVal a * vecVal b < 256 ^ 32 * 256 ^ 32 := Nat.mul_lt_mul'' (vecVal_lt a) (vecVal_lt b)
      _ = 256 ^ 64 := by norm_num
  rw [scMul, vecVal_barrettReduce (by simp) hbel, limbVal_carryLimbs 0 hne, hv, Nat.add_zero]

/-! Predicates. -/

theorem limbs_all_zero {l : List Nat} : l.all (· == 0) = true ↔ limbVal l = 0 := by
  induction l with
  | nil => simp
  | cons x xs ih => simp only [limbVal_cons, List.all_cons, Bool.and_eq_true, beq_iff_eq, ih]; omega

theorem scIszero_iff (a : Sc) : scIszero a = true ↔ vecVal a = 0 := limbs_all_zero

/-- R154: "that is `val(s[sa]) < 2^128`". -/
theorem scIsshort_iff (a : Sc) : scIsshort a = true ↔ vecVal a < 2 ^ 128 := by
  have h := limbVal_drop (limbs_below a) 16 (by simp)
  have e : (256 : Nat) ^ 16 = 2 ^ 128 := by norm_num
  rw [scIsshort, limbs_all_zero, h, e, Nat.div_eq_zero_iff]
  simp [vecVal]

/-- R155: "P = 1 exactly when `val(B) < L`". -/
theorem scLessorder_iff {bs : List Byte} (h : bs.length = 32) : scLessorder bs = true ↔ leVal bs < groupOrder := by
  obtain ⟨-, -, h3⟩ := scTrysub_spec (r := byteLimbs bs) (by simp [h]) (byteLimbs_below bs)
  rw [scLessorder, beq_iff_eq]
  show _ ↔ limbVal (byteLimbs bs) < groupOrder
  omega

/-! Recodings. -/

/-- R156: `Σ d[i]·2^(w·i) = val(s)`. -/
theorem digitsVal_scWindow (w n : Nat) (v : Int) : digitsVal w (scWindow w (n + 1) v) = v := by
  induction n generalizing v with
  | zero => simp [scWindow, digitsVal]
  | succ n ih =>
    rw [scWindow]
    simp only [digitsVal, ih]
    have hpos : (0 : Int) < 2 ^ w := by positivity
    have hm := Int.mul_ediv_add_emod v (2 ^ w)
    split
    · have : (v - (v % 2 ^ w - 2 ^ w)) = 2 ^ w * (v / 2 ^ w + 1) := by linarith
      rw [this, Int.mul_ediv_cancel_left _ hpos.ne']; linarith
    · have : (v - v % 2 ^ w) = 2 ^ w * (v / 2 ^ w) := by linarith
      rw [this, Int.mul_ediv_cancel_left _ hpos.ne']; linarith

@[simp] theorem scWindow_length (w n : Nat) (v : Int) : (scWindow w n v).length = n := by
  induction n generalizing v with
  | zero => rfl
  | succ n ih =>
    cases n with
    | zero => rfl
    | succ n => rw [scWindow]; simp [ih]

/-- R156: every digit but the last lies in [−2^(w−1), 2^(w−1)). -/
theorem scWindow_digit {w n : Nat} (hw : 0 < w) (v : Int) (i : Nat) (hi : i < n) :
    -2 ^ (w - 1) ≤ (scWindow w (n + 1) v).getD i 0 ∧ (scWindow w (n + 1) v).getD i 0 < 2 ^ (w - 1) := by
  induction n generalizing v i with
  | zero => omega
  | succ n ih =>
    rw [scWindow]
    cases i with
    | zero =>
      simp only [List.getD_cons_zero]
      have hp : (2 : Int) ^ w = 2 * 2 ^ (w - 1) := by
        obtain ⟨k, rfl⟩ : ∃ k, w = k + 1 := ⟨w - 1, by omega⟩
        simp [pow_succ]; ring
      have hpos : (0 : Int) < 2 ^ (w - 1) := by positivity
      have h1 := Int.emod_nonneg v (by omega : (2 : Int) ^ w ≠ 0)
      have h2 := Int.emod_lt_of_pos v (by omega : (0 : Int) < 2 ^ w)
      split <;> omega
    | succ i =>
      simp only [List.getD_cons_succ]
      exact ih _ i (by omega)

/-- Signed digits split at their last. -/
theorem digitsVal_append (w : Nat) (a b : List Int) :
    digitsVal w (a ++ b) = digitsVal w a + (2 ^ w) ^ a.length * digitsVal w b := by
  induction a with
  | nil => simp [digitsVal]
  | cons x xs ih => rw [List.cons_append, digitsVal, digitsVal, ih, List.length_cons, pow_succ]; ring

/-- n digits from -h to k stand for a number from -h to k times 1 + W + ... + W^(n-1), W being 2^w. -/
theorem digitsVal_bounds {w : Nat} {h k : Int} {ds : List Int} (hd : ∀ d ∈ ds, -h ≤ d ∧ d ≤ k) :
    -h * ((2 ^ w) ^ ds.length - 1) ≤ (2 ^ w - 1) * digitsVal w ds ∧
      (2 ^ w - 1) * digitsVal w ds ≤ k * ((2 ^ w) ^ ds.length - 1) := by
  induction ds with
  | nil => simp [digitsVal]
  | cons d ds ih =>
    have hW : (1 : Int) ≤ 2 ^ w := one_le_pow₀ (by norm_num)
    obtain ⟨h1, h2⟩ := hd d (by simp)
    obtain ⟨i1, i2⟩ := ih fun d hd' => hd d (by simp [hd'])
    rw [digitsVal, List.length_cons, pow_succ]
    generalize (2 : Int) ^ w = W at *
    generalize W ^ ds.length = M at *
    have a1 := mul_le_mul_of_nonneg_left h1 (sub_nonneg.2 hW)
    have a2 := mul_le_mul_of_nonneg_left h2 (sub_nonneg.2 hW)
    have b1 := mul_le_mul_of_nonneg_left i1 (by omega : 0 ≤ W)
    have b2 := mul_le_mul_of_nonneg_left i2 (by omega : 0 ≤ W)
    constructor <;> linarith

/-- The last digit of a window recoding, from the bounds of the digits below it. -/
theorem scWindow_last {w n : Nat} (hw : 0 < w) (v : Int) :
    ∃ u : Int, v = u + (2 ^ w) ^ n * (scWindow w (n + 1) v).getD n 0 ∧
      -2 ^ (w - 1) * ((2 ^ w) ^ n - 1) ≤ (2 ^ w - 1) * u ∧ (2 ^ w - 1) * u ≤ (2 ^ (w - 1) - 1) * ((2 ^ w) ^ n - 1) := by
  have hv := digitsVal_scWindow w n v
  have hd := scWindow_digit (n := n) hw v
  have hl := scWindow_length w (n + 1) v
  generalize scWindow w (n + 1) v = ds at *
  have hne : ds ≠ [] := by rintro rfl; simp at hl
  have hlast : ds.getLast hne = ds.getD n 0 := by
    rw [List.getLast_eq_getElem, List.getD_eq_getElem?_getD]
    simp [hl]
  have happ := List.dropLast_append_getLast hne
  have hll : ds.dropLast.length = n := by simp [hl]
  rw [← happ, digitsVal_append, hll, hlast] at hv
  refine ⟨digitsVal w ds.dropLast, by rw [← hv]; simp [digitsVal], ?_⟩
  have hb := digitsVal_bounds (w := w) (h := 2 ^ (w - 1)) (k := 2 ^ (w - 1) - 1) (ds := ds.dropLast) fun d hd' => by
    obtain ⟨i, hi, rfl⟩ := List.getElem_of_mem hd'
    have hin : i < n := by omega
    have := hd i hin
    have e : ds.getD i 0 = ds.dropLast[i] := by
      rw [List.getElem_dropLast, List.getD_eq_getElem?_getD, List.getElem?_eq_getElem (by omega)]; rfl
    rw [e] at this
    exact ⟨this.1, by omega⟩
  rw [hll] at hb
  exact hb

/-- R159 in arithmetic: the low two bits from the first scalar, the high two from the second. -/
theorem interleaveDigit_eq (a b i : Nat) : interleaveDigit a b i = a / 4 ^ i % 4 + 4 * (b / 4 ^ i % 4) := by
  have h3 : ∀ x : Nat, x &&& 3 = x % 4 := fun x => Nat.and_two_pow_sub_one_eq_mod x 2
  have e : (2 : Nat) ^ (2 * i) = 4 ^ i := by rw [pow_mul]; norm_num
  rw [interleaveDigit, h3, h3, Nat.shiftRight_eq_div_pow, Nat.shiftRight_eq_div_pow, e]
  have ha := Nat.mod_lt (a / 4 ^ i) (by norm_num : 0 < 4)
  have hb := Nat.mod_lt (b / 4 ^ i) (by norm_num : 0 < 4)
  generalize a / 4 ^ i % 4 = x at *
  generalize b / 4 ^ i % 4 = y at *
  interval_cases x <;> interval_cases y <;> rfl

end Sys2Proof.Machine
end

