-- ==== Sys2Proof/Laws/GroupElement.lean ====
section
/-! SUPPORT. The value laws of the GE unit: addition and doubling as the group law (spec/42_group_element.md R185 to
R189), packing (R192), decompression with negation (R190) and the double-scalar ladder (R193). -/

namespace Sys2Proof.Machine

/-- A register value that satisfies INV-FE and represents the point P of the curve (spec/42_group_element.md R183). -/
structure Represents (g : Ge) (P : ZMod fieldP × ZMod fieldP) : Prop where
  inv : geInv g
  wf : GeWellFormed g
  point : gePoint g = P

/-! Extended coordinates as affine coordinates. -/

/-- A well-formed register in its affine coordinates: X = xZ, Y = yZ, T = xyZ. -/
theorem Represents.coords {g : Ge} {P : ZMod fieldP × ZMod fieldP} (h : Represents g P) :
    feRes g.z ≠ 0 ∧ feRes g.x = P.1 * feRes g.z ∧ feRes g.y = P.2 * feRes g.z ∧
      feRes g.t = P.1 * P.2 * feRes g.z ∧ OnCurve P.1 P.2 := by
  have := fieldP_fact
  obtain ⟨-, ⟨hz, ht, hc⟩, rfl⟩ := h
  refine ⟨hz, ?_, ?_, ?_, hc⟩
  · exact (inv_mul_cancel_right₀ hz _).symm
  · exact (inv_mul_cancel_right₀ hz _).symm
  · show feRes g.t = feRes g.x * (feRes g.z)⁻¹ * (feRes g.y * (feRes g.z)⁻¹) * feRes g.z
    field_simp
    linear_combination -ht

theorem Represents.onCurve {g : Ge} {P : ZMod fieldP × ZMod fieldP} (h : Represents g P) : OnCurve P.1 P.2 :=
  h.coords.2.2.2.2

/-- A register value is known by its residues. -/
theorem represents_of {g : Ge} {P : ZMod fieldP × ZMod fieldP} (hi : geInv g) (hz : feRes g.z ≠ 0)
    (hx : feRes g.x = P.1 * feRes g.z) (hy : feRes g.y = P.2 * feRes g.z) (ht : feRes g.t = P.1 * P.2 * feRes g.z)
    (hc : OnCurve P.1 P.2) : Represents g P := by
  have := fieldP_fact
  have h1 : feRes g.x * (feRes g.z)⁻¹ = P.1 := by rw [hx, mul_inv_cancel_right₀ hz]
  have h2 : feRes g.y * (feRes g.z)⁻¹ = P.2 := by rw [hy, mul_inv_cancel_right₀ hz]
  refine ⟨hi, ⟨hz, ?_, ?_⟩, Prod.ext h1 h2⟩
  · rw [hx, hy, ht]; ring
  · rw [h1, h2]; exact hc

/-! Addition and doubling. -/

theorem geInv_add (p q : Ge) : geInv (geAdd p q) := ⟨feInv_mul _ _, feInv_mul _ _, feInv_mul _ _, feInv_mul _ _⟩

theorem geInv_dbl (p : Ge) : geInv (geDbl p) := ⟨feInv_mul _ _, feInv_mul _ _, feInv_mul _ _, feInv_mul _ _⟩

theorem feRes_curveD2 : feRes curveD2 = 2 * resD := by
  have h : vecVal curveD2 = 2 * vecVal curveD - fieldP := by decide
  have h2 : fieldP ≤ 2 * vecVal curveD := by decide
  have e : feRes curveD2 = ((2 * vecVal curveD - fieldP : Nat) : ZMod fieldP) := by rw [feRes, h]
  rw [e, Nat.cast_sub h2]
  simp [resD, feRes]

/-- R185, R189: `ge_add` is the group law, with no exceptional pair. -/
theorem Represents.add {g h : Ge} {P Q : ZMod fieldP × ZMod fieldP} (hg : Represents g P) (hh : Represents h Q) :
    Represents (geAdd g h) (edAdd P Q) := by
  have := fieldP_fact
  obtain ⟨z1, x1, y1, t1, c1⟩ := hg.coords
  obtain ⟨z2, x2, y2, t2, c2⟩ := hh.coords
  obtain ⟨da, db⟩ := resD_complete c1 c2
  obtain ⟨ex, ey⟩ := edAdd_coords c1 c2
  have eE : feRes (feSub (feMul (feAdd g.y g.x) (feAdd h.y h.x)) (feMul (feSub g.y g.x) (feSub h.y h.x))) =
      2 * feRes g.z * feRes h.z * (P.1 * Q.2 + Q.1 * P.2) := by
    rw [feRes_sub _ (feInv_mul _ _), feRes_mul, feRes_mul, feRes_add, feRes_add, feRes_sub _ hg.inv.1,
      feRes_sub _ hh.inv.1, x1, y1, x2, y2]; ring
  have eH : feRes (feAdd (feMul (feAdd g.y g.x) (feAdd h.y h.x)) (feMul (feSub g.y g.x) (feSub h.y h.x))) =
      2 * feRes g.z * feRes h.z * (P.2 * Q.2 + P.1 * Q.1) := by
    rw [feRes_add, feRes_mul, feRes_mul, feRes_add, feRes_add, feRes_sub _ hg.inv.1,
      feRes_sub _ hh.inv.1, x1, y1, x2, y2]; ring
  have eF : feRes (feSub (feAdd (feMul g.z h.z) (feMul g.z h.z)) (feMul (feMul g.t h.t) curveD2)) =
      2 * feRes g.z * feRes h.z * (1 - resD * P.1 * Q.1 * P.2 * Q.2) := by
    rw [feRes_sub _ (feInv_mul _ _), feRes_add, feRes_mul, feRes_mul, feRes_mul, feRes_curveD2, t1, t2]; ring
  have eG : feRes (feAdd (feAdd (feMul g.z h.z) (feMul g.z h.z)) (feMul (feMul g.t h.t) curveD2)) =
      2 * feRes g.z * feRes h.z * (1 + resD * P.1 * Q.1 * P.2 * Q.2) := by
    rw [feRes_add, feRes_add, feRes_mul, feRes_mul, feRes_mul, feRes_curveD2, t1, t2]; ring
  have hz : (2 * feRes g.z * feRes h.z) ≠ 0 := mul_ne_zero (mul_ne_zero two_ne_zero_fieldP z1) z2
  refine represents_of (geInv_add g h) ?_ ?_ ?_ ?_ (onCurve_edAdd c1 c2)
  · simp only [geAdd]
    rw [feRes_mul, eF, eG]
    exact mul_ne_zero (mul_ne_zero hz db) (mul_ne_zero hz da)
  · simp only [geAdd]
    rw [feRes_mul, feRes_mul, eE, eF, eG, ← ex]; ring
  · simp only [geAdd]
    rw [feRes_mul, feRes_mul, eH, eF, eG, ← ey]; ring
  · simp only [geAdd]
    rw [feRes_mul, feRes_mul, eE, eF, eG, eH, ← ex, ← ey]; ring

/-- R187, R189: `ge_dbl` is the double. -/
theorem Represents.dbl {g : Ge} {P : ZMod fieldP × ZMod fieldP} (hg : Represents g P) :
    Represents (geDbl g) (edAdd P P) := by
  have := fieldP_fact
  obtain ⟨z1, x1, y1, -, c1⟩ := hg.coords
  obtain ⟨da, db⟩ := resD_complete c1 c1
  obtain ⟨ex, ey⟩ := edAdd_coords c1 c1
  have hc : -P.1 ^ 2 + P.2 ^ 2 = 1 + resD * P.1 ^ 2 * P.2 ^ 2 := c1
  have eH : feRes (feAdd (feSquare g.x) (feSquare g.y)) = feRes g.z ^ 2 * (P.2 * P.2 + P.1 * P.1) := by
    rw [feRes_add, feRes_square, feRes_square, x1, y1]; ring
  have eE : feRes (feSub (feAdd (feSquare g.x) (feSquare g.y)) (feSquare (feAdd g.x g.y))) =
      -(feRes g.z ^ 2 * (P.1 * P.2 + P.1 * P.2)) := by
    rw [feRes_sub _ (feInv_square _), eH, feRes_square, feRes_add, x1, y1]; ring
  have eG : feRes (feSub (feSquare g.x) (feSquare g.y)) =
      -(feRes g.z ^ 2 * (1 + resD * P.1 * P.1 * P.2 * P.2)) := by
    rw [feRes_sub _ (feInv_square _), feRes_square, feRes_square, x1, y1]
    linear_combination (-feRes g.z ^ 2) * hc
  have eF : feRes (feAdd (feAdd (feSquare g.z) (feSquare g.z)) (feSub (feSquare g.x) (feSquare g.y))) =
      feRes g.z ^ 2 * (1 - resD * P.1 * P.1 * P.2 * P.2) := by
    rw [feRes_add, feRes_add, feRes_square, eG]; ring
  have hz : feRes g.z ^ 2 ≠ 0 := pow_ne_zero 2 z1
  refine represents_of (geInv_dbl g) ?_ ?_ ?_ ?_ (onCurve_edAdd c1 c1)
  · simp only [geDbl]
    rw [feRes_mul, eF, eG]
    exact mul_ne_zero (mul_ne_zero hz db) (neg_ne_zero.2 (mul_ne_zero hz da))
  · simp only [geDbl]
    rw [feRes_mul, feRes_mul, eE, eF, eG, ← ex]; ring
  · simp only [geDbl]
    rw [feRes_mul, feRes_mul, eH, eF, eG, ← ey]; ring
  · simp only [geDbl]
    rw [feRes_mul, feRes_mul, eE, eF, eG, eH, ← ex, ← ey]; ring

/-! Packing. -/

theorem feRes_invert_inv (x : Fe) : feRes (feInvert x) = (feRes x)⁻¹ := by
  have := fieldP_fact
  rw [feRes_invert]
  by_cases h : feRes x = 0
  · rw [h, inv_zero, zero_pow (by decide)]
  · refine eq_inv_of_mul_eq_one_left ?_
    rw [← pow_succ]
    have := ZMod.pow_card_sub_one_eq_one h
    rwa [show fieldP - 2 + 1 = fieldP - 1 by decide]

theorem leBytes_succ (n x : Nat) : leBytes (n + 1) x = leBytes n x ++ [BitVec.ofNat 8 (x / 256 ^ n)] := by
  have h : ∀ n x, limbsOf (n + 1) x = limbsOf n x ++ [x / 256 ^ n % 256] := by
    intro n
    induction n with
    | zero => intro x; simp [limbsOf]
    | succ n ih =>
      intro x
      rw [limbsOf, ih, limbsOf, List.cons_append, Nat.pow_succ', Nat.div_div_eq_div_mul]
  rw [leBytes, h, List.map_append, leBytes]
  simp only [List.map_cons, List.map_nil, List.append_cancel_left_eq, List.cons.injEq, and_true]
  exact BitVec.eq_of_toNat_eq (by simp only [BitVec.toNat_ofNat]; omega)

theorem leBytes_length (n x : Nat) : (leBytes n x).length = n := by simp [leBytes]

/-- The low bytes do not depend on what is added above them. -/
theorem leBytes_add (n x y : Nat) : leBytes n (x + 256 ^ n * y) = leBytes n x := by
  have h : ∀ n x, limbsOf n (x + 256 ^ n * y) = limbsOf n x := by
    intro n
    induction n with
    | zero => intro x; rfl
    | succ n ih =>
      intro x
      rw [limbsOf, limbsOf]
      have e : 256 ^ (n + 1) * y = 256 * (256 ^ n * y) := by rw [Nat.pow_succ]; ring
      rw [e, Nat.add_mul_mod_self_left, Nat.add_mul_div_left _ _ (by norm_num), ih]
  rw [leBytes, h, leBytes]

/-- Setting the sign bit above a 255-bit number. -/
theorem leBytes_set_sign {y : Nat} (hy : y < 2 ^ 255) (b : Bool) :
    (leBytes 32 y).set 31 ((leBytes 32 y).getD 31 0 ||| (if b then 0x80 else 0)) =
      leBytes 32 (y + 2 ^ 255 * (if b then 1 else 0)) := by
  have hl := leBytes_length 31 y
  rw [leBytes_succ 31 y, leBytes_succ 31 (y + _)]
  have e : (2 : Nat) ^ 255 * (if b then 1 else 0) = 256 ^ 31 * (128 * if b then 1 else 0) := by
    cases b <;> norm_num
  rw [e, leBytes_add, Nat.add_mul_div_left _ _ (by norm_num), List.getD_append_right _ _ _ _ (by omega),
    List.set_append_right _ _ (by omega), hl]
  congr 1
  simp only [Nat.sub_self, List.getD_cons_zero, List.set_cons_zero]
  have hq : y / 256 ^ 31 < 128 := Nat.div_lt_of_lt_mul (by norm_num at *; omega)
  generalize y / 256 ^ 31 = q at *
  cases b
  · simp
  · simp only [if_true]
    congr 1
    have : ∀ q < 128, (BitVec.ofNat 8 q ||| 128 : BitVec 8) = BitVec.ofNat 8 (q + 128 * 1) := by decide
    exact this q hq

/-- R192: the bytes written are the canonical compressed encoding of the point. -/
theorem gePack_eq (g : Ge) : gePack g = encodePoint (gePoint g) := by
  have hx : feRes (feMul g.x (feInvert g.z)) = (gePoint g).1 := by rw [feRes_mul, feRes_invert_inv]; rfl
  have hy : feRes (feMul g.y (feInvert g.z)) = (gePoint g).2 := by rw [feRes_mul, feRes_invert_inv]; rfl
  have hlt : (gePoint g).2.val < 2 ^ 255 := by
    have := fieldP_fact
    have h1 := ZMod.val_lt (gePoint g).2
    have := fieldP_add
    omega
  simp only [gePack]
  rw [fePack_eq (feInv_mul _ _), feGetparity_eq (feInv_mul _ _), hx, hy, leBytes_set_sign hlt]
  show leBytes 32 _ = leBytes 32 _
  congr 3
  have := Nat.mod_two_eq_zero_or_one (gePoint g).1.val
  rcases this with h | h <;> simp [h]

/-! Decompression with negation. -/

/-- 1 + d·y² never vanishes: −1 is a square and d is none. -/
theorem den_ne_zero (y : ZMod fieldP) : 1 + resD * y ^ 2 ≠ 0 := by
  have := fieldP_fact
  intro h
  have hy : y ≠ 0 := by rintro rfl; simp at h
  refine resD_not_square ⟨feRes curveSqrtM1 / y, ?_⟩
  rw [div_mul_div_comm, eq_div_iff (mul_ne_zero hy hy)]
  linear_combination h - resI_sq

/-- The points with a given y are the square roots of u/v = (y² − 1)/(d·y² + 1). -/
theorem onCurve_iff (x y : ZMod fieldP) : OnCurve x y ↔ (1 + resD * y ^ 2) * x ^ 2 = y ^ 2 - 1 := by
  unfold OnCurve
  constructor <;> intro h
  · linear_combination -h
  · linear_combination -h

/-- R190: the candidate root is a root of u/v or of −u/v whenever u/v has a root. -/
theorem candidate_root {u v x : ZMod fieldP} (h : v * x ^ 2 = u) :
    v * (u * v ^ 3 * (u * v ^ 7) ^ ((fieldP - 5) / 8)) ^ 2 = u ∨
      v * (u * v ^ 3 * (u * v ^ 7) ^ ((fieldP - 5) / 8)) ^ 2 = -u := by
  have := fieldP_fact
  by_cases hv : x * v ^ 4 = 0
  · have hu : u = 0 := by
      rcases mul_eq_zero.1 hv with h0 | h0
      · rw [← h, h0]; ring
      · rw [← h, pow_eq_zero_iff (by norm_num) |>.1 h0]; ring
    left; rw [hu]; ring
  · have e : v * (u * v ^ 3 * (u * v ^ 7) ^ ((fieldP - 5) / 8)) ^ 2 = u * (x * v ^ 4) ^ (fieldP / 2) := by
      have e1 : u * v ^ 7 = (x * v ^ 4) ^ 2 := by rw [← h]; ring
      rw [e1, mul_pow, ← pow_mul, ← pow_mul]
      have e2 : fieldP / 2 = 2 + 2 * ((fieldP - 5) / 8) * 2 := by decide
      rw [e2, pow_add]
      linear_combination u * (x * v ^ 4) ^ (2 * ((fieldP - 5) / 8) * 2) * e1
    rw [e]
    rcases ZMod.pow_div_two_eq_neg_one_or_one fieldP hv with h1 | h1
    · left; rw [h1, mul_one]
    · right; rw [h1]; ring

theorem feRes_candidate (num den : Fe) : feRes (geCandidateRoot num den) =
    feRes num * feRes den ^ 3 * (feRes num * feRes den ^ 7) ^ ((fieldP - 5) / 8) := by
  simp only [geCandidateRoot, feRes_mul, feRes_pow2523, feRes_square]
  rw [show ((feRes den ^ 2) ^ 2 * feRes den ^ 2 * feRes num * feRes den) = feRes num * feRes den ^ 7 by ring]
  ring

theorem feInv_candidate (num den : Fe) : feInv (geCandidateRoot num den) := feInv_mul _ _

/-- Negation flips the parity of the canonical representative, p being odd. -/
theorem val_neg_mod_two {x : ZMod fieldP} (hx : x ≠ 0) : (-x).val % 2 = 1 - x.val % 2 := by
  have := fieldP_fact
  have h : fieldP % 2 = 1 := by decide
  have hlt := ZMod.val_lt x
  rw [ZMod.neg_val, if_neg hx]
  omega

/-- The sign bit of 32 bytes is bit 255 of their number. -/
theorem sign_bit {bs : List Byte} (h : bs.length = 32) :
    leVal bs / 2 ^ 255 = if 128 ≤ (bs.getD 31 0).toNat then 1 else 0 := by
  have hsp := limbVal_split (l := byteLimbs bs) (by simp [h])
  have hlow : limbVal (byteLimbs bs).dropLast < 256 ^ 31 := by
    have := limbVal_lt (l := (byteLimbs bs).dropLast) fun x hx => byteLimbs_below bs x (List.mem_of_mem_dropLast hx)
    simpa [h] using this
  have e : (byteLimbs bs).getD 31 0 = (bs.getD 31 0).toNat := by
    simp [byteLimbs, List.getD_eq_getElem?_getD, h]
  have hb : (bs.getD 31 0).toNat < 256 := (bs.getD 31 0).isLt
  rw [e] at hsp
  show limbVal (byteLimbs bs) / 2 ^ 255 = _
  rw [hsp]
  generalize (bs.getD 31 0).toNat = t at *
  generalize limbVal (byteLimbs bs).dropLast = a at *
  split <;> norm_num at * <;> omega

/-- R190, R88: what decompression with negation gives, in terms of the points the bytes encode. -/
theorem decompress_spec {bs : List Byte} (h : bs.length = 32) :
    (∀ g, geDecompressNegate bs = some g → ∃ P, DecodesTo bs P ∧ Represents g (-P.1, P.2)) ∧
      (geDecompressNegate bs = none → ∀ P, ¬DecodesTo bs P) := by
  have hfact := fieldP_fact
  have hyI := feInv_unpack h
  have hyv : feRes (feUnpack bs) = ((leVal bs % 2 ^ 255 : Nat) : ZMod fieldP) := by rw [feRes, vecVal_unpack h]
  have hsign := sign_bit h
  unfold geDecompressNegate
  simp only
  generalize hpar : decide (128 ≤ (bs.getD 31 0).toNat) = par
  generalize hy : feUnpack bs = y at *
  have hnumI : feInv (feSub (feSquare y) feOne) := feInv_sub _ _
  have hnum : feRes (feSub (feSquare y) feOne) = feRes y ^ 2 - 1 := by
    rw [feRes_sub _ feInv_one, feRes_square, feRes_one]
  have hden : feRes (feAdd feOne (feMul (feSquare y) curveD)) = 1 + resD * feRes y ^ 2 := by
    rw [feRes_add, feRes_mul, feRes_square, feRes_one, mul_comm]; rfl
  generalize feSub (feSquare y) feOne = num at *
  generalize feAdd feOne (feMul (feSquare y) curveD) = den at *
  have hroot : ∀ x, OnCurve x (feRes y) → feRes den * feRes (geCandidateRoot num den) ^ 2 = feRes num ∨
      feRes den * feRes (geCandidateRoot num den) ^ 2 = -feRes num := by
    intro x hx
    rw [feRes_candidate]
    refine candidate_root (x := x) ?_
    rw [hden, hnum]
    exact (onCurve_iff _ _).1 hx
  have hx0I := feInv_candidate num den
  generalize geCandidateRoot num den = x0 at *
  have hseq : ∀ x : Fe, feIseq (feMul (feSquare x) den) num = true ↔ OnCurve (feRes x) (feRes y) := by
    intro x
    rw [feIseq_iff (feInv_mul _ _) hnumI, feRes_mul, feRes_square, onCurve_iff, hden, hnum, mul_comm]
  have hpar' : leVal bs / 2 ^ 255 = if par then 1 else 0 := by rw [hsign, ← hpar]; simp
  -- the root taken satisfies the equation whenever there is one
  have hxI : feInv (if feIseq (feMul (feSquare x0) den) num = true then x0 else feMul x0 curveSqrtM1) := by
    split
    · exact hx0I
    · exact feInv_mul _ _
  have hx : ∀ x, OnCurve x (feRes y) → OnCurve (feRes
      (if feIseq (feMul (feSquare x0) den) num = true then x0 else feMul x0 curveSqrtM1)) (feRes y) := by
    intro x hx
    split
    · next hq => exact (hseq x0).1 hq
    · next hq =>
      rw [hseq, onCurve_iff, ← hden, ← hnum] at hq
      rcases hroot x hx with h1 | h1
      · exact absurd h1 hq
      · rw [onCurve_iff, ← hden, ← hnum, feRes_mul]
        linear_combination feRes den * feRes x0 ^ 2 * resI_sq - h1
  generalize (if feIseq (feMul (feSquare x0) den) num = true then x0 else feMul x0 curveSqrtM1) = x at *
  by_cases hq : feIseq (feMul (feSquare x) den) num = true
  · have hc := (hseq x).1 hq
    simp only [hq, Bool.not_true, Bool.false_eq_true, if_false]
    by_cases hz : feIszero x = true ∧ par = true
    · simp only [hz.1, hz.2, Bool.and_true, if_true]
      refine ⟨fun g hg => (by simp at hg), fun _ P hP => ?_⟩
      obtain ⟨h1, h2, h3⟩ := hP
      rw [← hyv] at h2
      have hx0 := (feIszero_iff hxI).1 hz.1
      rw [hx0, onCurve_iff] at hc
      rw [h2, onCurve_iff, ← hc] at h1
      have : P.1 = 0 := by
        have := den_ne_zero (feRes y)
        rcases mul_eq_zero.1 (show (1 + resD * feRes y ^ 2) * P.1 ^ 2 = 0 by rw [h1]; ring) with h' | h'
        · exact absurd h' this
        · exact pow_eq_zero_iff (by norm_num) |>.1 h'
      rw [this, hpar', hz.2] at h3
      simp at h3
    · have hz' : (feIszero x && par) = false := by
        simpa only [Bool.and_eq_true, Bool.and_eq_false_iff, not_and_or, Bool.not_eq_true] using hz
      simp only [hz', Bool.false_eq_true, if_false]
      refine ⟨fun g hg => ?_, fun hg => (by simp at hg)⟩
      simp only [Option.some.injEq] at hg
      have hgp := feGetparity_eq hxI
      have hm := Nat.mod_two_eq_zero_or_one (feRes x).val
      have mk : ∀ x' : Fe, feInv x' → OnCurve (feRes x') (feRes y) → g = ⟨x', y, feOne, feMul x' y⟩ →
          (-feRes x').val % 2 = leVal bs / 2 ^ 255 → ∃ P, DecodesTo bs P ∧ Represents g (-P.1, P.2) := by
        intro x' hI hc' hg' hv
        refine ⟨(-feRes x', feRes y), ⟨onCurve_neg hc', hyv, hv⟩, ?_⟩
        subst hg'
        refine represents_of ⟨hI, hyI, feInv_one, feInv_mul _ _⟩ ?_ ?_ ?_ ?_ ?_
        · simp
        · simp
        · simp
        · simp [feRes_mul]
        · simpa using hc'
      by_cases hgq : (feGetparity x == par) = true
      · rw [if_pos hgq] at hg
        refine mk (feNeg x) (feInv_neg x) ?_ hg.symm ?_
        · rw [feRes_neg hxI]; exact onCurve_neg hc
        · rw [feRes_neg hxI, neg_neg, hpar']
          rw [hgp, beq_iff_eq] at hgq
          rw [← hgq]
          rcases hm with h' | h' <;> simp [h']
      · rw [if_neg hgq] at hg
        refine mk x hxI hc hg.symm ?_
        have hx0 : feRes x ≠ 0 := by
          intro h0
          refine hgq ?_
          have h1 : feIszero x = true := (feIszero_iff hxI).2 h0
          have h2 : par = false := by simpa [h1] using hz'
          rw [hgp, h0, h2]; simp
        rw [val_neg_mod_two hx0, hpar']
        rw [hgp, beq_iff_eq] at hgq
        rcases hm with h' | h' <;> cases par <;> simp_all
  · simp only [hq, Bool.not_false, if_true]
    refine ⟨fun g hg => (by simp at hg), fun _ P hP => ?_⟩
    obtain ⟨h1, h2, -⟩ := hP
    rw [h2, ← hyv] at h1
    exact hq ((hseq x).2 (hx P.1 h1))

/-- R190: a decompressed point has Z = 1. -/
theorem decompress_z {bs : List Byte} {g : Ge} (h : geDecompressNegate bs = some g) : g.z = feOne := by
  unfold geDecompressNegate at h
  simp only at h
  generalize geCandidateRoot _ _ = x0 at h
  generalize (if feIseq (feMul (feSquare x0) _) _ = true then x0 else _) = x at h
  split at h
  · cases h
  · split at h
    · cases h
    · cases h; rfl

/-! The double-scalar ladder. -/

theorem represents_neutral : Represents geNeutral (0, 1) := by
  refine represents_of ⟨feInv_zero, feInv_one, feInv_one, feInv_zero⟩ ?_ ?_ ?_ ?_ onCurve_zero
  · have := fieldP_fact
    simp [geNeutral]
  · simp [geNeutral]
  · simp [geNeutral]
  · simp [geNeutral]

/-- R182: the base point is on the curve, and its register value represents it. -/
theorem represents_base : Represents geBase basePoint := by
  have := fieldP_fact
  have hz : feRes geBase.z = 1 := feRes_one
  have hP : basePoint = (feRes geBase.x, feRes geBase.y) := by simp [basePoint, gePoint, hz]
  have hx : vecVal geBase.x = 15112221349535400772501151409588531511454012693041857206046113283949847762202 := by decide
  have hy : vecVal geBase.y = 46316835694926478169428394003475163141307993866256225615783033603165251855960 := by decide
  have ht : vecVal geBase.t = 46827403850823179245072216630277197565144205554125654976674165829533817101731 := by decide
  rw [hP]
  refine represents_of (by decide) (by rw [hz]; exact one_ne_zero) (by simp [hz]) (by simp [hz]) ?_ ?_
  · rw [hz, mul_one]
    simp only [feRes, ht, hx, hy]
    exact_mod_cast (ZMod.natCast_eq_natCast_iff' _ _ _).2 (by decide)
  · have e : ((46316835694926478169428394003475163141307993866256225615783033603165251855960 ^ 2 : Nat) : ZMod fieldP) =
        ((1 + 37095705934669439343138083508754565189542113879843219016388785533085940283555 *
            15112221349535400772501151409588531511454012693041857206046113283949847762202 ^ 2 *
            46316835694926478169428394003475163141307993866256225615783033603165251855960 ^ 2 +
          15112221349535400772501151409588531511454012693041857206046113283949847762202 ^ 2 : Nat) : ZMod fieldP) :=
      (ZMod.natCast_eq_natCast_iff' _ _ _).2 (by decide)
    rw [Nat.cast_add, Nat.cast_add, Nat.cast_mul, Nat.cast_mul, Nat.cast_pow, Nat.cast_pow, Nat.cast_one, ← resD_eq,
      ← hx, ← hy] at e
    unfold OnCurve
    simp only [feRes]
    linear_combination e

/-- The base point as an element of the group. -/
def baseCurvePoint : CurvePoint := ⟨basePoint, represents_base.onCurve⟩

/-- R193: table entry 4·b + a is a·A + b·G. -/
theorem represents_table {A : Ge} {P : CurvePoint} (h : Represents A P.1) {n : Nat} (hn : n < 16) :
    Represents ((geTable A).getD n geNeutral)
      (letI := curveGroup; ((n % 4) • P + (n / 4) • baseCurvePoint : CurvePoint)).1 := by
  let := curveGroup
  have add : ∀ {g h : Ge} {p q r : CurvePoint}, Represents g p.1 → Represents h q.1 → p + q = r →
      Represents (geAdd g h) r.1 := fun hg hh e => e ▸ hg.add hh
  have dbl : ∀ {g : Ge} {p r : CurvePoint}, Represents g p.1 → p + p = r → Represents (geDbl g) r.1 :=
    fun hg e => e ▸ hg.dbl
  have same : ∀ {g : Ge} {p r : CurvePoint}, Represents g p.1 → p = r → Represents g r.1 := fun hg e => e ▸ hg
  have h0 : Represents geNeutral (0 : CurvePoint).1 := represents_neutral
  have hB : Represents geBase baseCurvePoint.1 := represents_base
  have h2 : Represents (geDbl A) (2 • P : CurvePoint).1 := dbl h (two_nsmul P).symm
  have h3 : Represents (geAdd A (geDbl A)) (3 • P : CurvePoint).1 := add h h2 (by module)
  have b2 : Represents (geDbl geBase) (2 • baseCurvePoint : CurvePoint).1 := dbl hB (two_nsmul _).symm
  have b3 : Represents (geAdd geBase (geDbl geBase)) (3 • baseCurvePoint : CurvePoint).1 := add hB b2 (by module)
  interval_cases n
  · exact same h0 (by module)
  · exact same h (by module)
  · exact same h2 (by module)
  · exact same h3 (by module)
  · exact same hB (by module)
  · exact add h hB (by module)
  · exact add h2 hB (by module)
  · exact add h3 hB (by module)
  · exact same b2 (by module)
  · exact add h b2 (by module)
  · exact add h2 b2 (by module)
  · exact add h3 b2 (by module)
  · exact same b3 (by module)
  · exact add h b3 (by module)
  · exact add h2 b3 (by module)
  · exact add h3 b3 (by module)

/-- R193: the ladder over further digits. -/
theorem represents_foldl {A : Ge} {P : CurvePoint} (h : Represents A P.1) (ds : List Nat) (hd : ∀ d ∈ ds, d < 16)
    {r : Ge} {m n : Nat}
    (hr : Represents r (letI := curveGroup; (m • P + n • baseCurvePoint : CurvePoint)).1) :
    Represents (ds.foldl (ladderStep (geTable A)) r)
      (letI := curveGroup; ((ds.foldl (fun m d => 4 * m + d % 4) m) • P +
        (ds.foldl (fun n d => 4 * n + d / 4) n) • baseCurvePoint : CurvePoint)).1 := by
  let := curveGroup
  induction ds generalizing r m n with
  | nil => exact hr
  | cons d ds ih =>
    rw [List.foldl_cons, List.foldl_cons, List.foldl_cons]
    refine ih (fun x hx => hd x (List.mem_cons_of_mem _ hx)) ?_
    have h4 := hr.dbl.dbl
    have ht := represents_table h (hd d (List.mem_cons_self ..))
    rw [ladderStep]
    by_cases h0 : d = 0
    · subst h0
      simp only [ne_eq, not_true_eq_false, if_false]
      have e : ((4 * m + 0 % 4) • P + (4 * n + 0 / 4) • baseCurvePoint : CurvePoint) =
          (m • P + n • baseCurvePoint + (m • P + n • baseCurvePoint)) +
            (m • P + n • baseCurvePoint + (m • P + n • baseCurvePoint)) := by
        simp only [Nat.zero_mod, Nat.zero_div, add_zero]; module
      rw [e]; exact h4
    · simp only [ne_eq, h0, not_false_eq_true, if_true]
      have e : ((4 * m + d % 4) • P + (4 * n + d / 4) • baseCurvePoint : CurvePoint) =
          ((m • P + n • baseCurvePoint + (m • P + n • baseCurvePoint)) +
            (m • P + n • baseCurvePoint + (m • P + n • baseCurvePoint))) +
            ((d % 4) • P + (d / 4) • baseCurvePoint) := by module
      rw [e]; exact h4.add ht

/-- The digits in base 4, digit 0 first, give back the number below 4^n. -/
theorem base4_digits (n a : Nat) :
    ((List.range n).map fun i => a / 4 ^ i % 4).foldr (fun d m => 4 * m + d) 0 = a % 4 ^ n := by
  induction n generalizing a with
  | zero => simp [Nat.mod_one]
  | succ n ih =>
    rw [List.range_succ_eq_map, List.map_cons, List.foldr_cons, List.map_map]
    have e : (List.range n).map ((fun i => a / 4 ^ i % 4) ∘ Nat.succ) = (List.range n).map fun i => a / 4 / 4 ^ i % 4 := by
      refine List.map_congr_left fun i _ => ?_
      simp only [Function.comp_apply, Nat.succ_eq_add_one, Nat.pow_succ', Nat.div_div_eq_div_mul]
    rw [e, ih, Nat.pow_succ', Nat.mod_mul]; simp only [pow_zero, Nat.div_one]; ring

/-- R193: `ge_dsmul(A, s1, s2)` represents s1'·A + s2'·G, si' being the value mod 2^254. -/
theorem Represents.dsmul {A : Ge} {P : ZMod fieldP × ZMod fieldP} (h : Represents A P) (s1 s2 : Sc) :
    Represents (geDsmul A s1 s2)
      (edAdd (edMul (vecVal s1 % 2 ^ 254) P) (edMul (vecVal s2 % 2 ^ 254) basePoint)) := by
  let := curveGroup
  let Q : CurvePoint := ⟨P, h.onCurve⟩
  have hQ : Represents A Q.1 := h
  have hlen : (scInterleave2 s1 s2).length = 127 := by simp [scInterleave2]
  have hd : ∀ d ∈ scInterleave2 s1 s2, d < 16 := by
    intro d hd
    simp only [scInterleave2, List.mem_map] at hd
    obtain ⟨i, -, rfl⟩ := hd
    rw [interleaveDigit_eq]; omega
  have key : Represents (geDsmul A s1 s2)
      ((((scInterleave2 s1 s2).reverse).foldl (fun m d => 4 * m + d % 4) 0) • Q +
        (((scInterleave2 s1 s2).reverse).foldl (fun n d => 4 * n + d / 4) 0) • baseCurvePoint : CurvePoint).1 := by
    unfold geDsmul
    have hd' : ∀ d ∈ (scInterleave2 s1 s2).reverse, d < 16 := fun d h => hd d (List.mem_reverse.1 h)
    have hl' : (scInterleave2 s1 s2).reverse ≠ [] := by
      intro e; have := congrArg List.length e; simp [hlen] at this
    generalize (scInterleave2 s1 s2).reverse = ds at *
    cases ds with
    | nil => exact absurd rfl hl'
    | cons d ds =>
      rw [ladder, List.foldl_cons, List.foldl_cons]
      refine represents_foldl hQ ds (fun x hx => hd' x (List.mem_cons_of_mem _ hx)) ?_
      rw [Nat.mul_zero, Nat.zero_add, Nat.zero_add]
      exact represents_table hQ (hd' d (List.mem_cons_self ..))
  have e4 : (4 : Nat) ^ 127 = 2 ^ 254 := by norm_num
  have v1 : ((scInterleave2 s1 s2).reverse).foldl (fun m d => 4 * m + d % 4) 0 = vecVal s1 % 2 ^ 254 := by
    rw [List.foldl_reverse, ← e4, ← base4_digits 127 (vecVal s1), scInterleave2, List.foldr_map, List.foldr_map]
    congr 1
    funext i m
    rw [interleaveDigit_eq]; omega
  have v2 : ((scInterleave2 s1 s2).reverse).foldl (fun m d => 4 * m + d / 4) 0 = vecVal s2 % 2 ^ 254 := by
    rw [List.foldl_reverse, ← e4, ← base4_digits 127 (vecVal s2), scInterleave2, List.foldr_map, List.foldr_map]
    congr 1
    funext i m
    rw [interleaveDigit_eq]; omega
  rw [v1, v2] at key
  rw [show edMul (vecVal s1 % 2 ^ 254) P = ((vecVal s1 % 2 ^ 254) • Q : CurvePoint).1 from edMul_eq_nsmul _ Q,
    show edMul (vecVal s2 % 2 ^ 254) basePoint = ((vecVal s2 % 2 ^ 254) • baseCurvePoint : CurvePoint).1 from
      edMul_eq_nsmul _ baseCurvePoint]
  exact key

end Sys2Proof.Machine
end

