-- ==== Sys2Proof/Laws/State.lean ====
section
/-! SUPPORT. One lemma per field per update of the state, so that no proof unfolds a record update. -/

namespace Sys2Proof.Machine.State

/-! setP -/

@[simp] theorem setP_f (st : State) (b : Bool) : (st.setP b).f = st.f := rfl
@[simp] theorem setP_s (st : State) (b : Bool) : (st.setP b).s = st.s := rfl
@[simp] theorem setP_g (st : State) (b : Bool) : (st.setP b).g = st.g := rfl
@[simp] theorem setP_p (st : State) (b : Bool) : (st.setP b).p = b := rfl
@[simp] theorem setP_running (st : State) (b : Bool) : (st.setP b).running = st.running := rfl
@[simp] theorem setP_fault (st : State) (b : Bool) : (st.setP b).fault = st.fault := rfl
@[simp] theorem setP_faultCode (st : State) (b : Bool) : (st.setP b).faultCode = st.faultCode := rfl
@[simp] theorem setP_pkLen (st : State) (b : Bool) : (st.setP b).pkLen = st.pkLen := rfl
@[simp] theorem setP_sigLen (st : State) (b : Bool) : (st.setP b).sigLen = st.sigLen := rfl
@[simp] theorem setP_msgLen (st : State) (b : Bool) : (st.setP b).msgLen = st.msgLen := rfl
@[simp] theorem setP_om (st : State) (b : Bool) : (st.setP b).om = st.om := rfl
@[simp] theorem setP_params (st : State) (b : Bool) : (st.setP b).params = st.params := rfl
@[simp] theorem setP_host (st : State) (b : Bool) : (st.setP b).host = st.host := rfl
@[simp] theorem setP_rdata (st : State) (b : Bool) : (st.setP b).rdata = st.rdata := rfl
@[simp] theorem setP_resets (st : State) (b : Bool) : (st.setP b).resets = st.resets := rfl
@[simp] theorem setP_draws (st : State) (b : Bool) : (st.setP b).draws = st.draws := rfl

/-! writeF -/

@[simp] theorem writeF_f (st : State) (i : Nat) (v : Fe) : (st.writeF i v).f = st.f.setIfInBounds i ⟨v, true⟩ := rfl
@[simp] theorem writeF_s (st : State) (i : Nat) (v : Fe) : (st.writeF i v).s = st.s := rfl
@[simp] theorem writeF_g (st : State) (i : Nat) (v : Fe) : (st.writeF i v).g = st.g := rfl
@[simp] theorem writeF_p (st : State) (i : Nat) (v : Fe) : (st.writeF i v).p = st.p := rfl
@[simp] theorem writeF_running (st : State) (i : Nat) (v : Fe) : (st.writeF i v).running = st.running := rfl
@[simp] theorem writeF_fault (st : State) (i : Nat) (v : Fe) : (st.writeF i v).fault = st.fault := rfl
@[simp] theorem writeF_faultCode (st : State) (i : Nat) (v : Fe) : (st.writeF i v).faultCode = st.faultCode := rfl
@[simp] theorem writeF_pkLen (st : State) (i : Nat) (v : Fe) : (st.writeF i v).pkLen = st.pkLen := rfl
@[simp] theorem writeF_sigLen (st : State) (i : Nat) (v : Fe) : (st.writeF i v).sigLen = st.sigLen := rfl
@[simp] theorem writeF_msgLen (st : State) (i : Nat) (v : Fe) : (st.writeF i v).msgLen = st.msgLen := rfl
@[simp] theorem writeF_om (st : State) (i : Nat) (v : Fe) : (st.writeF i v).om = st.om := rfl
@[simp] theorem writeF_params (st : State) (i : Nat) (v : Fe) : (st.writeF i v).params = st.params := rfl
@[simp] theorem writeF_host (st : State) (i : Nat) (v : Fe) : (st.writeF i v).host = st.host := rfl
@[simp] theorem writeF_rdata (st : State) (i : Nat) (v : Fe) : (st.writeF i v).rdata = st.rdata := rfl
@[simp] theorem writeF_resets (st : State) (i : Nat) (v : Fe) : (st.writeF i v).resets = st.resets := rfl
@[simp] theorem writeF_draws (st : State) (i : Nat) (v : Fe) : (st.writeF i v).draws = st.draws := rfl

/-! writeS -/

@[simp] theorem writeS_f (st : State) (i : Nat) (v : Sc) : (st.writeS i v).f = st.f := rfl
@[simp] theorem writeS_s (st : State) (i : Nat) (v : Sc) : (st.writeS i v).s = st.s.setIfInBounds i ⟨v, true⟩ := rfl
@[simp] theorem writeS_g (st : State) (i : Nat) (v : Sc) : (st.writeS i v).g = st.g := rfl
@[simp] theorem writeS_p (st : State) (i : Nat) (v : Sc) : (st.writeS i v).p = st.p := rfl
@[simp] theorem writeS_running (st : State) (i : Nat) (v : Sc) : (st.writeS i v).running = st.running := rfl
@[simp] theorem writeS_fault (st : State) (i : Nat) (v : Sc) : (st.writeS i v).fault = st.fault := rfl
@[simp] theorem writeS_faultCode (st : State) (i : Nat) (v : Sc) : (st.writeS i v).faultCode = st.faultCode := rfl
@[simp] theorem writeS_pkLen (st : State) (i : Nat) (v : Sc) : (st.writeS i v).pkLen = st.pkLen := rfl
@[simp] theorem writeS_sigLen (st : State) (i : Nat) (v : Sc) : (st.writeS i v).sigLen = st.sigLen := rfl
@[simp] theorem writeS_msgLen (st : State) (i : Nat) (v : Sc) : (st.writeS i v).msgLen = st.msgLen := rfl
@[simp] theorem writeS_om (st : State) (i : Nat) (v : Sc) : (st.writeS i v).om = st.om := rfl
@[simp] theorem writeS_params (st : State) (i : Nat) (v : Sc) : (st.writeS i v).params = st.params := rfl
@[simp] theorem writeS_host (st : State) (i : Nat) (v : Sc) : (st.writeS i v).host = st.host := rfl
@[simp] theorem writeS_rdata (st : State) (i : Nat) (v : Sc) : (st.writeS i v).rdata = st.rdata := rfl
@[simp] theorem writeS_resets (st : State) (i : Nat) (v : Sc) : (st.writeS i v).resets = st.resets := rfl
@[simp] theorem writeS_draws (st : State) (i : Nat) (v : Sc) : (st.writeS i v).draws = st.draws := rfl

/-! writeG -/

@[simp] theorem writeG_f (st : State) (i : Nat) (v : Ge) : (st.writeG i v).f = st.f := rfl
@[simp] theorem writeG_s (st : State) (i : Nat) (v : Ge) : (st.writeG i v).s = st.s := rfl
@[simp] theorem writeG_g (st : State) (i : Nat) (v : Ge) : (st.writeG i v).g = st.g.setIfInBounds i ⟨v, true⟩ := rfl
@[simp] theorem writeG_p (st : State) (i : Nat) (v : Ge) : (st.writeG i v).p = st.p := rfl
@[simp] theorem writeG_running (st : State) (i : Nat) (v : Ge) : (st.writeG i v).running = st.running := rfl
@[simp] theorem writeG_fault (st : State) (i : Nat) (v : Ge) : (st.writeG i v).fault = st.fault := rfl
@[simp] theorem writeG_faultCode (st : State) (i : Nat) (v : Ge) : (st.writeG i v).faultCode = st.faultCode := rfl
@[simp] theorem writeG_pkLen (st : State) (i : Nat) (v : Ge) : (st.writeG i v).pkLen = st.pkLen := rfl
@[simp] theorem writeG_sigLen (st : State) (i : Nat) (v : Ge) : (st.writeG i v).sigLen = st.sigLen := rfl
@[simp] theorem writeG_msgLen (st : State) (i : Nat) (v : Ge) : (st.writeG i v).msgLen = st.msgLen := rfl
@[simp] theorem writeG_om (st : State) (i : Nat) (v : Ge) : (st.writeG i v).om = st.om := rfl
@[simp] theorem writeG_params (st : State) (i : Nat) (v : Ge) : (st.writeG i v).params = st.params := rfl
@[simp] theorem writeG_host (st : State) (i : Nat) (v : Ge) : (st.writeG i v).host = st.host := rfl
@[simp] theorem writeG_rdata (st : State) (i : Nat) (v : Ge) : (st.writeG i v).rdata = st.rdata := rfl
@[simp] theorem writeG_resets (st : State) (i : Nat) (v : Ge) : (st.writeG i v).resets = st.resets := rfl
@[simp] theorem writeG_draws (st : State) (i : Nat) (v : Ge) : (st.writeG i v).draws = st.draws := rfl

/-! clearG -/

@[simp] theorem clearG_f (st : State) (i : Nat) : (st.clearG i).f = st.f := rfl
@[simp] theorem clearG_s (st : State) (i : Nat) : (st.clearG i).s = st.s := rfl
@[simp] theorem clearG_g (st : State) (i : Nat) : (st.clearG i).g = st.g.setIfInBounds i ⟨st.ge i, false⟩ := rfl
@[simp] theorem clearG_p (st : State) (i : Nat) : (st.clearG i).p = st.p := rfl
@[simp] theorem clearG_running (st : State) (i : Nat) : (st.clearG i).running = st.running := rfl
@[simp] theorem clearG_fault (st : State) (i : Nat) : (st.clearG i).fault = st.fault := rfl
@[simp] theorem clearG_faultCode (st : State) (i : Nat) : (st.clearG i).faultCode = st.faultCode := rfl
@[simp] theorem clearG_pkLen (st : State) (i : Nat) : (st.clearG i).pkLen = st.pkLen := rfl
@[simp] theorem clearG_sigLen (st : State) (i : Nat) : (st.clearG i).sigLen = st.sigLen := rfl
@[simp] theorem clearG_msgLen (st : State) (i : Nat) : (st.clearG i).msgLen = st.msgLen := rfl
@[simp] theorem clearG_om (st : State) (i : Nat) : (st.clearG i).om = st.om := rfl
@[simp] theorem clearG_params (st : State) (i : Nat) : (st.clearG i).params = st.params := rfl
@[simp] theorem clearG_host (st : State) (i : Nat) : (st.clearG i).host = st.host := rfl
@[simp] theorem clearG_rdata (st : State) (i : Nat) : (st.clearG i).rdata = st.rdata := rfl
@[simp] theorem clearG_resets (st : State) (i : Nat) : (st.clearG i).resets = st.resets := rfl
@[simp] theorem clearG_draws (st : State) (i : Nat) : (st.clearG i).draws = st.draws := rfl

/-! clearAll -/

@[simp] theorem clearAll_f (st : State) : (st.clearAll).f = invalidateAll st.f := rfl
@[simp] theorem clearAll_s (st : State) : (st.clearAll).s = invalidateAll st.s := rfl
@[simp] theorem clearAll_g (st : State) : (st.clearAll).g = invalidateAll st.g := rfl
@[simp] theorem clearAll_p (st : State) : (st.clearAll).p = st.p := rfl
@[simp] theorem clearAll_running (st : State) : (st.clearAll).running = st.running := rfl
@[simp] theorem clearAll_fault (st : State) : (st.clearAll).fault = st.fault := rfl
@[simp] theorem clearAll_faultCode (st : State) : (st.clearAll).faultCode = st.faultCode := rfl
@[simp] theorem clearAll_pkLen (st : State) : (st.clearAll).pkLen = st.pkLen := rfl
@[simp] theorem clearAll_sigLen (st : State) : (st.clearAll).sigLen = st.sigLen := rfl
@[simp] theorem clearAll_msgLen (st : State) : (st.clearAll).msgLen = st.msgLen := rfl
@[simp] theorem clearAll_om (st : State) : (st.clearAll).om = st.om := rfl
@[simp] theorem clearAll_params (st : State) : (st.clearAll).params = st.params := rfl
@[simp] theorem clearAll_host (st : State) : (st.clearAll).host = st.host := rfl
@[simp] theorem clearAll_rdata (st : State) : (st.clearAll).rdata = st.rdata := rfl
@[simp] theorem clearAll_resets (st : State) : (st.clearAll).resets = st.resets := rfl
@[simp] theorem clearAll_draws (st : State) : (st.clearAll).draws = st.draws := rfl

/-! writeBytes -/

@[simp] theorem writeBytes_f (st : State) (a : Nat) (bs : List Byte) : (st.writeBytes a bs).f = st.f := rfl
@[simp] theorem writeBytes_s (st : State) (a : Nat) (bs : List Byte) : (st.writeBytes a bs).s = st.s := rfl
@[simp] theorem writeBytes_g (st : State) (a : Nat) (bs : List Byte) : (st.writeBytes a bs).g = st.g := rfl
@[simp] theorem writeBytes_p (st : State) (a : Nat) (bs : List Byte) : (st.writeBytes a bs).p = st.p := rfl
@[simp] theorem writeBytes_running (st : State) (a : Nat) (bs : List Byte) : (st.writeBytes a bs).running = st.running := rfl
@[simp] theorem writeBytes_fault (st : State) (a : Nat) (bs : List Byte) : (st.writeBytes a bs).fault = st.fault := rfl
@[simp] theorem writeBytes_faultCode (st : State) (a : Nat) (bs : List Byte) : (st.writeBytes a bs).faultCode = st.faultCode := rfl
@[simp] theorem writeBytes_pkLen (st : State) (a : Nat) (bs : List Byte) : (st.writeBytes a bs).pkLen = st.pkLen := rfl
@[simp] theorem writeBytes_sigLen (st : State) (a : Nat) (bs : List Byte) : (st.writeBytes a bs).sigLen = st.sigLen := rfl
@[simp] theorem writeBytes_msgLen (st : State) (a : Nat) (bs : List Byte) : (st.writeBytes a bs).msgLen = st.msgLen := rfl
@[simp] theorem writeBytes_om (st : State) (a : Nat) (bs : List Byte) : (st.writeBytes a bs).om = st.om.writeAll a bs := rfl
@[simp] theorem writeBytes_params (st : State) (a : Nat) (bs : List Byte) : (st.writeBytes a bs).params = st.params := rfl
@[simp] theorem writeBytes_host (st : State) (a : Nat) (bs : List Byte) : (st.writeBytes a bs).host = st.host := rfl
@[simp] theorem writeBytes_rdata (st : State) (a : Nat) (bs : List Byte) : (st.writeBytes a bs).rdata = st.rdata := rfl
@[simp] theorem writeBytes_resets (st : State) (a : Nat) (bs : List Byte) : (st.writeBytes a bs).resets = st.resets := rfl
@[simp] theorem writeBytes_draws (st : State) (a : Nat) (bs : List Byte) : (st.writeBytes a bs).draws = st.draws := rfl

/-! takeFault -/

@[simp] theorem takeFault_f (st : State) (c : FaultCode) : (st.takeFault c).f = st.f := rfl
@[simp] theorem takeFault_s (st : State) (c : FaultCode) : (st.takeFault c).s = st.s := rfl
@[simp] theorem takeFault_g (st : State) (c : FaultCode) : (st.takeFault c).g = st.g := rfl
@[simp] theorem takeFault_p (st : State) (c : FaultCode) : (st.takeFault c).p = st.p := rfl
@[simp] theorem takeFault_running (st : State) (c : FaultCode) : (st.takeFault c).running = none := rfl
@[simp] theorem takeFault_fault (st : State) (c : FaultCode) : (st.takeFault c).fault = true := rfl
@[simp] theorem takeFault_faultCode (st : State) (c : FaultCode) : (st.takeFault c).faultCode = c.toByte := rfl
@[simp] theorem takeFault_pkLen (st : State) (c : FaultCode) : (st.takeFault c).pkLen = st.pkLen := rfl
@[simp] theorem takeFault_sigLen (st : State) (c : FaultCode) : (st.takeFault c).sigLen = st.sigLen := rfl
@[simp] theorem takeFault_msgLen (st : State) (c : FaultCode) : (st.takeFault c).msgLen = st.msgLen := rfl
@[simp] theorem takeFault_om (st : State) (c : FaultCode) : (st.takeFault c).om = st.om := rfl
@[simp] theorem takeFault_params (st : State) (c : FaultCode) : (st.takeFault c).params = st.params := rfl
@[simp] theorem takeFault_host (st : State) (c : FaultCode) : (st.takeFault c).host = st.host := rfl
@[simp] theorem takeFault_rdata (st : State) (c : FaultCode) : (st.takeFault c).rdata = st.rdata := rfl
@[simp] theorem takeFault_resets (st : State) (c : FaultCode) : (st.takeFault c).resets = st.resets := rfl
@[simp] theorem takeFault_draws (st : State) (c : FaultCode) : (st.takeFault c).draws = st.draws := rfl

/-! resetEvent -/

@[simp] theorem resetEvent_f (st : State) : (st.resetEvent).f = invalidateAll st.f := rfl
@[simp] theorem resetEvent_s (st : State) : (st.resetEvent).s = invalidateAll st.s := rfl
@[simp] theorem resetEvent_g (st : State) : (st.resetEvent).g = invalidateAll st.g := rfl
@[simp] theorem resetEvent_p (st : State) : (st.resetEvent).p = false := rfl
@[simp] theorem resetEvent_running (st : State) : (st.resetEvent).running = none := rfl
@[simp] theorem resetEvent_fault (st : State) : (st.resetEvent).fault = false := rfl
@[simp] theorem resetEvent_faultCode (st : State) : (st.resetEvent).faultCode = 0 := rfl
@[simp] theorem resetEvent_pkLen (st : State) : (st.resetEvent).pkLen = 0 := rfl
@[simp] theorem resetEvent_sigLen (st : State) : (st.resetEvent).sigLen = 0 := rfl
@[simp] theorem resetEvent_msgLen (st : State) : (st.resetEvent).msgLen = 0 := rfl
@[simp] theorem resetEvent_om (st : State) : (st.resetEvent).om = [] := rfl
@[simp] theorem resetEvent_params (st : State) : (st.resetEvent).params = st.params := rfl
@[simp] theorem resetEvent_host (st : State) : (st.resetEvent).host = st.host := rfl
@[simp] theorem resetEvent_rdata (st : State) : (st.resetEvent).rdata = st.rdata := rfl
@[simp] theorem resetEvent_resets (st : State) : (st.resetEvent).resets = st.resets + 1 := rfl
@[simp] theorem resetEvent_draws (st : State) : (st.resetEvent).draws = st.draws := rfl

end Sys2Proof.Machine.State
end

