-- ==== Sys2Proof/Laws/Memory.lean ====
section
/-! SUPPORT. Operand memory: what a read gives after a write, that every operation keeps the canonical form and the
address range, and that canonical memories that read alike are equal. -/

namespace Sys2Proof.Machine

/-! Reads after writes. -/

theorem get?_write (m : Memory) (a : Nat) (b : Byte) (c : Nat) :
    (m.write a b).get? c = if c = a then some b else m.get? c := by
  induction m with
  | nil => simp [Memory.write, Memory.get?, eq_comm]
  | cons e rest ih =>
    obtain ⟨k, d⟩ := e
    simp only [Memory.write]
    split
    · simp only [Memory.get?, eq_comm]
    · split
      · next h => subst h; simp only [Memory.get?, eq_comm]; split <;> rfl
      · simp only [Memory.get?, ih]
        by_cases h1 : k = c
        · subst h1; rw [if_pos rfl, if_pos rfl, if_neg (by omega)]
        · rw [if_neg h1, if_neg h1]

/-- A read after a multi-byte write: the written byte inside the span, the old one outside. -/
theorem get?_writeAll (m : Memory) (a : Nat) (bs : List Byte) (c : Nat) :
    (m.writeAll a bs).get? c = if a ≤ c ∧ c < a + bs.length then bs[c - a]? else m.get? c := by
  induction bs generalizing m a with
  | nil => rw [if_neg (by simp)]; rfl
  | cons b bs ih =>
    rw [Memory.writeAll, ih, List.length_cons]
    by_cases h : c = a
    · subst h
      rw [if_neg (by omega), if_pos (by omega), get?_write, if_pos rfl]; simp
    · by_cases h2 : a + 1 ≤ c ∧ c < a + 1 + bs.length
      · rw [if_pos h2, if_pos (by omega)]
        obtain ⟨n, rfl⟩ : ∃ n, c = a + 1 + n := ⟨c - (a + 1), by omega⟩
        rw [show a + 1 + n - (a + 1) = n by omega, show a + 1 + n - a = n + 1 by omega, List.getElem?_cons_succ]
      · rw [if_neg h2, if_neg (by omega), get?_write, if_neg h]

theorem readByte_writeBytes_outside (s : State) (a : Nat) (bs : List Byte) (c : Nat) (h : c < a ∨ a + bs.length ≤ c) :
    (s.writeBytes a bs).readByte c = s.readByte c := by
  unfold State.readByte
  simp only [State.writeBytes_om, State.writeBytes_resets, get?_writeAll]
  rw [if_neg (by omega)]

theorem readByte_writeBytes_inside (s : State) (a : Nat) (bs : List Byte) (i : Nat) (h : i < bs.length) :
    (s.writeBytes a bs).readByte (a + i) = bs[i] := by
  unfold State.readByte
  simp only [State.writeBytes_om, State.writeBytes_resets, get?_writeAll]
  rw [if_pos (by omega), Nat.add_sub_cancel_left, List.getElem?_eq_getElem h]

@[simp] theorem readBytes_length (s : State) (a n : Nat) : (s.readBytes a n).length = n := by
  induction n generalizing a with
  | zero => rfl
  | succ n ih => simp [State.readBytes, ih]

theorem getElem?_readBytes (s : State) (a n i : Nat) (h : i < n) : (s.readBytes a n)[i]? = some (s.readByte (a + i)) := by
  induction n generalizing a i with
  | zero => omega
  | succ n ih =>
    cases i with
    | zero => rfl
    | succ i => rw [State.readBytes, List.getElem?_cons_succ, ih _ _ (by omega)]; congr 2; omega

theorem readBytes_congr {s t : State} {a n : Nat} (h : ∀ c, a ≤ c → c < a + n → t.readByte c = s.readByte c) :
    t.readBytes a n = s.readBytes a n := by
  induction n generalizing a with
  | zero => rfl
  | succ n ih =>
    rw [State.readBytes, State.readBytes, h a (by omega) (by omega), ih fun c h1 h2 => h c (by omega) (by omega)]

theorem readBytes_take (s : State) (a : Nat) {n m : Nat} (h : n ≤ m) : (s.readBytes a m).take n = s.readBytes a n := by
  apply List.ext_getElem?
  intro i
  by_cases hi : i < n
  · rw [List.getElem?_take_of_lt hi, getElem?_readBytes _ _ _ _ hi, getElem?_readBytes _ _ _ _ (by omega)]
  · rw [List.getElem?_eq_none (by simp; omega), List.getElem?_eq_none (by simp; omega)]

theorem readBytes_drop (s : State) (a n m : Nat) : (s.readBytes a m).drop n = s.readBytes (a + n) (m - n) := by
  apply List.ext_getElem?
  intro i
  rw [List.getElem?_drop]
  by_cases hi : i < m - n
  · rw [getElem?_readBytes _ _ _ _ hi, getElem?_readBytes _ _ _ _ (by omega), Nat.add_assoc]
  · rw [List.getElem?_eq_none (by simp; omega), List.getElem?_eq_none (by simp; omega)]

/-- The bytes just written are the bytes read. -/
theorem readBytes_writeBytes (s : State) (a : Nat) (bs : List Byte) :
    (s.writeBytes a bs).readBytes a bs.length = bs := by
  apply List.ext_getElem?
  intro i
  by_cases h : i < bs.length
  · rw [getElem?_readBytes _ _ _ _ h, readByte_writeBytes_inside s a bs i h, List.getElem?_eq_getElem h]
  · rw [List.getElem?_eq_none (by simp; omega), List.getElem?_eq_none (by omega)]

/-! The canonical form. -/

theorem wf_cons (k : Nat) (c : Byte) (rest : Memory) :
    Memory.wf ((k, c) :: rest) = true ↔ (∀ e ∈ rest, k < e.1) ∧ Memory.wf rest = true := by
  induction rest generalizing k c with
  | nil => simp [Memory.wf]
  | cons e rest ih =>
    obtain ⟨k2, c2⟩ := e
    rw [Memory.wf, Bool.and_eq_true, decide_eq_true_eq, ih]
    constructor
    · rintro ⟨h1, h2, h3⟩
      refine ⟨fun e he => ?_, h2, h3⟩
      rw [List.mem_cons] at he
      rcases he with rfl | he
      · exact h1
      · exact lt_trans h1 (h2 e he)
    · rintro ⟨h1, h2, h3⟩
      exact ⟨h1 _ (List.mem_cons_self ..), h2, h3⟩

theorem mem_write {m : Memory} {a : Nat} {b : Byte} {e : Nat × Byte} (h : e ∈ m.write a b) : e = (a, b) ∨ e ∈ m := by
  induction m with
  | nil => simpa [Memory.write] using h
  | cons e' rest ih =>
    obtain ⟨k, c⟩ := e'
    rw [Memory.write] at h
    split at h
    · simpa using h
    · split at h
      · rw [List.mem_cons] at h; rcases h with h | h
        · exact .inl h
        · exact .inr (List.mem_cons_of_mem _ h)
      · rw [List.mem_cons] at h; rcases h with h | h
        · exact .inr (h ▸ List.mem_cons_self ..)
        · rcases ih h with h | h
          · exact .inl h
          · exact .inr (List.mem_cons_of_mem _ h)

/-- A write keeps the canonical form. -/
theorem wf_write {m : Memory} (h : m.wf = true) (a : Nat) (b : Byte) : (m.write a b).wf = true := by
  induction m with
  | nil => rfl
  | cons e rest ih =>
    obtain ⟨k, c⟩ := e
    obtain ⟨h1, h2⟩ := (wf_cons k c rest).1 h
    rw [Memory.write]
    split
    · next hlt =>
      refine (wf_cons ..).2 ⟨fun e he => ?_, h⟩
      rw [List.mem_cons] at he
      rcases he with rfl | he
      · exact hlt
      · exact lt_trans hlt (h1 e he)
    · split
      · next heq => subst heq; exact (wf_cons ..).2 ⟨h1, h2⟩
      · refine (wf_cons ..).2 ⟨fun e he => ?_, ih h2⟩
        rcases mem_write he with rfl | he
        · simp only; omega
        · exact h1 e he

theorem wf_writeAll {m : Memory} (h : m.wf = true) (a : Nat) (bs : List Byte) : (m.writeAll a bs).wf = true := by
  induction bs generalizing m a with
  | nil => exact h
  | cons b bs ih => exact ih (wf_write h a b) (a + 1)

theorem mem_writeAll {m : Memory} {a : Nat} {bs : List Byte} {e : Nat × Byte} (h : e ∈ m.writeAll a bs) :
    (a ≤ e.1 ∧ e.1 < a + bs.length) ∨ e ∈ m := by
  induction bs generalizing m a with
  | nil => exact .inr h
  | cons b bs ih =>
    rw [List.length_cons]
    rcases ih h with h | h
    · left; omega
    · rcases mem_write h with rfl | h
      · left; simp only; omega
      · exact .inr h

/-- Canonical memories that hold the same byte at every address are equal. -/
theorem memory_ext {m n : Memory} (hm : m.wf = true) (hn : n.wf = true) (h : ∀ a, m.get? a = n.get? a) : m = n := by
  have hmem : ∀ {m : Memory} {a : Nat} {b : Byte}, m.get? a = some b → (a, b) ∈ m := by
    intro m a b he
    induction m with
    | nil => simp [Memory.get?] at he
    | cons e rest ih =>
      obtain ⟨k, c⟩ := e
      rw [Memory.get?] at he
      split at he
      · next hk => subst hk; cases he; exact List.mem_cons_self ..
      · exact List.mem_cons_of_mem _ (ih he)
  induction m generalizing n with
  | nil =>
    cases n with
    | nil => rfl
    | cons e rest => obtain ⟨k, c⟩ := e; have := h k; simp [Memory.get?] at this
  | cons e rest ih =>
    obtain ⟨k, c⟩ := e
    obtain ⟨hm1, hm2⟩ := (wf_cons ..).1 hm
    cases n with
    | nil => have := h k; simp [Memory.get?] at this
    | cons e' rest' =>
      obtain ⟨k', c'⟩ := e'
      obtain ⟨hn1, hn2⟩ := (wf_cons ..).1 hn
      have hk : k = k' := by
        have h1 := hmem (m := (k', c') :: rest') (by rw [← h k]; simp [Memory.get?] : _ = some c)
        have h2 := hmem (m := (k, c) :: rest) (by rw [h k']; simp [Memory.get?] : _ = some c')
        simp only [List.mem_cons, Prod.mk.injEq] at h1 h2
        rcases h1 with ⟨h1, -⟩ | h1
        · exact h1
        · rcases h2 with ⟨h2, -⟩ | h2
          · exact h2.symm
          · have := hn1 _ h1; have := hm1 _ h2; simp only at *; omega
      subst hk
      have hc : c = c' := by have := h k; simpa [Memory.get?] using this
      subst hc
      congr 1
      refine ih hm2 hn2 fun a => ?_
      by_cases ha : k = a
      · subst ha
        have none_of : ∀ {m : Memory}, (∀ e ∈ m, k < e.1) → m.get? k = none := by
          intro m hk
          cases hg : m.get? k with
          | none => rfl
          | some b => have := hk _ (hmem hg); simp at this
        rw [none_of hm1, none_of hn1]
      · have := h a; simpa [Memory.get?, ha] using this

end Sys2Proof.Machine
end

