-- ==== Sys2Proof/Laws/Ops.lean ====
section
/-! SUPPORT. The register files, the checks before a command, and what `exec` can answer: one lemma per shared
operation. -/

namespace Sys2Proof.Machine

/-! The register files. -/

theorem fe_writeF (s : State) {i : Nat} (h : i < 16) (v : Fe) (j : Nat) :
    (s.writeF i v).fe j = if j = i then v else s.fe j := by
  simp only [State.fe, State.writeF_f, Vector.getElem?_setIfInBounds]
  by_cases e : i = j
  · subst e; simp [h]
  · rw [if_neg e, if_neg (fun h => e h.symm)]

theorem sc_writeS (s : State) {i : Nat} (h : i < 4) (v : Sc) (j : Nat) :
    (s.writeS i v).sc j = if j = i then v else s.sc j := by
  simp only [State.sc, State.writeS_s, Vector.getElem?_setIfInBounds]
  by_cases e : i = j
  · subst e; simp [h]
  · rw [if_neg e, if_neg (fun h => e h.symm)]

theorem ge_writeG (s : State) {i : Nat} (h : i < 4) (v : Ge) (j : Nat) :
    (s.writeG i v).ge j = if j = i then v else s.ge j := by
  simp only [State.ge, State.writeG_g, Vector.getElem?_setIfInBounds]
  by_cases e : i = j
  · subst e; simp [h]
  · rw [if_neg e, if_neg (fun h => e h.symm)]

theorem isValid_writeF (s : State) {i : Nat} (h : i < 16) (v : Fe) (r : RegName) :
    (s.writeF i v).isValid r = (decide (r = .f i) || s.isValid r) := by
  cases r with
  | f j =>
    simp only [State.isValid, State.writeF_f, Vector.getElem?_setIfInBounds, RegName.f.injEq]
    by_cases e : i = j
    · subst e; simp [h]
    · simp [e, Ne.symm e]
  | s j => simp [State.isValid]
  | g j => simp [State.isValid]

theorem isValid_writeS (s : State) {i : Nat} (h : i < 4) (v : Sc) (r : RegName) :
    (s.writeS i v).isValid r = (decide (r = .s i) || s.isValid r) := by
  cases r with
  | f j => simp [State.isValid]
  | s j =>
    simp only [State.isValid, State.writeS_s, Vector.getElem?_setIfInBounds, RegName.s.injEq]
    by_cases e : i = j
    · subst e; simp [h]
    · simp [e, Ne.symm e]
  | g j => simp [State.isValid]

theorem isValid_writeG (s : State) {i : Nat} (h : i < 4) (v : Ge) (r : RegName) :
    (s.writeG i v).isValid r = (decide (r = .g i) || s.isValid r) := by
  cases r with
  | f j => simp [State.isValid]
  | s j => simp [State.isValid]
  | g j =>
    simp only [State.isValid, State.writeG_g, Vector.getElem?_setIfInBounds, RegName.g.injEq]
    by_cases e : i = j
    · subst e; simp [h]
    · simp [e, Ne.symm e]

theorem isValid_clearG (s : State) {i : Nat} (h : i < 4) (r : RegName) :
    (s.clearG i).isValid r = (!decide (r = .g i) && s.isValid r) := by
  cases r with
  | f j => simp [State.isValid]
  | s j => simp [State.isValid]
  | g j =>
    simp only [State.isValid, State.clearG_g, Vector.getElem?_setIfInBounds, RegName.g.injEq]
    by_cases e : i = j
    · subst e; simp [h]
    · simp [e, Ne.symm e]

theorem ge_clearG (s : State) {i : Nat} (h : i < 4) (j : Nat) : (s.clearG i).ge j = s.ge j := by
  have e' : (s.clearG i).ge j = (((s.g.setIfInBounds i ⟨s.ge i, false⟩)[j]?).map Reg.value).getD
      ⟨zeroLimbs, zeroLimbs, zeroLimbs, zeroLimbs⟩ := rfl
  rw [e', Vector.getElem?_setIfInBounds]
  by_cases e : i = j
  · subst e; simp [h]
  · rw [if_neg e]; rfl

theorem getElem?_invalidateAll {α : Type} {n : Nat} (v : Vector (Reg α) n) (i : Nat) :
    (invalidateAll v)[i]? = v[i]?.map Reg.invalidate := by
  have h : (invalidateAll v).toList = v.toList.map Reg.invalidate := by simp [invalidateAll]
  rw [← Vector.getElem?_toList, h, List.getElem?_map, Vector.getElem?_toList]

@[simp] theorem isValid_clearAll (s : State) (r : RegName) : s.clearAll.isValid r = false := by
  cases r with
  | f i =>
    simp only [State.isValid, State.clearAll_f, getElem?_invalidateAll, Option.map_map]
    cases s.f[i]? <;> rfl
  | s i =>
    simp only [State.isValid, State.clearAll_s, getElem?_invalidateAll, Option.map_map]
    cases s.s[i]? <;> rfl
  | g i =>
    simp only [State.isValid, State.clearAll_g, getElem?_invalidateAll, Option.map_map]
    cases s.g[i]? <;> rfl

@[simp] theorem isValid_resetEvent (s : State) (r : RegName) : s.resetEvent.isValid r = false :=
  isValid_clearAll s r

@[simp] theorem isValid_setP (s : State) (b : Bool) (r : RegName) : (s.setP b).isValid r = s.isValid r := by
  cases r <;> rfl

@[simp] theorem isValid_writeBytes (s : State) (a : Nat) (bs : List Byte) (r : RegName) :
    (s.writeBytes a bs).isValid r = s.isValid r := by
  cases r <;> rfl

@[simp] theorem isValid_takeFault (s : State) (c : FaultCode) (r : RegName) :
    (s.takeFault c).isValid r = s.isValid r := by
  cases r <;> rfl

/-! Reads of a register file that an update does not touch. -/

@[simp] theorem sc_writeF (s : State) (i : Nat) (v : Fe) (j : Nat) : (s.writeF i v).sc j = s.sc j := rfl

@[simp] theorem ge_writeF (s : State) (i : Nat) (v : Fe) (j : Nat) : (s.writeF i v).ge j = s.ge j := rfl

@[simp] theorem fe_writeS (s : State) (i : Nat) (v : Sc) (j : Nat) : (s.writeS i v).fe j = s.fe j := rfl

@[simp] theorem ge_writeS (s : State) (i : Nat) (v : Sc) (j : Nat) : (s.writeS i v).ge j = s.ge j := rfl

@[simp] theorem fe_writeG (s : State) (i : Nat) (v : Ge) (j : Nat) : (s.writeG i v).fe j = s.fe j := rfl

@[simp] theorem sc_writeG (s : State) (i : Nat) (v : Ge) (j : Nat) : (s.writeG i v).sc j = s.sc j := rfl

@[simp] theorem fe_clearG (s : State) (i : Nat) (j : Nat) : (s.clearG i).fe j = s.fe j := rfl

@[simp] theorem sc_clearG (s : State) (i : Nat) (j : Nat) : (s.clearG i).sc j = s.sc j := rfl

@[simp] theorem fe_setP (s : State) (b : Bool) (j : Nat) : (s.setP b).fe j = s.fe j := rfl

@[simp] theorem sc_setP (s : State) (b : Bool) (j : Nat) : (s.setP b).sc j = s.sc j := rfl

@[simp] theorem ge_setP (s : State) (b : Bool) (j : Nat) : (s.setP b).ge j = s.ge j := rfl

@[simp] theorem fe_writeBytes (s : State) (a : Nat) (bs : List Byte) (j : Nat) : (s.writeBytes a bs).fe j = s.fe j := rfl

@[simp] theorem sc_writeBytes (s : State) (a : Nat) (bs : List Byte) (j : Nat) : (s.writeBytes a bs).sc j = s.sc j := rfl

@[simp] theorem ge_writeBytes (s : State) (a : Nat) (bs : List Byte) (j : Nat) : (s.writeBytes a bs).ge j = s.ge j := rfl

@[simp] theorem fe_takeFault (s : State) (c : FaultCode) (j : Nat) : (s.takeFault c).fe j = s.fe j := rfl

@[simp] theorem sc_takeFault (s : State) (c : FaultCode) (j : Nat) : (s.takeFault c).sc j = s.sc j := rfl

@[simp] theorem ge_takeFault (s : State) (c : FaultCode) (j : Nat) : (s.takeFault c).ge j = s.ge j := rfl

/-! The checks before a command. -/

/-- A command passes its checks exactly when it has a legal word, every source register is written, its span ends at or
below 0x1000 and, for VERIFY, the message fits. -/
theorem precheck_none_iff (i : Instr) (s : State) :
    precheck i s = none ↔
      i.wellFormed = true ∧ (∀ r ∈ i.sources, s.isValid r = true) ∧ spanOk i.readSpan = true ∧
        spanOk i.writeSpan = true ∧ lenOk i s = true := by
  unfold precheck
  cases hw : i.wellFormed
  · simp
  · cases hs : i.sources.all s.isValid
    · simp only [List.all_eq_false] at hs
      obtain ⟨r, hr, hv⟩ := hs
      simp only [Bool.not_true, Bool.false_eq_true, if_false, Bool.not_false, if_true, reduceCtorEq, true_and, false_iff]
      exact fun h => hv (h.1 r hr)
    · rw [List.all_eq_true] at hs
      cases hr : spanOk i.readSpan <;> cases hq : spanOk i.writeSpan <;> cases hl : lenOk i s <;>
        simp_all

/-- What a command does: its effect where every check passes, its fault and nothing else where one fails. -/
theorem command_next (s : State) (i : Instr) (s' : State) :
    s.command i s' = .next (match precheck i s with | some c => s.takeFault c | none => s') := by
  unfold State.command
  cases precheck i s <;> rfl

theorem command_ok {s : State} {i : Instr} (h : precheck i s = none) (s' : State) : s.command i s' = .next s' := by
  rw [command_next, h]

theorem command_fault {s : State} {i : Instr} {c : FaultCode} (h : precheck i s = some c) (s' : State) :
    s.command i s' = .next (s.takeFault c) := by
  rw [command_next, h]

/-- The effect of a command on a state in which every check passes. -/
def effect (i : Instr) (s : State) : State :=
  match i with
  | .feUnpack rd imm => s.writeF rd (feUnpack (s.readBytes imm 32))
  | .fePack imm ra => s.writeBytes imm (fePack (s.fe ra))
  | .feAdd rd ra rb => s.writeF rd (feAdd (s.fe ra) (s.fe rb))
  | .feSub rd ra rb => s.writeF rd (feSub (s.fe ra) (s.fe rb))
  | .feMul rd ra rb => s.writeF rd (feMul (s.fe ra) (s.fe rb))
  | .feSquare rd ra => s.writeF rd (feSquare (s.fe ra))
  | .feInvert rd ra => s.writeF rd (feInvert (s.fe ra))
  | .fePow2523 rd ra => s.writeF rd (fePow2523 (s.fe ra))
  | .feFreeze rd ra => s.writeF rd (feFreeze (s.fe ra))
  | .feIszero ra => s.setP (feIszero (s.fe ra))
  | .feIseq ra rb => s.setP (feIseq (s.fe ra) (s.fe rb))
  | .feGetparity ra => s.setP (feGetparity (s.fe ra))
  | .feCmov rd ra => s.writeF rd (feCmov s.p (s.fe rd) (s.fe ra))
  | .scFrom32 rd imm => s.writeS rd (scFrom32 (s.readBytes imm 32))
  | .scFrom64 rd imm => s.writeS rd (scFrom64 (s.readBytes imm 64))
  | .scTo32 imm ra => s.writeBytes imm (s.sc ra).toList
  | .scAdd rd ra rb => s.writeS rd (scAdd (s.sc ra) (s.sc rb))
  | .scSubnr rd ra rb => s.writeS rd (scSubnr (s.sc ra) (s.sc rb))
  | .scMul rd ra rb => s.writeS rd (scMul (s.sc ra) (s.sc rb))
  | .scLt ra rb => s.setP (scLt (s.sc ra) (s.sc rb))
  | .scIszero ra => s.setP (scIszero (s.sc ra))
  | .scIsshort ra => s.setP (scIsshort (s.sc ra))
  | .scLessorder imm => s.setP (scLessorder (s.readBytes imm 32))
  | .scWindow3 imm ra => s.writeBytes imm (scWindowBytes 3 85 (s.sc ra))
  | .scWindow5 imm ra => s.writeBytes imm (scWindowBytes 5 51 (s.sc ra))
  | .scInterleave2 imm ra rb => s.writeBytes imm ((scInterleave2 (s.sc ra) (s.sc rb)).map (BitVec.ofNat 8))
  | .geDecompneg rd imm => s.decompneg rd (geDecompressNegate (s.readBytes imm 32))
  | .gePack imm ra => s.writeBytes imm (gePack (s.ge ra))
  | .geAdd rd ra rb => s.writeG rd (geAdd (s.ge ra) (s.ge rb))
  | .geDbl rd ra => s.writeG rd (geDbl (s.ge ra))
  | .geDsmul rd ra rb rc => s.writeG rd (geDsmul (s.ge ra) (s.sc rb) (s.sc rc))
  | .verify => s.clearAll.setP s.verifyRun.verdict

/-- Every meaning has the same frame: the checks, then its effect. -/
theorem exec_eq (i : Instr) (s : State) : exec i s = s.command i (effect i s) := by cases i <;> rfl

theorem exec_ok {i : Instr} {s : State} (h : precheck i s = none) : exec i s = .next (effect i s) := by
  rw [exec_eq, command_ok h]

theorem exec_fault {i : Instr} {s : State} {c : FaultCode} (h : precheck i s = some c) :
    exec i s = .next (s.takeFault c) := by
  rw [exec_eq, command_fault h]

/-- `exec` always answers a next state: a fault state or the effect. -/
theorem exec_cases (i : Instr) (s : State) :
    (∃ c, precheck i s = some c ∧ exec i s = .next (s.takeFault c)) ∨
      (precheck i s = none ∧ exec i s = .next (effect i s)) := by
  cases h : precheck i s with
  | none => exact .inr ⟨rfl, exec_ok h⟩
  | some c => exact .inl ⟨c, rfl, exec_fault h⟩

/-! What an effect leaves alone. -/

@[simp] theorem fePack_length (x : Fe) : (fePack x).length = 32 := by rw [fePack, Vector.length_toList]

@[simp] theorem gePack_length (g : Ge) : (gePack g).length = 32 := by
  simp only [gePack, List.length_set, fePack_length]

@[simp] theorem scWindowBytes_length (w n : Nat) (a : Sc) : (scWindowBytes w n a).length = n := by
  rw [scWindowBytes, List.length_map, scWindow_length]

@[simp] theorem scInterleave2_length (a b : Sc) : (scInterleave2 a b).length = 127 := by
  rw [scInterleave2, List.length_map, List.length_range]

/-- The bytes a command stores lie in its destination span. -/
theorem effect_bytes (i : Instr) (s : State) (a : Nat) (h : inSpan i.writeSpan a = false) :
    (effect i s).readByte a = s.readByte a := by
  have out : ∀ (b n : Nat) (bs : List Byte), bs.length = n → inSpan (some (b, n)) a = false →
      (s.writeBytes b bs).readByte a = s.readByte a := by
    intro b n bs hl hs
    simp only [inSpan, decide_eq_false_iff_not, not_and, Nat.not_lt] at hs
    exact readByte_writeBytes_outside s b bs a (by omega)
  cases i with
  | fePack imm ra => exact out imm 32 _ (by simp) h
  | scTo32 imm ra => exact out imm 32 _ (by simp) h
  | scWindow3 imm ra => exact out imm 85 _ (by simp) h
  | scWindow5 imm ra => exact out imm 51 _ (by simp) h
  | scInterleave2 imm ra rb => exact out imm 127 _ (by simp) h
  | gePack imm ra => exact out imm 32 _ (by simp) h
  | geDecompneg rd imm => simp only [effect]; cases geDecompressNegate (s.readBytes imm 32) <;> rfl
  | _ => rfl

theorem sameRest_refl (s : State) : SameRest s s := ⟨rfl, rfl, rfl, rfl, rfl, rfl, rfl, rfl, rfl, rfl, rfl⟩

theorem sameRest_writeF (s : State) (i : Nat) (v : Fe) : SameRest s (s.writeF i v) :=
  ⟨rfl, rfl, rfl, rfl, rfl, rfl, rfl, rfl, rfl, rfl, rfl⟩

theorem sameRest_writeS (s : State) (i : Nat) (v : Sc) : SameRest s (s.writeS i v) :=
  ⟨rfl, rfl, rfl, rfl, rfl, rfl, rfl, rfl, rfl, rfl, rfl⟩

theorem sameRest_writeG (s : State) (i : Nat) (v : Ge) : SameRest s (s.writeG i v) :=
  ⟨rfl, rfl, rfl, rfl, rfl, rfl, rfl, rfl, rfl, rfl, rfl⟩

theorem sameRest_writeBytes (s : State) (a : Nat) (bs : List Byte) : SameRest s (s.writeBytes a bs) :=
  ⟨rfl, rfl, rfl, rfl, rfl, rfl, rfl, rfl, rfl, rfl, rfl⟩

theorem sameRest_setP (s : State) (b : Bool) : SameRest s (s.setP b) :=
  ⟨rfl, rfl, rfl, rfl, rfl, rfl, rfl, rfl, rfl, rfl, rfl⟩

theorem sameRest_decompneg (s : State) (rd : Nat) (o : Option Ge) : SameRest s (s.decompneg rd o) := by
  cases o <;> exact ⟨rfl, rfl, rfl, rfl, rfl, rfl, rfl, rfl, rfl, rfl, rfl⟩

theorem sameRest_verify (s : State) (b : Bool) : SameRest s (s.clearAll.setP b) :=
  ⟨rfl, rfl, rfl, rfl, rfl, rfl, rfl, rfl, rfl, rfl, rfl⟩

/-- A command changes no CSR, no fault state, no parameter and none of the model's own fields. -/
theorem effect_rest (i : Instr) (s : State) : SameRest s (effect i s) := by
  cases i with
  | feUnpack | feAdd | feSub | feMul | feSquare | feInvert | fePow2523 | feFreeze | feCmov =>
    exact sameRest_writeF s _ _
  | scFrom32 | scFrom64 | scAdd | scSubnr | scMul => exact sameRest_writeS s _ _
  | geAdd | geDbl | geDsmul => exact sameRest_writeG s _ _
  | fePack | scTo32 | scWindow3 | scWindow5 | scInterleave2 | gePack => exact sameRest_writeBytes s _ _
  | feIszero | feIseq | feGetparity | scLt | scIszero | scIsshort | scLessorder => exact sameRest_setP s _
  | geDecompneg rd imm => exact sameRest_decompneg s rd (geDecompressNegate (s.readBytes imm 32))
  | verify => exact sameRest_verify s _

theorem sameRegsBut_refl (rs : List RegName) (s : State) : SameRegsBut rs s s :=
  ⟨fun _ _ => rfl, fun _ _ => rfl, fun _ _ => rfl⟩

theorem sameRegsBut_writeF (s : State) (i : Nat) (v : Fe) : SameRegsBut [.f i] s (s.writeF i v) := by
  refine ⟨fun j hj => ?_, fun _ _ => rfl, fun _ _ => rfl⟩
  simp only [List.mem_singleton, RegName.f.injEq] at hj
  rw [State.writeF_f, Vector.getElem?_setIfInBounds_ne (Ne.symm hj)]

theorem sameRegsBut_writeS (s : State) (i : Nat) (v : Sc) : SameRegsBut [.s i] s (s.writeS i v) := by
  refine ⟨fun _ _ => rfl, fun j hj => ?_, fun _ _ => rfl⟩
  simp only [List.mem_singleton, RegName.s.injEq] at hj
  rw [State.writeS_s, Vector.getElem?_setIfInBounds_ne (Ne.symm hj)]

theorem sameRegsBut_writeG (s : State) (i : Nat) (v : Ge) : SameRegsBut [.g i] s (s.writeG i v) := by
  refine ⟨fun _ _ => rfl, fun _ _ => rfl, fun j hj => ?_⟩
  simp only [List.mem_singleton, RegName.g.injEq] at hj
  rw [State.writeG_g, Vector.getElem?_setIfInBounds_ne (Ne.symm hj)]

theorem sameRegsBut_clearG (s : State) (i : Nat) : SameRegsBut [.g i] s (s.clearG i) := by
  refine ⟨fun _ _ => rfl, fun _ _ => rfl, fun j hj => ?_⟩
  simp only [List.mem_singleton, RegName.g.injEq] at hj
  rw [State.clearG_g, Vector.getElem?_setIfInBounds_ne (Ne.symm hj)]

theorem sameRegsBut_writeBytes (s : State) (a : Nat) (bs : List Byte) : SameRegsBut [] s (s.writeBytes a bs) :=
  ⟨fun _ _ => rfl, fun _ _ => rfl, fun _ _ => rfl⟩

theorem sameRegsBut_setP (s : State) (b : Bool) : SameRegsBut [] s (s.setP b) :=
  ⟨fun _ _ => rfl, fun _ _ => rfl, fun _ _ => rfl⟩

theorem sameRegsBut_decompneg (s : State) (rd : Nat) (o : Option Ge) : SameRegsBut [.g rd] s (s.decompneg rd o) := by
  cases o with
  | none => exact sameRegsBut_clearG s rd
  | some v => exact sameRegsBut_writeG s rd v

/-- Every command but VERIFY changes no register but its destination. -/
theorem effect_regs (i : Instr) (s : State) (h : i ≠ .verify) : SameRegsBut i.dest.toList s (effect i s) := by
  cases i with
  | feUnpack | feAdd | feSub | feMul | feSquare | feInvert | fePow2523 | feFreeze | feCmov =>
    exact sameRegsBut_writeF s _ _
  | scFrom32 | scFrom64 | scAdd | scSubnr | scMul => exact sameRegsBut_writeS s _ _
  | geAdd | geDbl | geDsmul => exact sameRegsBut_writeG s _ _
  | fePack | scTo32 | scWindow3 | scWindow5 | scInterleave2 | gePack => exact sameRegsBut_writeBytes s _ _
  | feIszero | feIseq | feGetparity | scLt | scIszero | scIsshort | scLessorder => exact sameRegsBut_setP s _
  | geDecompneg rd imm => exact sameRegsBut_decompneg s rd (geDecompressNegate (s.readBytes imm 32))
  | verify => exact absurd rfl h

/-- A command that is not one of R26's list leaves P alone. -/
theorem effect_p (i : Instr) (s : State) (h : i.writesP = false) : (effect i s).p = s.p := by
  cases i <;> simp only [Instr.writesP, Bool.true_eq_false, effect, State.writeF_p, State.writeS_p, State.writeG_p,
    State.writeBytes_p] at h ⊢

/-- The memory after a command: as before, or with the destination span written. -/
theorem effect_om (i : Instr) (s : State) :
    (effect i s).om = s.om ∨
      ∃ a bs, i.writeSpan = some (a, bs.length) ∧ (effect i s).om = s.om.writeAll a bs := by
  have wr : ∀ (j : Instr) (a : Nat) (bs : List Byte), effect j s = s.writeBytes a bs → j.writeSpan = some (a, bs.length) →
      (effect j s).om = s.om ∨ ∃ a bs, j.writeSpan = some (a, bs.length) ∧ (effect j s).om = s.om.writeAll a bs :=
    fun j a bs h hs => .inr ⟨a, bs, hs, by rw [h, State.writeBytes_om]⟩
  cases i with
  | fePack imm ra => exact wr _ imm (fePack (s.fe ra)) rfl (by rw [fePack_length]; rfl)
  | scTo32 imm ra => exact wr _ imm (s.sc ra).toList rfl (by rw [Vector.length_toList]; rfl)
  | scWindow3 imm ra => exact wr _ imm (scWindowBytes 3 85 (s.sc ra)) rfl (by rw [scWindowBytes_length]; rfl)
  | scWindow5 imm ra => exact wr _ imm (scWindowBytes 5 51 (s.sc ra)) rfl (by rw [scWindowBytes_length]; rfl)
  | scInterleave2 imm ra rb =>
    exact wr _ imm ((scInterleave2 (s.sc ra) (s.sc rb)).map (BitVec.ofNat 8)) rfl
      (by rw [List.length_map, scInterleave2_length]; rfl)
  | gePack imm ra => exact wr _ imm (gePack (s.ge ra)) rfl (by rw [gePack_length]; rfl)
  | geDecompneg rd imm => left; simp only [effect]; cases geDecompressNegate (s.readBytes imm 32) <;> rfl
  | _ => exact .inl rfl

/-! The command abandoned by F_BUSY. -/

@[simp] theorem freeBytes_length (draw pos n : Nat) : (freeBytes draw pos n).length = n := by
  induction n generalizing pos with
  | zero => rfl
  | succ n ih => simp [freeBytes, ih]

theorem abandon_om (s : State) (i : Instr) :
    (s.abandon i).om = s.om ∨
      ∃ a bs, i.writeSpan = some (a, bs.length) ∧ (s.abandon i).om = s.om.writeAll a bs := by
  have hr : ∀ d, (s.freeReg d).om = s.om := by rintro (_ | _ | _ | _) <;> rfl
  have hp : ∀ (t : State) b, (t.freeP b).om = t.om := by intro t b; cases b <;> rfl
  have e : (s.abandon i).om = ((s.freeReg i.dest).freeSpan i.writeSpan).om := hp _ _
  rw [e]
  cases h : i.writeSpan with
  | none => exact .inl (hr _)
  | some p =>
    obtain ⟨a, n⟩ := p
    exact .inr ⟨a, freeBytes (s.freeReg i.dest).draws a n, by simp, by rw [State.freeSpan, State.writeBytes_om, hr]⟩

/-- F_BUSY changes the fault state, the destinations of the abandoned command and the draw counter, nothing else. -/
theorem abandon_rest (s : State) (i : Instr) :
    (s.abandon i).fault = true ∧ (s.abandon i).faultCode = 0x04 ∧ (s.abandon i).running = none ∧
      (s.abandon i).pkLen = s.pkLen ∧ (s.abandon i).sigLen = s.sigLen ∧ (s.abandon i).msgLen = s.msgLen ∧
      (s.abandon i).params = s.params ∧ (s.abandon i).host = s.host ∧ (s.abandon i).rdata = s.rdata ∧
      (s.abandon i).resets = s.resets := by
  have hr : ∀ d, SameRest s (s.freeReg d) := by
    rintro (_ | _ | _ | _) <;> exact ⟨rfl, rfl, rfl, rfl, rfl, rfl, rfl, rfl, rfl, rfl, rfl⟩
  have hs : ∀ (t : State) sp, SameRest t (t.freeSpan sp) := by
    rintro t (_ | _) <;> exact ⟨rfl, rfl, rfl, rfl, rfl, rfl, rfl, rfl, rfl, rfl, rfl⟩
  have hp : ∀ (t : State) b, SameRest t (t.freeP b) := by
    intro t b; cases b <;> exact ⟨rfl, rfl, rfl, rfl, rfl, rfl, rfl, rfl, rfl, rfl, rfl⟩
  have h1 := hr i.dest
  have h2 := hs (s.freeReg i.dest) i.writeSpan
  have h3 := hp ((s.freeReg i.dest).freeSpan i.writeSpan) i.writesP
  exact ⟨rfl, rfl, rfl, h3.pkLen.trans (h2.pkLen.trans h1.pkLen), h3.sigLen.trans (h2.sigLen.trans h1.sigLen),
    h3.msgLen.trans (h2.msgLen.trans h1.msgLen), h3.params.trans (h2.params.trans h1.params),
    h3.host.trans (h2.host.trans h1.host), h3.rdata.trans (h2.rdata.trans h1.rdata),
    h3.resets.trans (h2.resets.trans h1.resets)⟩

end Sys2Proof.Machine
end

