-- ==== Sys2Proof/Laws/Invariant.lean ====
section
/-! SUPPORT. What a command leaves in the register files: INV-FE of the FE and GE registers, and any property of points that
the group operations keep (spec/10_state.md R22, R24; spec/42_group_element.md R183). -/

namespace Sys2Proof.Machine

/-- R193: every table entry satisfies INV-FE. -/
theorem table_inv {a : Ge} (h : geInv a) (n : Nat) : geInv ((geTable a).getD n geNeutral) := by
  have hn : geInv geNeutral := represents_neutral.inv
  have hb : geInv geBase := represents_base.inv
  have : ∀ x ∈ geTable a, geInv x := by
    intro x hx
    simp only [geTable, List.mem_append, List.mem_cons, List.not_mem_nil, or_false] at hx
    rcases hx with
      ((((rfl | rfl | rfl | rfl) | rfl | rfl | rfl | rfl) | rfl | rfl | rfl | rfl) | rfl | rfl | rfl | rfl)
    · exact hn
    · exact h
    · exact geInv_dbl _
    · exact geInv_add _ _
    · exact hb
    · exact geInv_add _ _
    · exact geInv_add _ _
    · exact geInv_add _ _
    · exact geInv_dbl _
    all_goals exact geInv_add _ _
  rw [List.getD_eq_getElem?_getD]
  cases e : (geTable a)[n]? with
  | none => exact hn
  | some x => exact this x (List.mem_of_getElem? e)

/-- R194: so does the result of the ladder, whatever point it starts from. -/
theorem dsmul_inv {a : Ge} (h : geInv a) (s1 s2 : Sc) : geInv (geDsmul a s1 s2) := by
  unfold geDsmul
  generalize (scInterleave2 s1 s2).reverse = ds
  cases ds with
  | nil => exact represents_neutral.inv
  | cons d ds =>
    show geInv (ds.foldl (ladderStep (geTable a)) ((geTable a).getD d geNeutral))
    have : ∀ (ds : List Nat) r, geInv r → geInv (ds.foldl (ladderStep (geTable a)) r) := by
      intro ds
      induction ds with
      | nil => intro r hr; exact hr
      | cons d ds ih =>
        intro r hr
        refine ih _ ?_
        unfold ladderStep
        dsimp only
        split
        · exact geInv_add _ _
        · exact geInv_dbl _
    exact this ds _ (table_inv h d)

/-- Writing a value that satisfies INV-FE keeps it of every written FE register. -/
theorem fe_regs_writeF {s : State} (h : ∀ i, s.isValid (.f i) = true → feInv (s.fe i)) {i : Nat} (hi : i < 16)
    {v : Fe} (hv : feInv v) :
    ∀ j, (s.writeF i v).isValid (.f j) = true → feInv ((s.writeF i v).fe j) := by
  intro j hj
  rw [isValid_writeF _ hi] at hj
  rw [fe_writeF _ hi]
  split
  · exact hv
  · rename_i hne; simp [hne] at hj; exact h j hj

/-- Writing a value with a property keeps it of every written GE register. -/
theorem ge_regs_writeG {P : Ge → Prop} {s : State} (h : ∀ i, s.isValid (.g i) = true → P (s.ge i)) {i : Nat}
    (hi : i < 4) {v : Ge} (hv : P v) :
    ∀ j, (s.writeG i v).isValid (.g j) = true → P ((s.writeG i v).ge j) := by
  intro j hj
  rw [isValid_writeG _ hi] at hj
  rw [ge_writeG _ hi]
  split
  · exact hv
  · rename_i hne; simp [hne] at hj; exact h j hj

/-- A command keeps INV-FE of the FE registers. -/
theorem effect_fe {s : State} (h : ∀ i, s.isValid (.f i) = true → feInv (s.fe i)) {i : Instr} (hp : precheck i s = none) :
    ∀ j, (effect i s).isValid (.f j) = true → feInv ((effect i s).fe j) := by
  obtain ⟨hw, hv, -⟩ := (precheck_none_iff i s).1 hp
  cases i <;>
    simp only [Instr.wellFormed, Bool.and_eq_true, feIdxOk, scIdxOk, geIdxOk, immOk, decide_eq_true_eq] at hw <;>
    simp only [Instr.sources, List.mem_cons, List.not_mem_nil, or_false, forall_eq_or_imp, forall_eq] at hv <;>
    simp only [effect]
  case feUnpack => exact fe_regs_writeF h hw.1 (feInv_unpack (by simp))
  case feAdd => exact fe_regs_writeF h hw.1.1 (feInv_add _ _)
  case feSub => exact fe_regs_writeF h hw.1.1 (feInv_sub _ _)
  case feMul => exact fe_regs_writeF h hw.1.1 (feInv_mul _ _)
  case feSquare => exact fe_regs_writeF h hw.1 (feInv_mul _ _)
  case feInvert => exact fe_regs_writeF h hw.1 (feInv_mul _ _)
  case fePow2523 => exact fe_regs_writeF h hw.1 (feInv_mul _ _)
  case feFreeze => exact fe_regs_writeF h hw.1 (feInv_freeze (h _ hv))
  case feCmov =>
    refine fe_regs_writeF h hw.1 ?_
    rw [feCmov_eq]
    split
    · exact h _ hv.2
    · exact h _ hv.1
  case verify => intro j hj; simp at hj
  case geDecompneg rd imm =>
    intro j
    generalize geDecompressNegate _ = o
    cases o <;> exact h j
  all_goals
    intro j hj
    simp only [isValid_writeBytes, isValid_setP, fe_writeBytes, fe_setP, fe_writeS, fe_writeG] at hj ⊢
    exact h j hj

/-- A command keeps of the GE registers what the group operations and decompression keep. -/
theorem effect_ge {P : Ge → Prop} {s : State} (hadd : ∀ a b, P a → P b → P (geAdd a b))
    (hdbl : ∀ a, P a → P (geDbl a)) (hds : ∀ a u v, P a → P (geDsmul a u v))
    (hdec : ∀ bs g, bs.length = 32 → geDecompressNegate bs = some g → P g)
    (h : ∀ i, s.isValid (.g i) = true → P (s.ge i)) {i : Instr} (hp : precheck i s = none) :
    ∀ j, (effect i s).isValid (.g j) = true → P ((effect i s).ge j) := by
  obtain ⟨hw, hv, -⟩ := (precheck_none_iff i s).1 hp
  cases i <;>
    simp only [Instr.wellFormed, Bool.and_eq_true, feIdxOk, scIdxOk, geIdxOk, immOk, decide_eq_true_eq] at hw <;>
    simp only [Instr.sources, List.mem_cons, List.not_mem_nil, or_false, forall_eq_or_imp, forall_eq] at hv <;>
    simp only [effect]
  case geAdd => exact ge_regs_writeG h hw.1.1 (hadd _ _ (h _ hv.1) (h _ hv.2))
  case geDbl => exact ge_regs_writeG h hw.1 (hdbl _ (h _ hv))
  case geDsmul => exact ge_regs_writeG h hw.1.1.1 (hds _ _ _ (h _ hv.1))
  case verify => intro j hj; simp at hj
  case geDecompneg rd imm =>
    cases hg : geDecompressNegate (s.readBytes imm 32) with
    | none =>
      intro j hj
      have hj' : (s.clearG rd).isValid (.g j) = true := by rw [← isValid_setP]; exact hj
      rw [isValid_clearG _ hw.1] at hj'
      simp at hj'
      have : (s.clearG rd).ge j = s.ge j := ge_clearG _ hw.1 j
      show P ((s.clearG rd).ge j)
      rw [this]; exact h j hj'.2
    | some g =>
      have := ge_regs_writeG h hw.1 (hdec _ g (readBytes_length s imm 32) hg)
      intro j hj
      exact this j (by rw [← isValid_setP]; exact hj)
  all_goals
    intro j hj
    simp only [isValid_writeBytes, isValid_setP, ge_writeBytes, ge_setP, ge_writeS, ge_writeF] at hj ⊢
    exact h j hj

end Sys2Proof.Machine
end

