-- ==== Sys2Proof/Laws/Order.lean ====
section
/-! SUPPORT. The order of the base point: L·G is the neutral element and G is not (spec/42_group_element.md R182). The
multiple is computed by double-and-add on projective residues, numbers below p, which Lean's kernel evaluates. -/

namespace Sys2Proof.Machine

/-- 2·n·P is n·P doubled. -/
theorem edMul_double (n : Nat) {P : ZMod fieldP × ZMod fieldP} (hP : OnCurve P.1 P.2) :
    edMul (2 * n) P = edAdd (edMul n P) (edMul n P) := by
  let := curveGroup
  have h := fun k => edMul_eq_nsmul k ⟨P, hP⟩
  rw [h, h, two_mul]
  exact congrArg Subtype.val (add_nsmul (⟨P, hP⟩ : CurvePoint) n n)

/-- A multiple of an annihilating number annihilates. -/
theorem edMul_mul_eq_zero {m : Nat} {P : ZMod fieldP × ZMod fieldP} (hP : OnCurve P.1 P.2) (h : edMul m P = (0, 1))
    (n : Nat) : edMul (m * n) P = (0, 1) := by
  let := curveGroup
  have e := fun k => edMul_eq_nsmul k ⟨P, hP⟩
  have h0 : (m • ⟨P, hP⟩ : CurvePoint) = 0 := Subtype.ext ((e m).symm.trans h)
  rw [e, mul_comm, mul_nsmul', h0, nsmul_zero]
  rfl

/-- Projective residues: `x/z` and `y/z`, as numbers. -/
structure Proj where
  x : Nat
  y : Nat
  z : Nat

/-- The point a triple of numbers stands for. -/
def Proj.Is (q : Proj) (P : ZMod fieldP × ZMod fieldP) : Prop :=
  (q.z : ZMod fieldP) ≠ 0 ∧ (q.x : ZMod fieldP) = q.z * P.1 ∧ (q.y : ZMod fieldP) = q.z * P.2

/-- The difference of two numbers mod p. -/
def subP (a b : Nat) : Nat := a + (fieldP - b % fieldP)

theorem subP_cast (a b : Nat) : (subP a b : ZMod fieldP) = a - b := by
  have := Nat.mod_lt b fieldP_pos
  rw [subP, Nat.cast_add, Nat.cast_sub this.le, ZMod.natCast_self, ZMod.natCast_mod]
  ring

/-- The double of a point of the curve. -/
def Proj.dbl (q : Proj) : Proj :=
  let m := subP (q.y * q.y) (q.x * q.x) % fieldP
  let k := subP (2 * (q.z * q.z)) m % fieldP
  ⟨2 * (q.x * q.y) * k % fieldP, (q.y * q.y + q.x * q.x) * m % fieldP, m * k % fieldP⟩

/-- The sum with the affine point (gx, gy), c being d·gx·gy. -/
def Proj.madd (gx gy c : Nat) (q : Proj) : Proj :=
  let w := c * (q.x * q.y % fieldP) % fieldP
  let a := (q.z * q.z + w) % fieldP
  let b := subP (q.z * q.z) w % fieldP
  ⟨q.z * (q.x * gy + gx * q.y) % fieldP * b % fieldP, q.z * (q.y * gy + q.x * gx) % fieldP * a % fieldP, a * b % fieldP⟩

theorem Proj.Is.dbl {q : Proj} {P : ZMod fieldP × ZMod fieldP} (h : q.Is P) (hP : OnCurve P.1 P.2) :
    q.dbl.Is (edAdd P P) := by
  have := fieldP_fact
  obtain ⟨hz, hx, hy⟩ := h
  obtain ⟨x, y⟩ := P
  obtain ⟨ha, hb⟩ := resD_complete hP hP
  obtain ⟨h1, h2⟩ := edAdd_coords hP hP
  generalize edAdd (x, y) (x, y) = R at *
  have hc : -x ^ 2 + y ^ 2 = 1 + resD * x ^ 2 * y ^ 2 := hP
  have e1 : y ^ 2 - x ^ 2 = 1 + resD * x * x * y * y := by linear_combination hc
  have e2 : 2 - (y ^ 2 - x ^ 2) = 1 - resD * x * x * y * y := by linear_combination -hc
  rw [← e1] at ha h1
  rw [← e2] at hb h2
  simp only [Proj.Is, Proj.dbl, ZMod.natCast_mod, Nat.cast_mul, Nat.cast_add, subP_cast, hx, hy] at *
  push_cast
  refine ⟨?_, ?_, ?_⟩
  · rw [show ((q.z : ZMod fieldP) * y * (q.z * y) - q.z * x * (q.z * x)) *
        (2 * (q.z * q.z) - (q.z * y * (q.z * y) - q.z * x * (q.z * x))) =
        (q.z : ZMod fieldP) ^ 4 * ((y ^ 2 - x ^ 2) * (2 - (y ^ 2 - x ^ 2))) by ring]
    exact mul_ne_zero (pow_ne_zero _ hz) (mul_ne_zero ha hb)
  · linear_combination (-(q.z : ZMod fieldP) ^ 4 * (2 - (y ^ 2 - x ^ 2))) * h1
  · linear_combination (-(q.z : ZMod fieldP) ^ 4 * (y ^ 2 - x ^ 2)) * h2

theorem Proj.Is.madd {q : Proj} {P : ZMod fieldP × ZMod fieldP} (h : q.Is P) (hP : OnCurve P.1 P.2) {gx gy c : Nat}
    (hG : OnCurve (gx : ZMod fieldP) gy) (hc : (c : ZMod fieldP) = resD * gx * gy) :
    (q.madd gx gy c).Is (edAdd P (gx, gy)) := by
  have := fieldP_fact
  obtain ⟨hz, hx, hy⟩ := h
  obtain ⟨x, y⟩ := P
  obtain ⟨ha, hb⟩ := resD_complete hP hG
  obtain ⟨h1, h2⟩ := edAdd_coords hP hG
  generalize edAdd (x, y) ((gx : ZMod fieldP), (gy : ZMod fieldP)) = R at *
  simp only [Proj.Is, Proj.madd, ZMod.natCast_mod, Nat.cast_mul, Nat.cast_add, subP_cast, hx, hy, hc] at *
  refine ⟨?_, ?_, ?_⟩
  · rw [show ((q.z : ZMod fieldP) * q.z + resD * gx * gy * (q.z * x * (q.z * y))) *
        (q.z * q.z - resD * gx * gy * (q.z * x * (q.z * y))) =
        (q.z : ZMod fieldP) ^ 4 * ((1 + resD * x * gx * y * gy) * (1 - resD * x * gx * y * gy)) by ring]
    exact mul_ne_zero (pow_ne_zero _ hz) (mul_ne_zero ha hb)
  · linear_combination (-(q.z : ZMod fieldP) ^ 4 * (1 - resD * x * gx * y * gy)) * h1
  · linear_combination (-(q.z : ZMod fieldP) ^ 4 * (1 + resD * x * gx * y * gy)) * h2

/-- Double-and-add over the lowest n bits of k, the highest of them first. -/
def Proj.mul (gx gy c k : Nat) : Nat → Proj
  | 0 => ⟨0, 1, 1⟩
  | n + 1 =>
    let q := (Proj.mul gx gy c (k / 2) n).dbl
    if k % 2 = 1 then q.madd gx gy c else q

theorem Proj.mul_is {gx gy c : Nat} (hG : OnCurve (gx : ZMod fieldP) gy) (hc : (c : ZMod fieldP) = resD * gx * gy)
    (n : Nat) : ∀ k, k < 2 ^ n → (Proj.mul gx gy c k n).Is (edMul k (gx, gy)) := by
  have := fieldP_fact
  have hP : OnCurve ((gx : ZMod fieldP), (gy : ZMod fieldP)).1 ((gx : ZMod fieldP), (gy : ZMod fieldP)).2 := hG
  induction n with
  | zero =>
    intro k hk
    obtain rfl : k = 0 := Nat.lt_one_iff.1 hk
    simp [Proj.Is, Proj.mul, edMul]
  | succ n ih =>
    intro k hk
    have hq := (ih (k / 2) (by omega)).dbl (onCurve_edMul (k / 2) hP)
    rw [← edMul_double _ hP] at hq
    rw [Proj.mul]
    split
    · rename_i h
      have e : edMul k ((gx : ZMod fieldP), (gy : ZMod fieldP)) =
          edAdd (edMul (2 * (k / 2)) ((gx : ZMod fieldP), (gy : ZMod fieldP))) (gx, gy) := by
        conv_lhs => rw [show k = 2 * (k / 2) + 1 by omega]
        rfl
      rw [e]
      exact hq.madd (onCurve_edMul _ hP) hG hc
    · rename_i h
      rw [show 2 * (k / 2) = k by omega] at hq
      exact hq

/-- The coordinates of the base point and d·Gx·Gy, as numbers (R182). -/
def baseX : Nat := 15112221349535400772501151409588531511454012693041857206046113283949847762202
def baseY : Nat := 46316835694926478169428394003475163141307993866256225615783033603165251855960
def baseC : Nat :=
  37095705934669439343138083508754565189542113879843219016388785533085940283555 * (baseX * baseY % fieldP) % fieldP

theorem basePoint_eq : basePoint = ((baseX : ZMod fieldP), (baseY : ZMod fieldP)) := by
  have := fieldP_fact
  have hz : feRes geBase.z = 1 := feRes_one
  have hx : vecVal geBase.x = baseX := by decide
  have hy : vecVal geBase.y = baseY := by decide
  simp only [basePoint, gePoint, hz, inv_one, mul_one]
  simp only [feRes, hx, hy]

/-- The triple double-and-add gives for L: x is 0 and y is z. -/
theorem order_triple : (Proj.mul baseX baseY baseC groupOrder 253).x = 0 ∧
    (Proj.mul baseX baseY baseC groupOrder 253).y = (Proj.mul baseX baseY baseC groupOrder 253).z := by
  decide +kernel

/-- R182: "L·G is the neutral element". -/
theorem edMul_groupOrder : edMul groupOrder basePoint = (0, 1) := by
  have := fieldP_fact
  have hG : OnCurve (baseX : ZMod fieldP) baseY := by
    have := represents_base.onCurve
    rwa [basePoint_eq] at this
  have hc : (baseC : ZMod fieldP) = resD * baseX * baseY := by
    rw [baseC, ZMod.natCast_mod, Nat.cast_mul, ZMod.natCast_mod, Nat.cast_mul, ← resD_eq, mul_assoc]
  obtain ⟨hz, hx, hy⟩ := Proj.mul_is hG hc 253 groupOrder (by decide)
  obtain ⟨h0, h1⟩ := order_triple
  rw [h0, Nat.cast_zero] at hx
  rw [h1] at hy
  rw [basePoint_eq]
  exact Prod.ext ((mul_eq_zero.1 hx.symm).resolve_left hz) (mul_left_cancel₀ hz (by rw [← hy, mul_one]))

/-- G is not the neutral element. -/
theorem basePoint_ne : basePoint ≠ (0, 1) := by
  rw [basePoint_eq]
  intro h
  have := (ZMod.natCast_eq_zero_iff _ _).1 (congrArg Prod.fst h)
  exact absurd this (by decide)

end Sys2Proof.Machine
end

