-- ==== Sys2Proof/Laws/Passes.lean ====
section
/-! SUPPORT. The limb bounds of spec/40_field_element.md R104 in the form `LimbsWithin`: how far one pass brings a vector
towards INV-FE, from bounds on its limbs or on its value. -/

namespace Sys2Proof.Machine

theorem LimbsWithin.mono {low low' top top' : Nat} {v : List Nat} (h : LimbsWithin low top v) (hl : low ≤ low')
    (ht : top ≤ top') : LimbsWithin low' top' v :=
  ⟨h.1, fun i hi => (h.2.1 i hi).trans hl, h.2.2.trans ht⟩

/-- Every limb is at most the larger of the two bounds. -/
theorem LimbsWithin.le {low top : Nat} {v : List Nat} (h : LimbsWithin low top v) (i : Nat) :
    v.getD i 0 ≤ max low top := by
  obtain ⟨hl, h1, h2⟩ := h
  rcases Nat.lt_trichotomy i 31 with hi | rfl | hi
  · exact (h1 i hi).trans (le_max_left _ _)
  · exact h2.trans (le_max_right _ _)
  · simp [List.getD_eq_getElem?_getD, List.getElem?_eq_none (by omega : v.length ≤ i)]

theorem getD_dropLast {v : List Nat} {i : Nat} (h : i + 1 < v.length) : v.dropLast.getD i 0 = v.getD i 0 := by
  simp [List.getD_eq_getElem?_getD, show i < v.length - 1 by omega, show i < v.length by omega]

/-- Limbs 0 to 30 of 8 bits are what a pass leaves. -/
theorem LimbsWithin.carried {top : Nat} {v : List Nat} (h : LimbsWithin 255 top v) : Carried v := by
  obtain ⟨hl, h1, -⟩ := h
  refine ⟨hl, fun x hx => ?_⟩
  obtain ⟨i, hi, rfl⟩ := List.getElem_of_mem hx
  rw [List.length_dropLast, hl] at hi
  have := h1 i hi
  rw [← getD_dropLast (by omega)] at this
  rw [List.getD_eq_getElem?_getD, List.getElem?_eq_getElem (by simp [hl]; omega)] at this
  simp only [Option.getD_some] at this
  omega

/-- The value of a carried vector bounds its last limb. -/
theorem Carried.within {top : Nat} {v : List Nat} (h : Carried v) (hv : limbVal v < (top + 1) * 256 ^ 31) :
    LimbsWithin 255 top v := by
  refine ⟨h.length, fun i hi => ?_, ?_⟩
  · rw [← getD_dropLast (by rw [h.length]; omega)]
    have hlt : i < v.dropLast.length := by simp [h.length]; omega
    have := h.low _ (List.getElem_mem hlt)
    simp only [List.getD_eq_getElem?_getD, List.getElem?_eq_getElem hlt, Option.getD_some]
    omega
  · have h1 := limbVal_split h.length
    by_contra hc
    have : 256 ^ 31 * (top + 1) ≤ 256 ^ 31 * v.getD 31 0 := Nat.mul_le_mul_left _ (by omega)
    rw [Nat.mul_comm (256 ^ 31) (top + 1)] at this
    omega

/-- The last limb bounds the value of a carried vector. -/
theorem LimbsWithin.value {top : Nat} {v : List Nat} (h : LimbsWithin 255 top v) : limbVal v < (top + 1) * 256 ^ 31 := by
  have h1 := limbVal_split h.1
  have h2 := h.carried.low_lt
  have : 256 ^ 31 * v.getD 31 0 ≤ 256 ^ 31 * top := Nat.mul_le_mul_left _ h.2.2
  rw [Nat.mul_comm (256 ^ 31) top] at this
  rw [Nat.add_mul]
  omega

/-- INV-FE (R22) as a bound on working limbs. -/
theorem limbsWithin_iff_reduced {v : List Nat} : LimbsWithin 255 127 v ↔ Reduced v := by
  have e : (2 : Nat) ^ 255 = (127 + 1) * 256 ^ 31 := by norm_num
  constructor
  · intro h
    exact h.carried.reduced (by rw [e]; exact h.value)
  · intro h
    exact h.carried.within (by rw [← e]; exact h.value)

theorem feInv_iff_within (v : Fe) : feInv v ↔ LimbsWithin 255 127 (limbs v) := by
  rw [limbsWithin_iff_reduced]
  exact ⟨reduced_limbs, fun h => (feInv_iff v).2 h.value⟩

/-- With limbs at most B and carries at most C, the last limb grows by at most C. -/
theorem getD_carryLimbs_le {B C : Nat} (hBC : B + C < 256 * (C + 1)) (n : Nat) (c : Nat) (l : List Nat)
    (hl : l.length = n + 1) (hc : c ≤ C) (hb : ∀ i, i < n → l.getD i 0 ≤ B) :
    (carryLimbs c l).getD n 0 ≤ l.getD n 0 + C := by
  induction n generalizing c l with
  | zero =>
    obtain ⟨x, rfl⟩ := List.length_eq_one_iff.1 hl
    simp only [carryLimbs, List.getD_cons_zero]
    omega
  | succ n ih =>
    match l, hl with
    | x :: y :: ys, hl =>
      have h0 := hb 0 (by omega)
      simp only [List.getD_cons_zero] at h0
      simp only [carryLimbs, List.getD_cons_succ]
      exact ih _ (y :: ys) (by simpa using hl) (by omega) fun i hi => by simpa using hb (i + 1) (by omega)

/-- One pass from limb bounds: limb 0 is at most `first` once the fold is added, limbs 1 to 30 at most `low`, and no carry
exceeds C; then limb 31 is at most 127 + C. -/
theorem fePass_within {v : List Nat} {low first C : Nat} (hl : v.length = 32)
    (h0 : v.getD 0 0 + 19 * (v.getD 31 0 / 128) ≤ first) (h1 : ∀ i, 0 < i → i < 31 → v.getD i 0 ≤ low)
    (hf : first < 256 * (C + 1)) (hC : low + C < 256 * (C + 1)) : LimbsWithin 255 (127 + C) (fePass v) := by
  have hc := fePass_carried hl
  have hlow : ∀ i, i < 31 → (fePass v).getD i 0 ≤ 255 := (hc.within (top := (fePass v).getD 31 0) (by
    have h1 := limbVal_split hc.length
    have h2 := hc.low_lt
    rw [Nat.add_mul, Nat.mul_comm ((fePass v).getD 31 0)]
    omega)).2.1
  refine ⟨hc.length, hlow, ?_⟩
  match v, hl with
  | x :: y :: ys, hl =>
    simp only [List.length_cons] at hl
    have h0' : x + 19 * ((x :: y :: ys).getD 31 0 / 128) ≤ first := by simpa using h0
    simp only [fePass, List.getD_cons_zero]
    generalize ht : (x :: y :: ys).getD 31 0 / 128 = t at h0'
    generalize hr : (x :: y :: ys).getD 31 0 % 128 = r
    have hr' : r < 128 := by rw [← hr]; exact Nat.mod_lt _ (by norm_num)
    obtain ⟨z, zs, hzs⟩ : ∃ z zs, (y :: ys).set 30 r = z :: zs := by
      cases h : (y :: ys).set 30 r with
      | nil => have := congrArg List.length h; simp at this
      | cons z zs => exact ⟨z, zs, rfl⟩
    have hset : ((x :: y :: ys).set 31 r).set 0 (x + 19 * t) = (x + 19 * t) :: z :: zs := by
      simp [List.set_cons_succ, hzs]
    rw [hset, carryLimbs, List.getD_cons_succ]
    have hlen : (z :: zs).length = 30 + 1 := by rw [← hzs]; simp; omega
    have hlast : (z :: zs).getD 30 0 = r := by
      rw [← hzs, List.getD_eq_getElem?_getD, List.getElem?_set]
      simp [show 30 ≤ ys.length by omega]
    have key := getD_carryLimbs_le hC 30 ((x + 19 * t + 0) / 256) (z :: zs) hlen (by omega) fun i hi => by
      rw [← hzs, List.getD_eq_getElem?_getD, List.getElem?_set_ne (by omega), ← List.getD_eq_getElem?_getD]
      simpa using h1 (i + 1) (by omega) (by omega)
    rw [hlast] at key
    omega

end Sys2Proof.Machine
end

