-- ==== Sys2Proof/Laws/PerInstr.lean ====
section
/-! SUPPORT. The family EncodeMatchesRow: the word of every well-formed command matches the command's row of the opcode map
of spec/30_encoding.md R80. One lemma per constructor. -/

namespace Sys2Proof.Laws.EncodeMatchesRow

/-- The row of the command is one of the map and accepts the command's word. -/
def Statement (i : Instr) : Prop := i.wellFormed = true → i.row ∈ opcodeMap ∧ i.row.accepts (encode i) = true

theorem feUnpack (rd imm : Nat) : Statement (.feUnpack rd imm) := by
  intro h
  simp only [Instr.wellFormed, Bool.and_eq_true, feIdxOk, immOk, decide_eq_true_eq] at h
  refine ⟨by rw [Instr.row]; decide, ?_⟩
  have em : (0xFF0FF000 : Word) = wordOf 0xff 0x0 0xf 0xf 0x0 := by decide
  have ev : (0x10000000 : Word) = wordOf 0x10 0x0 0x0 0x0 0x0 := by decide
  rw [OpcodeRow.accepts, beq_iff_eq, Instr.row, em, ev]
  exact (accepts_iff (f := ⟨0x10, rd, 0, 0, imm⟩) (m := ⟨0xff, 0x0, 0xf, 0xf, 0x0⟩) (v := ⟨0x10, 0x0, 0x0, 0x0, 0x0⟩)
    (fit_mk (by omega) (by omega) (by omega) (by omega) (by omega))
    (fit_mk (by omega) (by omega) (by omega) (by omega) (by omega))
    (fit_mk (by omega) (by omega) (by omega) (by omega) (by omega))).2
    ⟨land_full8 (by decide : 0x10 < 256), Nat.and_zero _, Nat.zero_and _, Nat.zero_and _, Nat.and_zero _⟩

theorem fePack (imm ra : Nat) : Statement (.fePack imm ra) := by
  intro h
  simp only [Instr.wellFormed, Bool.and_eq_true, feIdxOk, immOk, decide_eq_true_eq] at h
  refine ⟨by rw [Instr.row]; decide, ?_⟩
  have em : (0xFFF0F000 : Word) = wordOf 0xff 0xf 0x0 0xf 0x0 := by decide
  have ev : (0x11000000 : Word) = wordOf 0x11 0x0 0x0 0x0 0x0 := by decide
  rw [OpcodeRow.accepts, beq_iff_eq, Instr.row, em, ev]
  exact (accepts_iff (f := ⟨0x11, 0, ra, 0, imm⟩) (m := ⟨0xff, 0xf, 0x0, 0xf, 0x0⟩) (v := ⟨0x11, 0x0, 0x0, 0x0, 0x0⟩)
    (fit_mk (by omega) (by omega) (by omega) (by omega) (by omega))
    (fit_mk (by omega) (by omega) (by omega) (by omega) (by omega))
    (fit_mk (by omega) (by omega) (by omega) (by omega) (by omega))).2
    ⟨land_full8 (by decide : 0x11 < 256), Nat.zero_and _, Nat.and_zero _, Nat.zero_and _, Nat.and_zero _⟩

theorem feAdd (rd ra rb : Nat) : Statement (.feAdd rd ra rb) := by
  intro h
  simp only [Instr.wellFormed, Bool.and_eq_true, feIdxOk, decide_eq_true_eq] at h
  refine ⟨by rw [Instr.row]; decide, ?_⟩
  have em : (0xFF000FFF : Word) = wordOf 0xff 0x0 0x0 0x0 0xfff := by decide
  have ev : (0x12000000 : Word) = wordOf 0x12 0x0 0x0 0x0 0x0 := by decide
  rw [OpcodeRow.accepts, beq_iff_eq, Instr.row, em, ev]
  exact (accepts_iff (f := ⟨0x12, rd, ra, rb, 0⟩) (m := ⟨0xff, 0x0, 0x0, 0x0, 0xfff⟩) (v := ⟨0x12, 0x0, 0x0, 0x0, 0x0⟩)
    (fit_mk (by omega) (by omega) (by omega) (by omega) (by omega))
    (fit_mk (by omega) (by omega) (by omega) (by omega) (by omega))
    (fit_mk (by omega) (by omega) (by omega) (by omega) (by omega))).2
    ⟨land_full8 (by decide : 0x12 < 256), Nat.and_zero _, Nat.and_zero _, Nat.and_zero _, Nat.zero_and _⟩

theorem feSub (rd ra rb : Nat) : Statement (.feSub rd ra rb) := by
  intro h
  simp only [Instr.wellFormed, Bool.and_eq_true, feIdxOk, decide_eq_true_eq] at h
  refine ⟨by rw [Instr.row]; decide, ?_⟩
  have em : (0xFF000FFF : Word) = wordOf 0xff 0x0 0x0 0x0 0xfff := by decide
  have ev : (0x13000000 : Word) = wordOf 0x13 0x0 0x0 0x0 0x0 := by decide
  rw [OpcodeRow.accepts, beq_iff_eq, Instr.row, em, ev]
  exact (accepts_iff (f := ⟨0x13, rd, ra, rb, 0⟩) (m := ⟨0xff, 0x0, 0x0, 0x0, 0xfff⟩) (v := ⟨0x13, 0x0, 0x0, 0x0, 0x0⟩)
    (fit_mk (by omega) (by omega) (by omega) (by omega) (by omega))
    (fit_mk (by omega) (by omega) (by omega) (by omega) (by omega))
    (fit_mk (by omega) (by omega) (by omega) (by omega) (by omega))).2
    ⟨land_full8 (by decide : 0x13 < 256), Nat.and_zero _, Nat.and_zero _, Nat.and_zero _, Nat.zero_and _⟩

theorem feMul (rd ra rb : Nat) : Statement (.feMul rd ra rb) := by
  intro h
  simp only [Instr.wellFormed, Bool.and_eq_true, feIdxOk, decide_eq_true_eq] at h
  refine ⟨by rw [Instr.row]; decide, ?_⟩
  have em : (0xFF000FFF : Word) = wordOf 0xff 0x0 0x0 0x0 0xfff := by decide
  have ev : (0x14000000 : Word) = wordOf 0x14 0x0 0x0 0x0 0x0 := by decide
  rw [OpcodeRow.accepts, beq_iff_eq, Instr.row, em, ev]
  exact (accepts_iff (f := ⟨0x14, rd, ra, rb, 0⟩) (m := ⟨0xff, 0x0, 0x0, 0x0, 0xfff⟩) (v := ⟨0x14, 0x0, 0x0, 0x0, 0x0⟩)
    (fit_mk (by omega) (by omega) (by omega) (by omega) (by omega))
    (fit_mk (by omega) (by omega) (by omega) (by omega) (by omega))
    (fit_mk (by omega) (by omega) (by omega) (by omega) (by omega))).2
    ⟨land_full8 (by decide : 0x14 < 256), Nat.and_zero _, Nat.and_zero _, Nat.and_zero _, Nat.zero_and _⟩

theorem feSquare (rd ra : Nat) : Statement (.feSquare rd ra) := by
  intro h
  simp only [Instr.wellFormed, Bool.and_eq_true, feIdxOk, decide_eq_true_eq] at h
  refine ⟨by rw [Instr.row]; decide, ?_⟩
  have em : (0xFF00FFFF : Word) = wordOf 0xff 0x0 0x0 0xf 0xfff := by decide
  have ev : (0x15000000 : Word) = wordOf 0x15 0x0 0x0 0x0 0x0 := by decide
  rw [OpcodeRow.accepts, beq_iff_eq, Instr.row, em, ev]
  exact (accepts_iff (f := ⟨0x15, rd, ra, 0, 0⟩) (m := ⟨0xff, 0x0, 0x0, 0xf, 0xfff⟩) (v := ⟨0x15, 0x0, 0x0, 0x0, 0x0⟩)
    (fit_mk (by omega) (by omega) (by omega) (by omega) (by omega))
    (fit_mk (by omega) (by omega) (by omega) (by omega) (by omega))
    (fit_mk (by omega) (by omega) (by omega) (by omega) (by omega))).2
    ⟨land_full8 (by decide : 0x15 < 256), Nat.and_zero _, Nat.and_zero _, Nat.zero_and _, Nat.zero_and _⟩

theorem feInvert (rd ra : Nat) : Statement (.feInvert rd ra) := by
  intro h
  simp only [Instr.wellFormed, Bool.and_eq_true, feIdxOk, decide_eq_true_eq] at h
  refine ⟨by rw [Instr.row]; decide, ?_⟩
  have em : (0xFF00FFFF : Word) = wordOf 0xff 0x0 0x0 0xf 0xfff := by decide
  have ev : (0x16000000 : Word) = wordOf 0x16 0x0 0x0 0x0 0x0 := by decide
  rw [OpcodeRow.accepts, beq_iff_eq, Instr.row, em, ev]
  exact (accepts_iff (f := ⟨0x16, rd, ra, 0, 0⟩) (m := ⟨0xff, 0x0, 0x0, 0xf, 0xfff⟩) (v := ⟨0x16, 0x0, 0x0, 0x0, 0x0⟩)
    (fit_mk (by omega) (by omega) (by omega) (by omega) (by omega))
    (fit_mk (by omega) (by omega) (by omega) (by omega) (by omega))
    (fit_mk (by omega) (by omega) (by omega) (by omega) (by omega))).2
    ⟨land_full8 (by decide : 0x16 < 256), Nat.and_zero _, Nat.and_zero _, Nat.zero_and _, Nat.zero_and _⟩

theorem fePow2523 (rd ra : Nat) : Statement (.fePow2523 rd ra) := by
  intro h
  simp only [Instr.wellFormed, Bool.and_eq_true, feIdxOk, decide_eq_true_eq] at h
  refine ⟨by rw [Instr.row]; decide, ?_⟩
  have em : (0xFF00FFFF : Word) = wordOf 0xff 0x0 0x0 0xf 0xfff := by decide
  have ev : (0x17000000 : Word) = wordOf 0x17 0x0 0x0 0x0 0x0 := by decide
  rw [OpcodeRow.accepts, beq_iff_eq, Instr.row, em, ev]
  exact (accepts_iff (f := ⟨0x17, rd, ra, 0, 0⟩) (m := ⟨0xff, 0x0, 0x0, 0xf, 0xfff⟩) (v := ⟨0x17, 0x0, 0x0, 0x0, 0x0⟩)
    (fit_mk (by omega) (by omega) (by omega) (by omega) (by omega))
    (fit_mk (by omega) (by omega) (by omega) (by omega) (by omega))
    (fit_mk (by omega) (by omega) (by omega) (by omega) (by omega))).2
    ⟨land_full8 (by decide : 0x17 < 256), Nat.and_zero _, Nat.and_zero _, Nat.zero_and _, Nat.zero_and _⟩

theorem feFreeze (rd ra : Nat) : Statement (.feFreeze rd ra) := by
  intro h
  simp only [Instr.wellFormed, Bool.and_eq_true, feIdxOk, decide_eq_true_eq] at h
  refine ⟨by rw [Instr.row]; decide, ?_⟩
  have em : (0xFF00FFFF : Word) = wordOf 0xff 0x0 0x0 0xf 0xfff := by decide
  have ev : (0x18000000 : Word) = wordOf 0x18 0x0 0x0 0x0 0x0 := by decide
  rw [OpcodeRow.accepts, beq_iff_eq, Instr.row, em, ev]
  exact (accepts_iff (f := ⟨0x18, rd, ra, 0, 0⟩) (m := ⟨0xff, 0x0, 0x0, 0xf, 0xfff⟩) (v := ⟨0x18, 0x0, 0x0, 0x0, 0x0⟩)
    (fit_mk (by omega) (by omega) (by omega) (by omega) (by omega))
    (fit_mk (by omega) (by omega) (by omega) (by omega) (by omega))
    (fit_mk (by omega) (by omega) (by omega) (by omega) (by omega))).2
    ⟨land_full8 (by decide : 0x18 < 256), Nat.and_zero _, Nat.and_zero _, Nat.zero_and _, Nat.zero_and _⟩

theorem feIszero (ra : Nat) : Statement (.feIszero ra) := by
  intro h
  simp only [Instr.wellFormed, feIdxOk, decide_eq_true_eq] at h
  refine ⟨by rw [Instr.row]; decide, ?_⟩
  have em : (0xFFF0FFFF : Word) = wordOf 0xff 0xf 0x0 0xf 0xfff := by decide
  have ev : (0x19000000 : Word) = wordOf 0x19 0x0 0x0 0x0 0x0 := by decide
  rw [OpcodeRow.accepts, beq_iff_eq, Instr.row, em, ev]
  exact (accepts_iff (f := ⟨0x19, 0, ra, 0, 0⟩) (m := ⟨0xff, 0xf, 0x0, 0xf, 0xfff⟩) (v := ⟨0x19, 0x0, 0x0, 0x0, 0x0⟩)
    (fit_mk (by omega) (by omega) (by omega) (by omega) (by omega))
    (fit_mk (by omega) (by omega) (by omega) (by omega) (by omega))
    (fit_mk (by omega) (by omega) (by omega) (by omega) (by omega))).2
    ⟨land_full8 (by decide : 0x19 < 256), Nat.zero_and _, Nat.and_zero _, Nat.zero_and _, Nat.zero_and _⟩

theorem feIseq (ra rb : Nat) : Statement (.feIseq ra rb) := by
  intro h
  simp only [Instr.wellFormed, Bool.and_eq_true, feIdxOk, decide_eq_true_eq] at h
  refine ⟨by rw [Instr.row]; decide, ?_⟩
  have em : (0xFFF00FFF : Word) = wordOf 0xff 0xf 0x0 0x0 0xfff := by decide
  have ev : (0x1A000000 : Word) = wordOf 0x1a 0x0 0x0 0x0 0x0 := by decide
  rw [OpcodeRow.accepts, beq_iff_eq, Instr.row, em, ev]
  exact (accepts_iff (f := ⟨0x1A, 0, ra, rb, 0⟩) (m := ⟨0xff, 0xf, 0x0, 0x0, 0xfff⟩) (v := ⟨0x1a, 0x0, 0x0, 0x0, 0x0⟩)
    (fit_mk (by omega) (by omega) (by omega) (by omega) (by omega))
    (fit_mk (by omega) (by omega) (by omega) (by omega) (by omega))
    (fit_mk (by omega) (by omega) (by omega) (by omega) (by omega))).2
    ⟨land_full8 (by decide : 0x1A < 256), Nat.zero_and _, Nat.and_zero _, Nat.and_zero _, Nat.zero_and _⟩

theorem feGetparity (ra : Nat) : Statement (.feGetparity ra) := by
  intro h
  simp only [Instr.wellFormed, feIdxOk, decide_eq_true_eq] at h
  refine ⟨by rw [Instr.row]; decide, ?_⟩
  have em : (0xFFF0FFFF : Word) = wordOf 0xff 0xf 0x0 0xf 0xfff := by decide
  have ev : (0x1B000000 : Word) = wordOf 0x1b 0x0 0x0 0x0 0x0 := by decide
  rw [OpcodeRow.accepts, beq_iff_eq, Instr.row, em, ev]
  exact (accepts_iff (f := ⟨0x1B, 0, ra, 0, 0⟩) (m := ⟨0xff, 0xf, 0x0, 0xf, 0xfff⟩) (v := ⟨0x1b, 0x0, 0x0, 0x0, 0x0⟩)
    (fit_mk (by omega) (by omega) (by omega) (by omega) (by omega))
    (fit_mk (by omega) (by omega) (by omega) (by omega) (by omega))
    (fit_mk (by omega) (by omega) (by omega) (by omega) (by omega))).2
    ⟨land_full8 (by decide : 0x1B < 256), Nat.zero_and _, Nat.and_zero _, Nat.zero_and _, Nat.zero_and _⟩

theorem feCmov (rd ra : Nat) : Statement (.feCmov rd ra) := by
  intro h
  simp only [Instr.wellFormed, Bool.and_eq_true, feIdxOk, decide_eq_true_eq] at h
  refine ⟨by rw [Instr.row]; decide, ?_⟩
  have em : (0xFF00FFFF : Word) = wordOf 0xff 0x0 0x0 0xf 0xfff := by decide
  have ev : (0x1C000000 : Word) = wordOf 0x1c 0x0 0x0 0x0 0x0 := by decide
  rw [OpcodeRow.accepts, beq_iff_eq, Instr.row, em, ev]
  exact (accepts_iff (f := ⟨0x1C, rd, ra, 0, 0⟩) (m := ⟨0xff, 0x0, 0x0, 0xf, 0xfff⟩) (v := ⟨0x1c, 0x0, 0x0, 0x0, 0x0⟩)
    (fit_mk (by omega) (by omega) (by omega) (by omega) (by omega))
    (fit_mk (by omega) (by omega) (by omega) (by omega) (by omega))
    (fit_mk (by omega) (by omega) (by omega) (by omega) (by omega))).2
    ⟨land_full8 (by decide : 0x1C < 256), Nat.and_zero _, Nat.and_zero _, Nat.zero_and _, Nat.zero_and _⟩

theorem scFrom32 (rd imm : Nat) : Statement (.scFrom32 rd imm) := by
  intro h
  simp only [Instr.wellFormed, Bool.and_eq_true, scIdxOk, immOk, decide_eq_true_eq] at h
  refine ⟨by rw [Instr.row]; decide, ?_⟩
  have em : (0xFFCFF000 : Word) = wordOf 0xff 0xc 0xf 0xf 0x0 := by decide
  have ev : (0x20000000 : Word) = wordOf 0x20 0x0 0x0 0x0 0x0 := by decide
  rw [OpcodeRow.accepts, beq_iff_eq, Instr.row, em, ev]
  exact (accepts_iff (f := ⟨0x20, rd, 0, 0, imm⟩) (m := ⟨0xff, 0xc, 0xf, 0xf, 0x0⟩) (v := ⟨0x20, 0x0, 0x0, 0x0, 0x0⟩)
    (fit_mk (by omega) (by omega) (by omega) (by omega) (by omega))
    (fit_mk (by omega) (by omega) (by omega) (by omega) (by omega))
    (fit_mk (by omega) (by omega) (by omega) (by omega) (by omega))).2
    ⟨land_full8 (by decide : 0x20 < 256), land_idx_zero (by omega : rd < 4), Nat.zero_and _, Nat.zero_and _, Nat.and_zero _⟩

theorem scFrom64 (rd imm : Nat) : Statement (.scFrom64 rd imm) := by
  intro h
  simp only [Instr.wellFormed, Bool.and_eq_true, scIdxOk, immOk, decide_eq_true_eq] at h
  refine ⟨by rw [Instr.row]; decide, ?_⟩
  have em : (0xFFCFF000 : Word) = wordOf 0xff 0xc 0xf 0xf 0x0 := by decide
  have ev : (0x21000000 : Word) = wordOf 0x21 0x0 0x0 0x0 0x0 := by decide
  rw [OpcodeRow.accepts, beq_iff_eq, Instr.row, em, ev]
  exact (accepts_iff (f := ⟨0x21, rd, 0, 0, imm⟩) (m := ⟨0xff, 0xc, 0xf, 0xf, 0x0⟩) (v := ⟨0x21, 0x0, 0x0, 0x0, 0x0⟩)
    (fit_mk (by omega) (by omega) (by omega) (by omega) (by omega))
    (fit_mk (by omega) (by omega) (by omega) (by omega) (by omega))
    (fit_mk (by omega) (by omega) (by omega) (by omega) (by omega))).2
    ⟨land_full8 (by decide : 0x21 < 256), land_idx_zero (by omega : rd < 4), Nat.zero_and _, Nat.zero_and _, Nat.and_zero _⟩

theorem scTo32 (imm ra : Nat) : Statement (.scTo32 imm ra) := by
  intro h
  simp only [Instr.wellFormed, Bool.and_eq_true, scIdxOk, immOk, decide_eq_true_eq] at h
  refine ⟨by rw [Instr.row]; decide, ?_⟩
  have em : (0xFFFCF000 : Word) = wordOf 0xff 0xf 0xc 0xf 0x0 := by decide
  have ev : (0x22000000 : Word) = wordOf 0x22 0x0 0x0 0x0 0x0 := by decide
  rw [OpcodeRow.accepts, beq_iff_eq, Instr.row, em, ev]
  exact (accepts_iff (f := ⟨0x22, 0, ra, 0, imm⟩) (m := ⟨0xff, 0xf, 0xc, 0xf, 0x0⟩) (v := ⟨0x22, 0x0, 0x0, 0x0, 0x0⟩)
    (fit_mk (by omega) (by omega) (by omega) (by omega) (by omega))
    (fit_mk (by omega) (by omega) (by omega) (by omega) (by omega))
    (fit_mk (by omega) (by omega) (by omega) (by omega) (by omega))).2
    ⟨land_full8 (by decide : 0x22 < 256), Nat.zero_and _, land_idx_zero (by omega : ra < 4), Nat.zero_and _, Nat.and_zero _⟩

theorem scAdd (rd ra rb : Nat) : Statement (.scAdd rd ra rb) := by
  intro h
  simp only [Instr.wellFormed, Bool.and_eq_true, scIdxOk, decide_eq_true_eq] at h
  refine ⟨by rw [Instr.row]; decide, ?_⟩
  have em : (0xFFCCCFFF : Word) = wordOf 0xff 0xc 0xc 0xc 0xfff := by decide
  have ev : (0x23000000 : Word) = wordOf 0x23 0x0 0x0 0x0 0x0 := by decide
  rw [OpcodeRow.accepts, beq_iff_eq, Instr.row, em, ev]
  exact (accepts_iff (f := ⟨0x23, rd, ra, rb, 0⟩) (m := ⟨0xff, 0xc, 0xc, 0xc, 0xfff⟩) (v := ⟨0x23, 0x0, 0x0, 0x0, 0x0⟩)
    (fit_mk (by omega) (by omega) (by omega) (by omega) (by omega))
    (fit_mk (by omega) (by omega) (by omega) (by omega) (by omega))
    (fit_mk (by omega) (by omega) (by omega) (by omega) (by omega))).2
    ⟨land_full8 (by decide : 0x23 < 256), land_idx_zero (by omega : rd < 4), land_idx_zero (by omega : ra < 4), land_idx_zero (by omega : rb < 4), Nat.zero_and _⟩

theorem scSubnr (rd ra rb : Nat) : Statement (.scSubnr rd ra rb) := by
  intro h
  simp only [Instr.wellFormed, Bool.and_eq_true, scIdxOk, decide_eq_true_eq] at h
  refine ⟨by rw [Instr.row]; decide, ?_⟩
  have em : (0xFFCCCFFF : Word) = wordOf 0xff 0xc 0xc 0xc 0xfff := by decide
  have ev : (0x24000000 : Word) = wordOf 0x24 0x0 0x0 0x0 0x0 := by decide
  rw [OpcodeRow.accepts, beq_iff_eq, Instr.row, em, ev]
  exact (accepts_iff (f := ⟨0x24, rd, ra, rb, 0⟩) (m := ⟨0xff, 0xc, 0xc, 0xc, 0xfff⟩) (v := ⟨0x24, 0x0, 0x0, 0x0, 0x0⟩)
    (fit_mk (by omega) (by omega) (by omega) (by omega) (by omega))
    (fit_mk (by omega) (by omega) (by omega) (by omega) (by omega))
    (fit_mk (by omega) (by omega) (by omega) (by omega) (by omega))).2
    ⟨land_full8 (by decide : 0x24 < 256), land_idx_zero (by omega : rd < 4), land_idx_zero (by omega : ra < 4), land_idx_zero (by omega : rb < 4), Nat.zero_and _⟩

theorem scMul (rd ra rb : Nat) : Statement (.scMul rd ra rb) := by
  intro h
  simp only [Instr.wellFormed, Bool.and_eq_true, scIdxOk, decide_eq_true_eq] at h
  refine ⟨by rw [Instr.row]; decide, ?_⟩
  have em : (0xFFCCCFFF : Word) = wordOf 0xff 0xc 0xc 0xc 0xfff := by decide
  have ev : (0x25000000 : Word) = wordOf 0x25 0x0 0x0 0x0 0x0 := by decide
  rw [OpcodeRow.accepts, beq_iff_eq, Instr.row, em, ev]
  exact (accepts_iff (f := ⟨0x25, rd, ra, rb, 0⟩) (m := ⟨0xff, 0xc, 0xc, 0xc, 0xfff⟩) (v := ⟨0x25, 0x0, 0x0, 0x0, 0x0⟩)
    (fit_mk (by omega) (by omega) (by omega) (by omega) (by omega))
    (fit_mk (by omega) (by omega) (by omega) (by omega) (by omega))
    (fit_mk (by omega) (by omega) (by omega) (by omega) (by omega))).2
    ⟨land_full8 (by decide : 0x25 < 256), land_idx_zero (by omega : rd < 4), land_idx_zero (by omega : ra < 4), land_idx_zero (by omega : rb < 4), Nat.zero_and _⟩

theorem scLt (ra rb : Nat) : Statement (.scLt ra rb) := by
  intro h
  simp only [Instr.wellFormed, Bool.and_eq_true, scIdxOk, decide_eq_true_eq] at h
  refine ⟨by rw [Instr.row]; decide, ?_⟩
  have em : (0xFFFCCFFF : Word) = wordOf 0xff 0xf 0xc 0xc 0xfff := by decide
  have ev : (0x26000000 : Word) = wordOf 0x26 0x0 0x0 0x0 0x0 := by decide
  rw [OpcodeRow.accepts, beq_iff_eq, Instr.row, em, ev]
  exact (accepts_iff (f := ⟨0x26, 0, ra, rb, 0⟩) (m := ⟨0xff, 0xf, 0xc, 0xc, 0xfff⟩) (v := ⟨0x26, 0x0, 0x0, 0x0, 0x0⟩)
    (fit_mk (by omega) (by omega) (by omega) (by omega) (by omega))
    (fit_mk (by omega) (by omega) (by omega) (by omega) (by omega))
    (fit_mk (by omega) (by omega) (by omega) (by omega) (by omega))).2
    ⟨land_full8 (by decide : 0x26 < 256), Nat.zero_and _, land_idx_zero (by omega : ra < 4), land_idx_zero (by omega : rb < 4), Nat.zero_and _⟩

theorem scIszero (ra : Nat) : Statement (.scIszero ra) := by
  intro h
  simp only [Instr.wellFormed, scIdxOk, decide_eq_true_eq] at h
  refine ⟨by rw [Instr.row]; decide, ?_⟩
  have em : (0xFFFCFFFF : Word) = wordOf 0xff 0xf 0xc 0xf 0xfff := by decide
  have ev : (0x27000000 : Word) = wordOf 0x27 0x0 0x0 0x0 0x0 := by decide
  rw [OpcodeRow.accepts, beq_iff_eq, Instr.row, em, ev]
  exact (accepts_iff (f := ⟨0x27, 0, ra, 0, 0⟩) (m := ⟨0xff, 0xf, 0xc, 0xf, 0xfff⟩) (v := ⟨0x27, 0x0, 0x0, 0x0, 0x0⟩)
    (fit_mk (by omega) (by omega) (by omega) (by omega) (by omega))
    (fit_mk (by omega) (by omega) (by omega) (by omega) (by omega))
    (fit_mk (by omega) (by omega) (by omega) (by omega) (by omega))).2
    ⟨land_full8 (by decide : 0x27 < 256), Nat.zero_and _, land_idx_zero (by omega : ra < 4), Nat.zero_and _, Nat.zero_and _⟩

theorem scIsshort (ra : Nat) : Statement (.scIsshort ra) := by
  intro h
  simp only [Instr.wellFormed, scIdxOk, decide_eq_true_eq] at h
  refine ⟨by rw [Instr.row]; decide, ?_⟩
  have em : (0xFFFCFFFF : Word) = wordOf 0xff 0xf 0xc 0xf 0xfff := by decide
  have ev : (0x28000000 : Word) = wordOf 0x28 0x0 0x0 0x0 0x0 := by decide
  rw [OpcodeRow.accepts, beq_iff_eq, Instr.row, em, ev]
  exact (accepts_iff (f := ⟨0x28, 0, ra, 0, 0⟩) (m := ⟨0xff, 0xf, 0xc, 0xf, 0xfff⟩) (v := ⟨0x28, 0x0, 0x0, 0x0, 0x0⟩)
    (fit_mk (by omega) (by omega) (by omega) (by omega) (by omega))
    (fit_mk (by omega) (by omega) (by omega) (by omega) (by omega))
    (fit_mk (by omega) (by omega) (by omega) (by omega) (by omega))).2
    ⟨land_full8 (by decide : 0x28 < 256), Nat.zero_and _, land_idx_zero (by omega : ra < 4), Nat.zero_and _, Nat.zero_and _⟩

theorem scLessorder (imm : Nat) : Statement (.scLessorder imm) := by
  intro h
  simp only [Instr.wellFormed, immOk, decide_eq_true_eq] at h
  refine ⟨by rw [Instr.row]; decide, ?_⟩
  have em : (0xFFFFF000 : Word) = wordOf 0xff 0xf 0xf 0xf 0x0 := by decide
  have ev : (0x29000000 : Word) = wordOf 0x29 0x0 0x0 0x0 0x0 := by decide
  rw [OpcodeRow.accepts, beq_iff_eq, Instr.row, em, ev]
  exact (accepts_iff (f := ⟨0x29, 0, 0, 0, imm⟩) (m := ⟨0xff, 0xf, 0xf, 0xf, 0x0⟩) (v := ⟨0x29, 0x0, 0x0, 0x0, 0x0⟩)
    (fit_mk (by omega) (by omega) (by omega) (by omega) (by omega))
    (fit_mk (by omega) (by omega) (by omega) (by omega) (by omega))
    (fit_mk (by omega) (by omega) (by omega) (by omega) (by omega))).2
    ⟨land_full8 (by decide : 0x29 < 256), Nat.zero_and _, Nat.zero_and _, Nat.zero_and _, Nat.and_zero _⟩

theorem scWindow3 (imm ra : Nat) : Statement (.scWindow3 imm ra) := by
  intro h
  simp only [Instr.wellFormed, Bool.and_eq_true, scIdxOk, immOk, decide_eq_true_eq] at h
  refine ⟨by rw [Instr.row]; decide, ?_⟩
  have em : (0xFFFCF000 : Word) = wordOf 0xff 0xf 0xc 0xf 0x0 := by decide
  have ev : (0x2A000000 : Word) = wordOf 0x2a 0x0 0x0 0x0 0x0 := by decide
  rw [OpcodeRow.accepts, beq_iff_eq, Instr.row, em, ev]
  exact (accepts_iff (f := ⟨0x2A, 0, ra, 0, imm⟩) (m := ⟨0xff, 0xf, 0xc, 0xf, 0x0⟩) (v := ⟨0x2a, 0x0, 0x0, 0x0, 0x0⟩)
    (fit_mk (by omega) (by omega) (by omega) (by omega) (by omega))
    (fit_mk (by omega) (by omega) (by omega) (by omega) (by omega))
    (fit_mk (by omega) (by omega) (by omega) (by omega) (by omega))).2
    ⟨land_full8 (by decide : 0x2A < 256), Nat.zero_and _, land_idx_zero (by omega : ra < 4), Nat.zero_and _, Nat.and_zero _⟩

theorem scWindow5 (imm ra : Nat) : Statement (.scWindow5 imm ra) := by
  intro h
  simp only [Instr.wellFormed, Bool.and_eq_true, scIdxOk, immOk, decide_eq_true_eq] at h
  refine ⟨by rw [Instr.row]; decide, ?_⟩
  have em : (0xFFFCF000 : Word) = wordOf 0xff 0xf 0xc 0xf 0x0 := by decide
  have ev : (0x2B000000 : Word) = wordOf 0x2b 0x0 0x0 0x0 0x0 := by decide
  rw [OpcodeRow.accepts, beq_iff_eq, Instr.row, em, ev]
  exact (accepts_iff (f := ⟨0x2B, 0, ra, 0, imm⟩) (m := ⟨0xff, 0xf, 0xc, 0xf, 0x0⟩) (v := ⟨0x2b, 0x0, 0x0, 0x0, 0x0⟩)
    (fit_mk (by omega) (by omega) (by omega) (by omega) (by omega))
    (fit_mk (by omega) (by omega) (by omega) (by omega) (by omega))
    (fit_mk (by omega) (by omega) (by omega) (by omega) (by omega))).2
    ⟨land_full8 (by decide : 0x2B < 256), Nat.zero_and _, land_idx_zero (by omega : ra < 4), Nat.zero_and _, Nat.and_zero _⟩

theorem scInterleave2 (imm ra rb : Nat) : Statement (.scInterleave2 imm ra rb) := by
  intro h
  simp only [Instr.wellFormed, Bool.and_eq_true, scIdxOk, immOk, decide_eq_true_eq] at h
  refine ⟨by rw [Instr.row]; decide, ?_⟩
  have em : (0xFFFCC000 : Word) = wordOf 0xff 0xf 0xc 0xc 0x0 := by decide
  have ev : (0x2C000000 : Word) = wordOf 0x2c 0x0 0x0 0x0 0x0 := by decide
  rw [OpcodeRow.accepts, beq_iff_eq, Instr.row, em, ev]
  exact (accepts_iff (f := ⟨0x2C, 0, ra, rb, imm⟩) (m := ⟨0xff, 0xf, 0xc, 0xc, 0x0⟩) (v := ⟨0x2c, 0x0, 0x0, 0x0, 0x0⟩)
    (fit_mk (by omega) (by omega) (by omega) (by omega) (by omega))
    (fit_mk (by omega) (by omega) (by omega) (by omega) (by omega))
    (fit_mk (by omega) (by omega) (by omega) (by omega) (by omega))).2
    ⟨land_full8 (by decide : 0x2C < 256), Nat.zero_and _, land_idx_zero (by omega : ra < 4), land_idx_zero (by omega : rb < 4), Nat.and_zero _⟩

theorem geDecompneg (rd imm : Nat) : Statement (.geDecompneg rd imm) := by
  intro h
  simp only [Instr.wellFormed, Bool.and_eq_true, geIdxOk, immOk, decide_eq_true_eq] at h
  refine ⟨by rw [Instr.row]; decide, ?_⟩
  have em : (0xFFCFF000 : Word) = wordOf 0xff 0xc 0xf 0xf 0x0 := by decide
  have ev : (0x30000000 : Word) = wordOf 0x30 0x0 0x0 0x0 0x0 := by decide
  rw [OpcodeRow.accepts, beq_iff_eq, Instr.row, em, ev]
  exact (accepts_iff (f := ⟨0x30, rd, 0, 0, imm⟩) (m := ⟨0xff, 0xc, 0xf, 0xf, 0x0⟩) (v := ⟨0x30, 0x0, 0x0, 0x0, 0x0⟩)
    (fit_mk (by omega) (by omega) (by omega) (by omega) (by omega))
    (fit_mk (by omega) (by omega) (by omega) (by omega) (by omega))
    (fit_mk (by omega) (by omega) (by omega) (by omega) (by omega))).2
    ⟨land_full8 (by decide : 0x30 < 256), land_idx_zero (by omega : rd < 4), Nat.zero_and _, Nat.zero_and _, Nat.and_zero _⟩

theorem gePack (imm ra : Nat) : Statement (.gePack imm ra) := by
  intro h
  simp only [Instr.wellFormed, Bool.and_eq_true, geIdxOk, immOk, decide_eq_true_eq] at h
  refine ⟨by rw [Instr.row]; decide, ?_⟩
  have em : (0xFFFCF000 : Word) = wordOf 0xff 0xf 0xc 0xf 0x0 := by decide
  have ev : (0x31000000 : Word) = wordOf 0x31 0x0 0x0 0x0 0x0 := by decide
  rw [OpcodeRow.accepts, beq_iff_eq, Instr.row, em, ev]
  exact (accepts_iff (f := ⟨0x31, 0, ra, 0, imm⟩) (m := ⟨0xff, 0xf, 0xc, 0xf, 0x0⟩) (v := ⟨0x31, 0x0, 0x0, 0x0, 0x0⟩)
    (fit_mk (by omega) (by omega) (by omega) (by omega) (by omega))
    (fit_mk (by omega) (by omega) (by omega) (by omega) (by omega))
    (fit_mk (by omega) (by omega) (by omega) (by omega) (by omega))).2
    ⟨land_full8 (by decide : 0x31 < 256), Nat.zero_and _, land_idx_zero (by omega : ra < 4), Nat.zero_and _, Nat.and_zero _⟩

theorem geAdd (rd ra rb : Nat) : Statement (.geAdd rd ra rb) := by
  intro h
  simp only [Instr.wellFormed, Bool.and_eq_true, geIdxOk, decide_eq_true_eq] at h
  refine ⟨by rw [Instr.row]; decide, ?_⟩
  have em : (0xFFCCCFFF : Word) = wordOf 0xff 0xc 0xc 0xc 0xfff := by decide
  have ev : (0x32000000 : Word) = wordOf 0x32 0x0 0x0 0x0 0x0 := by decide
  rw [OpcodeRow.accepts, beq_iff_eq, Instr.row, em, ev]
  exact (accepts_iff (f := ⟨0x32, rd, ra, rb, 0⟩) (m := ⟨0xff, 0xc, 0xc, 0xc, 0xfff⟩) (v := ⟨0x32, 0x0, 0x0, 0x0, 0x0⟩)
    (fit_mk (by omega) (by omega) (by omega) (by omega) (by omega))
    (fit_mk (by omega) (by omega) (by omega) (by omega) (by omega))
    (fit_mk (by omega) (by omega) (by omega) (by omega) (by omega))).2
    ⟨land_full8 (by decide : 0x32 < 256), land_idx_zero (by omega : rd < 4), land_idx_zero (by omega : ra < 4), land_idx_zero (by omega : rb < 4), Nat.zero_and _⟩

theorem geDbl (rd ra : Nat) : Statement (.geDbl rd ra) := by
  intro h
  simp only [Instr.wellFormed, Bool.and_eq_true, geIdxOk, decide_eq_true_eq] at h
  refine ⟨by rw [Instr.row]; decide, ?_⟩
  have em : (0xFFCCFFFF : Word) = wordOf 0xff 0xc 0xc 0xf 0xfff := by decide
  have ev : (0x33000000 : Word) = wordOf 0x33 0x0 0x0 0x0 0x0 := by decide
  rw [OpcodeRow.accepts, beq_iff_eq, Instr.row, em, ev]
  exact (accepts_iff (f := ⟨0x33, rd, ra, 0, 0⟩) (m := ⟨0xff, 0xc, 0xc, 0xf, 0xfff⟩) (v := ⟨0x33, 0x0, 0x0, 0x0, 0x0⟩)
    (fit_mk (by omega) (by omega) (by omega) (by omega) (by omega))
    (fit_mk (by omega) (by omega) (by omega) (by omega) (by omega))
    (fit_mk (by omega) (by omega) (by omega) (by omega) (by omega))).2
    ⟨land_full8 (by decide : 0x33 < 256), land_idx_zero (by omega : rd < 4), land_idx_zero (by omega : ra < 4), Nat.zero_and _, Nat.zero_and _⟩

theorem geDsmul (rd ra rb rc : Nat) : Statement (.geDsmul rd ra rb rc) := by
  intro h
  simp only [Instr.wellFormed, Bool.and_eq_true, scIdxOk, geIdxOk, decide_eq_true_eq] at h
  refine ⟨by rw [Instr.row]; decide, ?_⟩
  have em : (0xFFCCCFFC : Word) = wordOf 0xff 0xc 0xc 0xc 0xffc := by decide
  have ev : (0x34000000 : Word) = wordOf 0x34 0x0 0x0 0x0 0x0 := by decide
  rw [OpcodeRow.accepts, beq_iff_eq, Instr.row, em, ev]
  exact (accepts_iff (f := ⟨0x34, rd, ra, rb, rc⟩) (m := ⟨0xff, 0xc, 0xc, 0xc, 0xffc⟩) (v := ⟨0x34, 0x0, 0x0, 0x0, 0x0⟩)
    (fit_mk (by omega) (by omega) (by omega) (by omega) (by omega))
    (fit_mk (by omega) (by omega) (by omega) (by omega) (by omega))
    (fit_mk (by omega) (by omega) (by omega) (by omega) (by omega))).2
    ⟨land_full8 (by decide : 0x34 < 256), land_idx_zero (by omega : rd < 4), land_idx_zero (by omega : ra < 4), land_idx_zero (by omega : rb < 4), land_rc_zero (by omega : rc < 4)⟩

theorem verify : Statement .verify := by
  intro h
  refine ⟨by rw [Instr.row]; decide, ?_⟩
  have em : (0xFFFFFFFF : Word) = wordOf 0xff 0xf 0xf 0xf 0xfff := by decide
  have ev : (0x40000000 : Word) = wordOf 0x40 0x0 0x0 0x0 0x0 := by decide
  rw [OpcodeRow.accepts, beq_iff_eq, Instr.row, em, ev]
  exact (accepts_iff (f := ⟨0x40, 0, 0, 0, 0⟩) (m := ⟨0xff, 0xf, 0xf, 0xf, 0xfff⟩) (v := ⟨0x40, 0x0, 0x0, 0x0, 0x0⟩)
    (fit_mk (by omega) (by omega) (by omega) (by omega) (by omega))
    (fit_mk (by omega) (by omega) (by omega) (by omega) (by omega))
    (fit_mk (by omega) (by omega) (by omega) (by omega) (by omega))).2
    ⟨land_full8 (by decide : 0x40 < 256), Nat.zero_and _, Nat.zero_and _, Nat.zero_and _, Nat.zero_and _⟩

end Sys2Proof.Laws.EncodeMatchesRow
end

