-- ==== Sys2Proof/Laws/Step.lean ====
section
/-! SUPPORT. The step at the host's port: which access it performs, the bits of STATUS, the frame of a command, and what
an abandoned command leaves alone (spec/10_state.md R29, spec/20_memory.md R60, R61, spec/60_exceptions.md R236). -/

namespace Sys2Proof.Machine

/-- The engine runs no command: the step is the host's access to it. -/
theorem step_idle (s : State) (a : HostAccess) (rest : List HostAccess) (h : s.running = none) :
    step { s with host := a :: rest } = idleAccess a { s with host := rest } := by
  simp [step, hostAccess, h]

/-- The engine runs a command: the step is the host's access to it meanwhile. -/
theorem step_busy (s : State) (a : HostAccess) (i : Instr) (rest : List HostAccess) (h : s.running = some i) :
    step { s with host := a :: rest } = busyAccess i a { s with host := rest } := by
  simp [step, hostAccess, h]

/-- A word accepted while the host does not wait: a fault that is not F_BUSY, or the command left running. -/
theorem startCmd_cases (s : State) (w : Word) (h : s.fault = false) :
    (∃ c, c ≠ .busy ∧ startCmd s w = s.takeFault c) ∨
      ∃ i, decode w = .ok i ∧ precheck i s = none ∧ startCmd s w = { s with running := some i } := by
  unfold startCmd
  rw [h]
  cases hd : decode w with
  | error e => exact .inl ⟨.illegal, by decide, rfl⟩
  | ok i =>
    cases hp : precheck i s with
    | none => exact .inr ⟨i, rfl, hp, by simp [hp]⟩
    | some c =>
      refine .inl ⟨c, ?_, by simp [hp]⟩
      rintro rfl
      unfold precheck at hp
      split at hp <;> try cases hp
      split at hp <;> try cases hp
      split at hp <;> try cases hp
      split at hp <;> cases hp

theorem host_eta (s : State) {l : List HostAccess} (h : s.host = l) : s = { s with host := l } := by subst h; rfl

/-- R29: the number of the STATUS word. -/
theorem statusWith_toNat (s : State) (p : Bool) :
    (s.statusWith p).toNat = bitVal s.busy + 2 * bitVal p + 4 * bitVal s.fault + 256 * s.faultCode.toNat := by
  have h := s.faultCode.isLt
  have hb : ∀ b, bitVal b ≤ 1 := by decide
  have h1 := hb s.busy
  have h2 := hb p
  have h3 := hb s.fault
  rw [State.statusWith, BitVec.toNat_ofNat]
  omega

theorem getLsbD_eq {w : Nat} (v : BitVec w) (i : Nat) : v.getLsbD i = decide (v.toNat / 2 ^ i % 2 = 1) := by
  rw [BitVec.getLsbD, Nat.testBit_eq_decide_div_mod_eq]

/-- R29: the bits of STATUS. -/
theorem statusWith_bits (s : State) (p : Bool) :
    (s.statusWith p).getLsbD 0 = s.busy ∧ (s.statusWith p).getLsbD 1 = p ∧ (s.statusWith p).getLsbD 2 = s.fault := by
  have h := statusWith_toNat s p
  rw [getLsbD_eq, getLsbD_eq, getLsbD_eq, h]
  generalize s.busy = b
  generalize s.fault = f
  cases b <;> cases p <;> cases f <;> simp [bitVal] <;> omega

/-- `exec` always answers a next state, and changes neither the parameters nor the host's queue. -/
theorem exec_next (i : Instr) (s : State) :
    ∃ t, exec i s = .next t ∧ t.params = s.params ∧ t.host = s.host ∧ t.fault = (s.fault || (precheck i s).isSome) := by
  rcases exec_cases i s with ⟨c, h1, h2⟩ | ⟨h1, h2⟩
  · exact ⟨_, h2, rfl, rfl, by simp [h1, State.takeFault]⟩
  · have := effect_rest i s
    exact ⟨_, h2, this.params, this.host, by simp [h1, this.fault]⟩

/-- The frame of every command but VERIFY. -/
theorem exec_frame {i : Instr} {s t : State} (hx : exec i s = .next t) (ht : t.fault = false)
    (hv : i ≠ .verify) :
    SameRegsBut i.dest.toList s t ∧ (i.writesP = false → t.p = s.p) ∧ SameRest s t ∧
      (i.writeSpan = none → SameBytes s t) ∧ ∀ a n, i.writeSpan = some (a, n) → SameBytesBut a n s t := by
  rcases exec_cases i s with ⟨c, -, h2⟩ | ⟨-, h2⟩
  · rw [h2] at hx; cases hx; cases ht
  rw [h2] at hx
  cases hx
  have hr := effect_rest i s
  refine ⟨effect_regs i s hv, effect_p i s, hr, fun h => ?_, fun a n h => ?_⟩
  · rcases effect_om i s with h' | ⟨a, bs, h', -⟩
    · intro b; simp only [State.readByte, h', hr.resets]
    · rw [h] at h'; cases h'
  · rcases effect_om i s with h' | ⟨a, bs, h', h''⟩
    · intro b _; simp only [State.readByte, h', hr.resets]
    · rw [h] at h'; cases h'
      intro b hb
      simp only [State.readByte, h'', hr.resets, get?_writeAll]
      rw [if_neg (by omega)]

/-- R236: an abandoned command changes no register but its destination. -/
theorem abandon_regs (s : State) (i : Instr) : SameRegsBut i.dest.toList s (s.abandon i) := by
  have hr : SameRegsBut i.dest.toList s (s.freeReg i.dest) := by
    cases i.dest with
    | none => exact ⟨fun _ _ => rfl, fun _ _ => rfl, fun _ _ => rfl⟩
    | some r =>
      cases r with
      | f j => exact ⟨fun k hk => Vector.getElem?_setIfInBounds_ne (Ne.symm (by simpa using hk)), fun _ _ => rfl, fun _ _ => rfl⟩
      | s j => exact ⟨fun _ _ => rfl, fun k hk => Vector.getElem?_setIfInBounds_ne (Ne.symm (by simpa using hk)), fun _ _ => rfl⟩
      | g j => exact ⟨fun _ _ => rfl, fun _ _ => rfl, fun k hk => Vector.getElem?_setIfInBounds_ne (Ne.symm (by simpa using hk))⟩
  have hm : ∀ (u : State) sp b, (((u.freeSpan sp).freeP b).f = u.f) ∧ (((u.freeSpan sp).freeP b).s = u.s) ∧
      (((u.freeSpan sp).freeP b).g = u.g) := by
    intro u sp b
    cases sp <;> cases b <;> exact ⟨rfl, rfl, rfl⟩
  obtain ⟨a1, a2, a3⟩ := hr
  obtain ⟨b1, b2, b3⟩ := hm (s.freeReg i.dest) i.writeSpan i.writesP
  refine ⟨fun k hk => ?_, fun k hk => ?_, fun k hk => ?_⟩
  · rw [← a1 k hk, ← b1]; rfl
  · rw [← a2 k hk, ← b2]; rfl
  · rw [← a3 k hk, ← b3]; rfl

/-- R236: it changes P only if it writes P. -/
theorem abandon_p (s : State) (i : Instr) (h : i.writesP = false) : (s.abandon i).p = s.p := by
  have hd : ∀ d, (s.freeReg d).p = s.p := by rintro (_ | _ | _ | _) <;> rfl
  show (((s.freeReg i.dest).freeSpan i.writeSpan).freeP i.writesP).p = _
  rw [h, ← hd i.dest]
  cases i.writeSpan <;> rfl

/-- R236: it changes no byte outside its destination span. -/
theorem abandon_bytes (s : State) (i : Instr) (b : Nat) (h : inSpan i.writeSpan b = false) :
    (s.abandon i).readByte b = s.readByte b := by
  have hr : (s.abandon i).resets = s.resets := (abandon_rest s i).2.2.2.2.2.2.2.2.2
  unfold State.readByte
  rw [hr]
  rcases abandon_om s i with h' | ⟨a, bs, h', h''⟩
  · rw [h']
  · rw [h'', get?_writeAll, if_neg]
    rw [h'] at h
    simpa [inSpan] using h

end Sys2Proof.Machine
end

