-- ==== Sys2Proof/Laws/Verifier.lean ====
section
/-! SUPPORT. The seven steps of VERIFY at value level (spec/43_verifier.md R212 to R223). -/

namespace Sys2Proof.Machine

/-- 32 bytes encode at most one point. -/
theorem decodesTo_unique {bs : List Byte} {A B : ZMod fieldP × ZMod fieldP} (hA : DecodesTo bs A) (hB : DecodesTo bs B) :
    A = B := by
  have := fieldP_fact
  obtain ⟨a1, a2, a3⟩ := hA
  obtain ⟨b1, b2, b3⟩ := hB
  have hy : A.2 = B.2 := by rw [a2, b2]
  rw [onCurve_iff] at a1 b1
  rw [hy, ← b1] at a1
  have h2 : A.1 ^ 2 = B.1 ^ 2 := mul_left_cancel₀ (den_ne_zero B.2) a1
  rcases sq_eq_sq_iff_eq_or_eq_neg.1 h2 with h | h
  · exact Prod.ext h hy
  · by_cases hx : B.1 = 0
    · rw [hx, neg_zero] at h; exact Prod.ext (h.trans hx.symm) hy
    · rw [← b3, h, val_neg_mod_two hx] at a3
      omega

/-- R190 in one equivalence: decompression succeeds exactly on the encodings of points, with minus the point. -/
theorem decompress_some_iff {bs : List Byte} (h : bs.length = 32) {A : ZMod fieldP × ZMod fieldP} (hA : DecodesTo bs A) :
    ∃ g, geDecompressNegate bs = some g ∧ Represents g (-A.1, A.2) := by
  obtain ⟨h1, h2⟩ := decompress_spec h
  cases hg : geDecompressNegate bs with
  | none => exact absurd hA (h2 hg A)
  | some g =>
    obtain ⟨P, hP, hr⟩ := h1 g hg
    rw [decodesTo_unique hA hP]
    exact ⟨g, rfl, hr⟩

/-- R214: an S with one of its top three bits set is rejected by step 3 anyway. -/
theorem topBits_of_lt {sig : List Byte} (hl : sig.length = 64) (h : leVal (sig.drop 32) < groupOrder) :
    topBitsSet sig = false := by
  have hlen : (byteLimbs (sig.drop 32)).length = 32 := by simp [hl]
  have hsp := limbVal_split hlen
  have e : (byteLimbs (sig.drop 32)).getD 31 0 = (sig.getD 63 0).toNat := by
    simp [byteLimbs, List.getD_eq_getElem?_getD, hl]
  rw [e] at hsp
  have hL : groupOrder < 256 ^ 31 * 32 := by decide
  have hb : (sig.getD 63 0).toNat < 32 := by
    have h' : limbVal (byteLimbs (sig.drop 32)) < groupOrder := h
    rw [hsp] at h'
    norm_num at *
    omega
  unfold topBitsSet
  have key : ∀ b : Byte, b.toNat < 32 → (b &&& 0xE0 != 0) = false := by decide
  exact key _ hb

theorem groupOrder_lt : groupOrder < 2 ^ 253 := by decide

theorem groupOrder_pos : 0 < groupOrder := by decide

/-! The seven steps, by the step that ends the run. -/

section
variable {h : List Byte → Digest} {pkLen sigLen : Word} {pk sig msg : List Byte}

theorem verifySteps_len (h1 : pkLen ≠ 32 ∨ sigLen ≠ 64) : verifySteps h pkLen sigLen pk sig msg = ⟨false, 1, none⟩ := by
  unfold verifySteps
  rw [if_pos h1]

theorem verifySteps_top (h1 : pkLen = 32) (h2 : sigLen = 64) (h3 : topBitsSet sig = true) :
    verifySteps h pkLen sigLen pk sig msg = ⟨false, 2, none⟩ := by
  unfold verifySteps
  rw [if_neg (by simp [h1, h2]), if_pos h3]

theorem verifySteps_order (h1 : pkLen = 32) (h2 : sigLen = 64) (h3 : topBitsSet sig = false)
    (h4 : scLessorder (sig.drop 32) = false) : verifySteps h pkLen sigLen pk sig msg = ⟨false, 3, none⟩ := by
  unfold verifySteps
  rw [if_neg (by simp [h1, h2]), if_neg (by simp [h3]), if_pos (by simp [h4])]

theorem verifySteps_point (h1 : pkLen = 32) (h2 : sigLen = 64) (h3 : topBitsSet sig = false)
    (h4 : scLessorder (sig.drop 32) = true) (h5 : geDecompressNegate pk = none) :
    verifySteps h pkLen sigLen pk sig msg = ⟨false, 4, none⟩ := by
  unfold verifySteps
  rw [if_neg (by simp [h1, h2]), if_neg (by simp [h3]), if_neg (by simp [h4]), h5]

theorem verifySteps_equation (h1 : pkLen = 32) (h2 : sigLen = 64) (h3 : topBitsSet sig = false)
    (h4 : scLessorder (sig.drop 32) = true) {g : Ge} (h5 : geDecompressNegate pk = some g) :
    verifySteps h pkLen sigLen pk sig msg =
      ⟨verifyEquation (h (sig.take 32 ++ pk ++ msg)) g sig, 7, some (sig.take 32 ++ pk ++ msg)⟩ := by
  unfold verifySteps
  rw [if_neg (by simp [h1, h2]), if_neg (by simp [h3]), if_neg (by simp [h4]), h5]

/-- The hash is looked at on one byte string alone. -/
theorem verifySteps_congr {h' : List Byte → Digest} (e : h (sig.take 32 ++ pk ++ msg) = h' (sig.take 32 ++ pk ++ msg)) :
    verifySteps h pkLen sigLen pk sig msg = verifySteps h' pkLen sigLen pk sig msg := by
  unfold verifySteps
  rw [e]
end

/-- R223: the value-level meaning of the verdict. -/
theorem verifySteps_verdict (h : List Byte → Digest) (pkLen sigLen : Word) {pk sig : List Byte} (msg : List Byte)
    (hpk : pk.length = 32) (hsig : sig.length = 64) :
    (verifySteps h pkLen sigLen pk sig msg).verdict = true ↔
      pkLen = 32 ∧ sigLen = 64 ∧ leVal (sig.drop 32) < groupOrder ∧
        ∃ A, DecodesTo pk A ∧
          encodePoint (edAdd (edMul (vecVal (h (sig.take 32 ++ pk ++ msg)) % groupOrder) (-A.1, A.2))
            (edMul (leVal (sig.drop 32)) basePoint)) = sig.take 32 := by
  have hS : (sig.drop 32).length = 32 := by simp [hsig]
  have hLlt := groupOrder_lt
  unfold verifySteps
  by_cases hlen : pkLen = 32 ∧ sigLen = 64
  swap
  · rw [if_pos (by tauto)]
    constructor
    · intro hf; simp at hf
    · intro hf; exact absurd ⟨hf.1, hf.2.1⟩ hlen
  rw [if_neg (by tauto)]
  by_cases hlt : leVal (sig.drop 32) < groupOrder
  swap
  · have hlo : scLessorder (sig.drop 32) = false := by
      rw [← Bool.not_eq_true]; exact fun hq => hlt ((scLessorder_iff hS).1 hq)
    constructor
    · intro hf
      split at hf
      · simp at hf
      · simp [hlo] at hf
    · intro hf; exact absurd hf.2.2.1 hlt
  have hlo : scLessorder (sig.drop 32) = true := (scLessorder_iff hS).2 hlt
  rw [if_neg (by simp [topBits_of_lt hsig hlt]), if_neg (by simp [hlo])]
  have hval : ∀ (g : Ge) (A : ZMod fieldP × ZMod fieldP), Represents g (-A.1, A.2) →
      gePack (geDsmul g (barrettReduce (limbs (h (sig.take 32 ++ pk ++ msg)))) (scFrom32 (sig.drop 32))) =
        encodePoint (edAdd (edMul (vecVal (h (sig.take 32 ++ pk ++ msg)) % groupOrder) (-A.1, A.2))
            (edMul (leVal (sig.drop 32)) basePoint)) := by
    intro g A hr
    have hk : vecVal (barrettReduce (limbs (h (sig.take 32 ++ pk ++ msg)))) =
        vecVal (h (sig.take 32 ++ pk ++ msg)) % groupOrder := vecVal_barrettReduce (by simp) (limbs_below _)
    have hs : vecVal (scFrom32 (sig.drop 32)) = leVal (sig.drop 32) := by
      rw [vecVal_scFrom32 hS, Nat.mod_eq_of_lt hlt]
    have hkl := Nat.mod_lt (vecVal (h (sig.take 32 ++ pk ++ msg))) groupOrder_pos
    rw [gePack_eq, (hr.dsmul _ _).point, hk, hs, Nat.mod_eq_of_lt (b := 2 ^ 254) (by omega),
      Nat.mod_eq_of_lt (b := 2 ^ 254) (by omega)]
  constructor
  · intro hv
    refine ⟨hlen.1, hlen.2, hlt, ?_⟩
    cases hg : geDecompressNegate pk with
    | none => simp [hg] at hv
    | some g =>
      obtain ⟨A, hA, hr⟩ := (decompress_spec hpk).1 g hg
      refine ⟨A, hA, ?_⟩
      rw [← hval g A hr]
      simpa [hg, verifyEquation] using hv
  · rintro ⟨-, -, -, A, hA, he⟩
    obtain ⟨g, hg, hr⟩ := decompress_some_iff hpk hA
    simp only [hg, verifyEquation, beq_iff_eq]
    rw [hval g A hr, he]

/-! The hash transaction of a command (spec/20_memory.md R66). -/

/-- The one check VERIFY can fail (R212): F_LEN. -/
theorem precheck_verify (s : State) :
    precheck .verify s = if s.msgLen.toNat ≤ s.params.msgMax then none else some .len := by
  by_cases h : s.msgLen.toNat ≤ s.params.msgMax <;>
    simp [precheck, Instr.wellFormed, Instr.sources, Instr.readSpan, Instr.writeSpan, spanOk, lenOk, h]

theorem hashRequest_verify {s : State} (h : s.msgLen.toNat ≤ s.params.msgMax) :
    s.hashRequest .verify = s.verifyRun.hashed := by
  simp [State.hashRequest, precheck_verify, h]

theorem hashRequest_fault {i : Instr} {s : State} {c : FaultCode} (h : precheck i s = some c) :
    s.hashRequest i = none := by
  simp [State.hashRequest, h]

theorem hashRequest_other {i : Instr} (s : State) (h : i ≠ .verify) : s.hashRequest i = none := by
  unfold State.hashRequest
  cases precheck i s <;> simp [h]

end Sys2Proof.Machine
end

