-- ==== Sys2Proof/Tests/Slice0.lean ====
section
/-! SUPPORT. The model's own tests. Expected results come from spec/: the command words of V44, the fault table of V45 and
rows of V10 to V39 (spec/95_test_vectors.md), with a 32-byte row written as the number it is; and, for each obligation with
hypotheses, a state and operands that meet them. -/

namespace Sys2Proof.Machine

/-! Small states. -/

/-- Just out of reset, with MSG_MAX = 16. -/
def tIdle : State := { State.reset with params := ⟨16, []⟩ }

/-- Every register written: every FE register holds 1, every SC register 5, every GE register G. -/
def tFull : State :=
  { tIdle with
    f := Vector.replicate 16 ⟨feOne, true⟩
    s := Vector.replicate 4 ⟨packLimbs 32 [5], true⟩
    g := Vector.replicate 4 ⟨geBase, true⟩ }

/-- Stopped by F_ILLEGAL. -/
def tStopped : State := tFull.faulted 0x01

/-- A command runs. -/
def tBusy (i : Instr) : State := { tFull with running := some i }

/-- The state after a command (the state itself where exec gives none). -/
def tAfter (i : Instr) (s : State) : State :=
  match exec i s with
  | .next t => t
  | _ => s

/-- STATUS after a few host accesses. -/
def tStatus : List HostAccess → State → Word
  | [], s => s.status
  | a :: rest, s =>
    match step { s with host := [a] } with
    | .next t => tStatus rest t
    | _ => 0xFFFFFFFF

/-- Two FE sources. -/
def tF (x y : Nat) : State := (tIdle.writeF 1 (feOfNat x)).writeF 2 (feOfNat y)

/-- Two SC sources. -/
def tS (x y : Nat) : State := (tIdle.writeS 1 (packLimbs 32 (limbsOf 32 x))).writeS 2 (packLimbs 32 (limbsOf 32 y))

/-- Bytes in memory. -/
def tM (a n x : Nat) : State := tIdle.writeBytes a (leBytes n x)

/-! WellFormed: each check refuses. -/

theorem test_wf_fe_index : ∀ i ∈ ([.feUnpack 16 0, .fePack 0 16, .feAdd 16 0 0, .feAdd 0 16 0, .feAdd 0 0 16, .feSub 16 0 0,
    .feSub 0 16 0, .feSub 0 0 16, .feMul 16 0 0, .feMul 0 16 0, .feMul 0 0 16, .feSquare 16 0, .feSquare 0 16, .feInvert 16 0,
    .feInvert 0 16, .fePow2523 16 0, .fePow2523 0 16, .feFreeze 16 0, .feFreeze 0 16, .feIszero 16, .feIseq 16 0, .feIseq 0 16,
    .feGetparity 16, .feCmov 16 0, .feCmov 0 16] : List Instr), i.wellFormed = false := by decide

theorem test_wf_sc_index : ∀ i ∈ ([.scFrom32 4 0, .scFrom64 4 0, .scTo32 0 4, .scAdd 4 0 0, .scAdd 0 4 0, .scAdd 0 0 4,
    .scSubnr 4 0 0, .scSubnr 0 4 0, .scSubnr 0 0 4, .scMul 4 0 0, .scMul 0 4 0, .scMul 0 0 4, .scLt 4 0, .scLt 0 4, .scIszero 4,
    .scIsshort 4, .scWindow3 0 4, .scWindow5 0 4, .scInterleave2 0 4 0, .scInterleave2 0 0 4, .geDsmul 0 0 4 0,
    .geDsmul 0 0 0 4] : List Instr), i.wellFormed = false := by decide

theorem test_wf_ge_index : ∀ i ∈ ([.geDecompneg 4 0, .gePack 0 4, .geAdd 4 0 0, .geAdd 0 4 0, .geAdd 0 0 4, .geDbl 4 0,
    .geDbl 0 4, .geDsmul 4 0 0 0, .geDsmul 0 4 0 0] : List Instr), i.wellFormed = false := by decide

theorem test_wf_address : ∀ i ∈ ([.feUnpack 0 0x1000, .fePack 0x1000 0, .scFrom32 0 0x1000, .scFrom64 0 0x1000,
    .scTo32 0x1000 0, .scLessorder 0x1000, .scWindow3 0x1000 0, .scWindow5 0x1000 0, .scInterleave2 0x1000 0 0,
    .geDecompneg 0 0x1000, .gePack 0x1000 0] : List Instr), i.wellFormed = false := by decide

theorem test_wf_largest : ∀ i ∈ ([.feUnpack 15 0xFFF, .fePack 0xFFF 15, .feAdd 15 15 15, .scFrom32 3 0xFFF, .scMul 3 3 3,
    .scInterleave2 0xFFF 3 3, .geDecompneg 3 0xFFF, .geDsmul 3 3 3 3, .verify] : List Instr), i.wellFormed = true := by decide

/-! Decoding: the words of V44, one for each command, both ways. -/

theorem test_decode_feUnpack : decode 0x10F00FE0 = .ok (.feUnpack 15 0xFE0) ∧ encode (.feUnpack 15 0xFE0) = 0x10F00FE0 := by
  decide

theorem test_decode_fePack : decode 0x11000000 = .ok (.fePack 0x000 0) ∧ encode (.fePack 0x000 0) = 0x11000000 := by
  decide

theorem test_decode_feAdd : decode 0x12312000 = .ok (.feAdd 3 1 2) ∧ encode (.feAdd 3 1 2) = 0x12312000 := by
  decide

theorem test_decode_feSub : decode 0x13FFF000 = .ok (.feSub 15 15 15) ∧ encode (.feSub 15 15 15) = 0x13FFF000 := by
  decide

theorem test_decode_feMul : decode 0x140AB000 = .ok (.feMul 0 10 11) ∧ encode (.feMul 0 10 11) = 0x140AB000 := by
  decide

theorem test_decode_feSquare : decode 0x15110000 = .ok (.feSquare 1 1) ∧ encode (.feSquare 1 1) = 0x15110000 := by
  decide

theorem test_decode_feInvert : decode 0x16200000 = .ok (.feInvert 2 0) ∧ encode (.feInvert 2 0) = 0x16200000 := by
  decide

theorem test_decode_fePow2523 : decode 0x17980000 = .ok (.fePow2523 9 8) ∧ encode (.fePow2523 9 8) = 0x17980000 := by
  decide

theorem test_decode_feFreeze : decode 0x18440000 = .ok (.feFreeze 4 4) ∧ encode (.feFreeze 4 4) = 0x18440000 := by
  decide

theorem test_decode_feIszero : decode 0x19070000 = .ok (.feIszero 7) ∧ encode (.feIszero 7) = 0x19070000 := by
  decide

theorem test_decode_feIseq : decode 0x1A031000 = .ok (.feIseq 3 1) ∧ encode (.feIseq 3 1) = 0x1A031000 := by
  decide

theorem test_decode_feGetparity : decode 0x1B040000 = .ok (.feGetparity 4) ∧ encode (.feGetparity 4) = 0x1B040000 := by
  decide

theorem test_decode_feCmov : decode 0x1C020000 = .ok (.feCmov 0 2) ∧ encode (.feCmov 0 2) = 0x1C020000 := by
  decide

theorem test_decode_scFrom32 : decode 0x20100040 = .ok (.scFrom32 1 0x040) ∧ encode (.scFrom32 1 0x040) = 0x20100040 := by
  decide

theorem test_decode_scFrom64 : decode 0x21000100 = .ok (.scFrom64 0 0x100) ∧ encode (.scFrom64 0 0x100) = 0x21000100 := by
  decide

theorem test_decode_scTo32 : decode 0x22030200 = .ok (.scTo32 0x200 3) ∧ encode (.scTo32 0x200 3) = 0x22030200 := by
  decide

theorem test_decode_scAdd : decode 0x23320000 = .ok (.scAdd 3 2 0) ∧ encode (.scAdd 3 2 0) = 0x23320000 := by
  decide

theorem test_decode_scSubnr : decode 0x24301000 = .ok (.scSubnr 3 0 1) ∧ encode (.scSubnr 3 0 1) = 0x24301000 := by
  decide

theorem test_decode_scMul : decode 0x25201000 = .ok (.scMul 2 0 1) ∧ encode (.scMul 2 0 1) = 0x25201000 := by
  decide

theorem test_decode_scLt : decode 0x26012000 = .ok (.scLt 1 2) ∧ encode (.scLt 1 2) = 0x26012000 := by
  decide

theorem test_decode_scIszero : decode 0x27030000 = .ok (.scIszero 3) ∧ encode (.scIszero 3) = 0x27030000 := by
  decide

theorem test_decode_scIsshort : decode 0x28020000 = .ok (.scIsshort 2) ∧ encode (.scIsshort 2) = 0x28020000 := by
  decide

theorem test_decode_scLessorder : decode 0x29000040 = .ok (.scLessorder 0x040) ∧ encode (.scLessorder 0x040) = 0x29000040 := by
  decide

theorem test_decode_scWindow3 : decode 0x2A000FAB = .ok (.scWindow3 0xFAB 0) ∧ encode (.scWindow3 0xFAB 0) = 0x2A000FAB := by
  decide

theorem test_decode_scWindow5 : decode 0x2B010FCD = .ok (.scWindow5 0xFCD 1) ∧ encode (.scWindow5 0xFCD 1) = 0x2B010FCD := by
  decide

theorem test_decode_scInterleave2 : decode 0x2C023F81 = .ok (.scInterleave2 0xF81 2 3) ∧ encode (.scInterleave2 0xF81 2 3) = 0x2C023F81 := by
  decide

theorem test_decode_geDecompneg : decode 0x30000000 = .ok (.geDecompneg 0 0x000) ∧ encode (.geDecompneg 0 0x000) = 0x30000000 := by
  decide

theorem test_decode_gePack : decode 0x31020120 = .ok (.gePack 0x120 2) ∧ encode (.gePack 0x120 2) = 0x31020120 := by
  decide

theorem test_decode_geAdd : decode 0x32210000 = .ok (.geAdd 2 1 0) ∧ encode (.geAdd 2 1 0) = 0x32210000 := by
  decide

theorem test_decode_geDbl : decode 0x33100000 = .ok (.geDbl 1 0) ∧ encode (.geDbl 1 0) = 0x33100000 := by
  decide

theorem test_decode_geDsmul : decode 0x34302001 = .ok (.geDsmul 3 0 2 1) ∧ encode (.geDsmul 3 0 2 1) = 0x34302001 := by
  decide

theorem test_decode_verify : decode 0x40000000 = .ok (.verify) ∧ encode (.verify) = 0x40000000 := by
  decide

/-! The fault table V45: STATUS after the words of a row, just out of reset (MSG_MAX = 16). -/

theorem test_status_undefined_op_00 : tStatus [.writeCsr 0 0x00000000] tIdle = 0x104 := by decide

theorem test_status_undefined_op_ff : tStatus [.writeCsr 0 0xFFFFFFFF] tIdle = 0x104 := by decide

theorem test_status_undefined_op_1d : tStatus [.writeCsr 0 0x1D000000] tIdle = 0x104 := by decide

theorem test_status_reserved_imm : tStatus [.writeCsr 0 0x12312001] tIdle = 0x104 := by decide

theorem test_status_sc_index : tStatus [.writeCsr 0 0x23400000] tIdle = 0x104 := by decide

theorem test_status_dsmul_rc : tStatus [.writeCsr 0 0x34100005] tIdle = 0x104 := by decide

theorem test_status_verify_field : tStatus [.writeCsr 0 0x40000001] tIdle = 0x104 := by decide

theorem test_status_unpack_ra : tStatus [.writeCsr 0 0x10010100] tIdle = 0x104 := by decide

theorem test_status_unwritten_wins : tStatus [.writeCsr 0 0x11050FFF] tIdle = 0x204 := by decide

theorem test_status_unwritten : tStatus [.writeCsr 0 0x12312000] tIdle = 0x204 := by decide

theorem test_status_span_ends_at_limit : tStatus [.writeCsr 0 0x10000FE0] tIdle = 0 := by decide

theorem test_status_span_past_limit : tStatus [.writeCsr 0 0x10000FE1] tIdle = 0x304 := by decide

theorem test_status_window3_fits : tStatus [.writeCsr 0 0x20000000, .writeCsr 0 0x2A000FAB] tIdle = 0 := by decide

theorem test_status_window3_past : tStatus [.writeCsr 0 0x20000000, .writeCsr 0 0x2A000FAC] tIdle = 0x304 := by decide

theorem test_status_interleave_fits : tStatus [.writeCsr 0 0x20000000, .writeCsr 0 0x2C000F81] tIdle = 0 := by decide

theorem test_status_interleave_past : tStatus [.writeCsr 0 0x20000000, .writeCsr 0 0x2C000F82] tIdle = 0x304 := by decide

theorem test_status_from64_past : tStatus [.writeCsr 0 0x21000FC1] tIdle = 0x304 := by decide

theorem test_status_cmov_unwritten : tStatus [.writeCsr 0 0x10000100, .writeCsr 0 0x1C100000] tIdle = 0x204 := by decide

theorem test_status_stopped : tStatus [.writeCsr 0 0x00000000, .writeCsr 0 0x10000100] tIdle = 0x104 := by decide

theorem test_status_len : tStatus [.writeCsr 4 17, .writeCsr 0 0x40000000] tIdle = 0x504 := by decide

/-- R236 and V45: F_BUSY. -/
theorem test_busy_write : (step { tBusy (.feAdd 0 1 2) with host := [.writeCsr 2 7] } matches .next _) = true ∧
    tStatus [.writeCsr 2 7] (tBusy (.feAdd 0 1 2)) = 0x404 ∧ ((tBusy (.feAdd 0 1 2)).abandon (.feAdd 0 1 2)).pkLen = 0 := by
  decide

/-- R61: an access to an engine that executes a command. -/
theorem test_busy_status : tStatus [.startCmd 0x12012000] tFull = 1 ∧ tStatus [.startCmd 0x12012000, .wait] tFull = 0 := by
  decide

/-! Constants: V21 and V31. -/

theorem test_constants_l : limbVal lLimbs = 0x1000000000000000000000000000000014def9dea2f79cd65812631a5cf5d3ed ∧
    limbVal muLimbs = 0x0fffffffffffffffffffffffffffffffeb2106215d086329a7ed9ce5a30a2c131b ∧
    limbVal pLimbs = 0x7fffffffffffffffffffffffffffffffffffffffffffffffffffffffffffffed := by decide

theorem test_constants_curve : vecVal curveD = 0x52036cee2b6ffe738cc740797779e89800700a4d4141d8ab75eb4dca135978a3 ∧
    vecVal curveD2 = 0x2406d9dc56dffce7198e80f2eef3d13000e0149a8283b156ebd69b9426b2f159 ∧
    vecVal curveSqrtM1 = 0x2b8324804fc1df0b2b4d00993dfbd7a72f431806ad2fe478c4ee1b274a0ea0b0 ∧
    vecVal geBase.x = 0x216936d3cd6e53fec0a4e231fdd6dc5c692cc7609525a7b2c9562d608f25d51a ∧
    vecVal geBase.y = 0x6666666666666666666666666666666666666666666666666666666666666658 ∧
    vecVal geBase.z = 0x0000000000000000000000000000000000000000000000000000000000000001 ∧
    vecVal geBase.t = 0x67875f0fd78b766566ea4e8e64abe37d20f09f80775152f56dde8ab3a5b7dda3 := by decide

/-! FE commands: rows of V10 to V20. -/

theorem test_feUnpack_drops_bit_255 : vecVal ((tAfter (.feUnpack 3 0xFE0) (tM 0xFE0 32 (2 ^ 256 - 1))).fe 3) = 2 ^ 255 - 1 := by
  decide

theorem test_fePack_canonical : (tAfter (.fePack 0x100 1) (tF (2 ^ 255 - 1) 0)).readBytes 0x100 32 = leBytes 32 18 := by decide

theorem test_fePack_p_is_zero : (tAfter (.fePack 0x100 1) (tF fieldP 0)).readBytes 0x100 32 = leBytes 32 0 := by decide

theorem test_feAdd_folds : vecVal ((tAfter (.feAdd 0 1 2) (tF (2 ^ 255 - 1) (2 ^ 255 - 1))).fe 0) = 36 := by decide

theorem test_feAdd_keeps_p : vecVal ((tAfter (.feAdd 0 1 2) (tF (fieldP - 1) 1)).fe 0) = fieldP := by decide

theorem test_feSub_wraps : vecVal ((tAfter (.feSub 0 1 2) (tF 0 1)).fe 0) = fieldP - 1 := by decide

theorem test_feSub_representative : vecVal ((tAfter (.feSub 0 1 2) (tF 5 3)).fe 0) = fieldP + 2 := by decide

theorem test_feMul_three_passes : vecVal ((tAfter (.feMul 0 1 2) (tF (2 ^ 255 - 1) (2 ^ 255 - 1))).fe 0) = 324 := by decide

theorem test_feMul_fold_38 : vecVal ((tAfter (.feMul 0 1 2) (tF (2 ^ 248) 256)).fe 0) = 38 := by decide

theorem test_feSquare_in_place : vecVal ((tAfter (.feSquare 1 1) (tF (fieldP - 1) 0)).fe 1) = fieldP + 1 := by decide

/-- A vector that squares to itself goes through the addition chain unchanged. -/
theorem chain_fixed {v : Fe} (h : feMul v v = v) : feInvert v = v ∧ fePow2523 v = v := by
  have hs : ∀ n, feSqn v n = v := by
    intro n
    induction n with
    | zero => rfl
    | succ n ih => rw [feSqn, feSquare, h, ih]
  have hq : feSquare v = v := h
  have hc : feChain250 v = (v, v) := by simp only [feChain250, hq, hs, h]
  simp only [feInvert, fePow2523, hc, hs, h, and_self]

theorem test_feInvert_zero_and_p : feInvert feZero = feZero ∧ feInvert (packLimbs 32 pLimbs) = packLimbs 32 pLimbs :=
  ⟨(chain_fixed (by decide)).1, (chain_fixed (by decide)).1⟩

theorem test_feInvert_two : vecVal (feInvert (feOfNat 2)) = (fieldP + 1) / 2 := by
  have := fieldP_fact
  have h1 := (feInv_iff _).1 (feInv_mul (feSqn (feChain250 (feOfNat 2)).1 5) (feChain250 (feOfNat 2)).2)
  have h2 : vecVal (feInvert (feOfNat 2)) < 2 ^ 255 := h1
  have h3 : vecVal (feInvert (feOfNat 2)) % fieldP = (fieldP + 1) / 2 % fieldP := by
    have hx : feRes (feOfNat 2) = 2 := by rw [feRes, show vecVal (feOfNat 2) = 2 by decide]; rfl
    have h := feRes_invert_inv (feOfNat 2)
    rw [hx] at h
    have h4 : (((fieldP + 1) / 2 : Nat) : ZMod fieldP) = 2⁻¹ := by
      refine eq_inv_of_mul_eq_one_left ?_
      have : (((fieldP + 1) / 2 * 2 : Nat) : ZMod fieldP) = (1 : Nat) := by
        rw [ZMod.natCast_eq_natCast_iff']; decide
      push_cast at this
      exact this
    rw [← h4, feRes] at h
    exact (ZMod.natCast_eq_natCast_iff' _ _ _).1 h
  have h5 : fieldP + 19 = 2 ^ 255 := fieldP_add
  have h6 : 19 ≤ (fieldP + 1) / 2 := by decide
  have h7 : (fieldP + 1) / 2 < fieldP := by decide
  rw [Nat.mod_eq_of_lt h7] at h3
  by_cases h8 : vecVal (feInvert (feOfNat 2)) < fieldP
  · rw [Nat.mod_eq_of_lt h8] at h3
    exact h3
  · rw [Nat.mod_eq_sub_mod (by omega), Nat.mod_eq_of_lt (by omega)] at h3
    omega

theorem test_fePow2523_one : fePow2523 feOne = feOne ∧ fePow2523 feZero = feZero :=
  ⟨(chain_fixed (by decide)).2, (chain_fixed (by decide)).2⟩

theorem test_feFreeze_subtracts_once : vecVal ((tAfter (.feFreeze 0 1) (tF (fieldP + 1) 0)).fe 0) = 1 := by decide

theorem test_feFreeze_keeps_below_p : vecVal ((tAfter (.feFreeze 0 1) (tF (fieldP - 1) 0)).fe 0) = fieldP - 1 := by decide

theorem test_feIszero_p : (tAfter (.feIszero 1) (tF fieldP 0)).p = true ∧ (tAfter (.feIszero 1) (tF 19 0)).p = false := by decide

theorem test_feIseq_representatives : (tAfter (.feIseq 1 2) (tF 18 (2 ^ 255 - 1))).p = true ∧
    (tAfter (.feIseq 1 2) (tF (fieldP - 1) fieldP)).p = false := by decide

theorem test_feGetparity_canonical : (tAfter (.feGetparity 1) (tF fieldP 0)).p = false ∧
    (tAfter (.feGetparity 1) (tF (fieldP + 1) 0)).p = true := by decide

theorem test_feCmov : vecVal ((tAfter (.feCmov 1 2) ((tF 5 (fieldP + 2)).setP true)).fe 1) = fieldP + 2 ∧
    vecVal ((tAfter (.feCmov 1 2) (tF 5 (fieldP + 2))).fe 1) = 5 := by decide

/-! SC commands: rows of V22 to V30. -/

theorem test_scFrom32 : vecVal ((tAfter (.scFrom32 0 0x40) (tM 0x40 32 (2 ^ 256 - 1))).sc 0) =
    0x0ffffffffffffffffffffffffffffffec6ef5bf4737dcf70d6ec31748d98951c ∧
    vecVal ((tAfter (.scFrom32 0 0x40) (tM 0x40 32 groupOrder)).sc 0) = 0 := by
  decide +kernel

theorem test_scFrom64 : vecVal ((tAfter (.scFrom64 3 0xFC0) (tM 0xFC0 64 (256 ^ 64 - 1))).sc 3) =
    0x0399411b7c309a3dceec73d217f5be65d00e1ba768859347a40611e3449c0f00 := by
  decide +kernel

theorem test_barrett_correction : vecVal (barrettReduce (limbsOf 64
    0xbdc95337e02cbfbb58d4ce7cf511c9ff919b61d8aa3d975f33d50b94eb7076b077fde0710ed86ec3040d0b0fa2347588e401ddc70ef9306bc2f1e6fd3c822044)) =
    0x0001e6c79c200cf238335d29da9b1b44b167eceedd15aeb4ce6926e420433e8c := by
  decide +kernel

theorem test_scTo32_unreduced :
    (tAfter (.scTo32 0x200 1) (tS (2 ^ 256 - 1) 0)).readBytes 0x200 32 = leBytes 32 (2 ^ 256 - 1) := by
  decide

theorem test_scAdd_wraps_at_l : vecVal ((tAfter (.scAdd 0 1 2) (tS (groupOrder - 1) 1)).sc 0) = 0 := by decide

theorem test_scAdd_truncates : vecVal ((tAfter (.scAdd 0 1 2) (tS (2 ^ 256 - 1) (2 ^ 256 - 1))).sc 0) =
    0xefffffffffffffffffffffffffffffffeb2106215d086329a7ed9ce5a30a2c11 := by decide

theorem test_scSubnr_wraps : vecVal ((tAfter (.scSubnr 0 1 2) (tS 0 1)).sc 0) = 2 ^ 256 - 1 := by decide

theorem test_scSubnr_unreduced : vecVal ((tAfter (.scSubnr 0 1 2) (tS (groupOrder + 5) 5)).sc 0) = groupOrder := by decide

theorem test_scMul : vecVal ((tAfter (.scMul 0 1 2) (tS (groupOrder - 1) (groupOrder - 1))).sc 0) = 1 := by
  decide +kernel

theorem test_scLt : (tAfter (.scLt 1 2) (tS 3 3)).p = false ∧ (tAfter (.scLt 1 2) (tS 0 (2 ^ 256 - 1))).p = true ∧
    (tAfter (.scLt 1 2) (tS 4 3)).p = false := by decide

theorem test_scIszero : (tAfter (.scIszero 1) (tS 0 0)).p = true ∧ (tAfter (.scIszero 1) (tS groupOrder 0)).p = false := by decide

theorem test_scIsshort : (tAfter (.scIsshort 1) (tS (2 ^ 128 - 1) 0)).p = true ∧
    (tAfter (.scIsshort 1) (tS (2 ^ 128) 0)).p = false := by decide

theorem test_scLessorder : (tAfter (.scLessorder 0x40) (tM 0x40 32 (groupOrder - 1))).p = true ∧
    (tAfter (.scLessorder 0x40) (tM 0x40 32 groupOrder)).p = false := by
  decide +kernel

theorem test_scWindow3 : (tAfter (.scWindow3 0 1) (tS 0x1234 0)).readBytes 0 85 = leBytes 85 0x010101fffc := by decide

theorem test_scWindow3_last : (tAfter (.scWindow3 0xFAB 1) (tS (2 ^ 256 - 1) 0)).readBytes 0xFAB 85 =
    leBytes 85 (255 + 16 * 256 ^ 84) := by decide

theorem test_scWindow5 : (tAfter (.scWindow5 0 1) (tS 0x1234 0)).readBytes 0 51 = leBytes 51 0x05f2f4 := by decide

theorem test_scWindow5_last : (tAfter (.scWindow5 0xFCD 1) (tS (2 ^ 256 - 1) 0)).readBytes 0xFCD 51 =
    leBytes 51 (255 + 64 * 256 ^ 50) := by decide

theorem test_scInterleave2 : (tAfter (.scInterleave2 0xF81 1 2) (tS 0x1B 0x06)).readBytes 0xF81 127 = leBytes 127 0x01060b := by
  decide +kernel

theorem test_scInterleave2_drops : (tAfter (.scInterleave2 0 1 2) (tS (2 ^ 254) (2 ^ 255))).readBytes 0 127 = leBytes 127 0 := by
  decide +kernel

/-! GE commands and VERIFY: rows of V32 to V39. -/

theorem test_geDbl : vecVal (geDbl geBase).x = 0x31241ddb9a7c254aea224b87b7b0f909886ec1ddfa71625b7aba864c18300a57 ∧
    vecVal (geDbl geBase).y = 0x3324984c6cc933db69b782fc3ac951f60a47aa662bbe321c924b2cd95e2d7fd7 ∧
    vecVal (geDbl geBase).z = 0x6986c5796b577c574098d1fa3b426292ebd36100339299d16374a93d0278de6b ∧
    vecVal (geDbl geBase).t = 0x18247dc974b59c9540e4564048a87e0fa362dabfedf0bb190eb34e071b4d4999 := by
  decide

theorem test_geDbl_neutral : vecVal ((tAfter (.geDbl 1 1) (tIdle.writeG 1 geNeutral)).ge 1).x = 0x7fffffffffffffffffffffffffffffffffffffffffffffffffffffffffffffed ∧
    vecVal ((tAfter (.geDbl 1 1) (tIdle.writeG 1 geNeutral)).ge 1).y = 0x7fffffffffffffffffffffffffffffffffffffffffffffffffffffffffffffec ∧
    vecVal ((tAfter (.geDbl 1 1) (tIdle.writeG 1 geNeutral)).ge 1).z = 0x7fffffffffffffffffffffffffffffffffffffffffffffffffffffffffffffec ∧
    vecVal ((tAfter (.geDbl 1 1) (tIdle.writeG 1 geNeutral)).ge 1).t = 0x7fffffffffffffffffffffffffffffffffffffffffffffffffffffffffffffed := by
  decide

theorem test_geAdd : vecVal (geAdd geBase geBase).x = 0x3b6f8891960f6ad45776d1e1213c1bd9de44f888163a76921515e6cf9f3fd67e ∧
    vecVal (geAdd geBase geBase).y = 0x336d9ece4cdb30925921f40f14dab827d6e156675107378db6d34c9a874a007e ∧
    vecVal (geAdd geBase geBase).z = 0x59e4ea1a52a20ea2fd9cb81712f675b450b27bff31b598ba722d5b0bf61c8608 ∧
    vecVal (geAdd geBase geBase).t = 0x1f6e08da2d298daafc6ea6fedd5e07c172749500483d139bc532c7e392cad989 := by
  decide

theorem test_geAdd_neutral : vecVal (geAdd geNeutral geBase).x = 0x05a4db4f35b94ffb029388c7f75b7171a4b31d8254969ecb2558b5823c97547b ∧
    vecVal (geAdd geNeutral geBase).y = 0x1999999999999999999999999999999999999999999999999999999999999999 ∧
    vecVal (geAdd geNeutral geBase).z = 0x7ffffffffffffffffffffffffffffffffffffffffffffffffffffffffffffff1 ∧
    vecVal (geAdd geNeutral geBase).t = 0x1e1d7c3f5e2dd9959ba93a3992af8df483c27e01dd454bd5b77a2ace96df76c5 := by
  decide

/-- The 32 bytes of the number 1 encode the neutral point. -/
theorem tDecodes : DecodesTo (leBytes 32 1) (0, 1) := by
  have h : leVal (leBytes 32 1) = 1 := by decide
  refine ⟨onCurve_zero, ?_, ?_⟩
  · rw [h]; norm_num
  · rw [h, ZMod.val_zero]; norm_num

/-- With bit 255 set they encode no point: x is 0 and the sign bit is 1 (R191). -/
theorem tDecodes_none (A : ZMod fieldP × ZMod fieldP) : ¬DecodesTo (leBytes 32 (1 + 2 ^ 255)) A := by
  have := fieldP_fact
  have h : leVal (leBytes 32 (1 + 2 ^ 255)) = 1 + 2 ^ 255 := by decide
  rintro ⟨h1, h2, h3⟩
  rw [h] at h2 h3
  have h4 : A.2 = 1 := by rw [h2]; norm_num
  rw [h4, onCurve_iff] at h1
  have h5 : A.1 = 0 := by
    rcases mul_eq_zero.1 (show (1 + resD * 1 ^ 2) * A.1 ^ 2 = 0 by rw [h1]; ring) with h' | h'
    · exact absurd h' (den_ne_zero 1)
    · exact pow_eq_zero_iff (by norm_num) |>.1 h'
  rw [h5, ZMod.val_zero] at h3
  norm_num at h3

theorem tM_read (x : Nat) : (tM 0 32 x).readBytes 0 32 = leBytes 32 x := by
  have h := readBytes_writeBytes tIdle 0 (leBytes 32 x)
  rw [leBytes_length] at h
  exact h

theorem test_geDecompneg_neutral : ∃ v, exec (.geDecompneg 1 0) (tM 0 32 1) = .next (((tM 0 32 1).writeG 1 v).setP true) ∧
    feRes v.x = 0 ∧ feRes v.y = feRes v.z := by
  obtain ⟨g, hg, hr⟩ := decompress_some_iff (leBytes_length 32 1) tDecodes
  refine ⟨g, ?_, ?_, ?_⟩
  · have h : precheck (.geDecompneg 1 0) (tM 0 32 1) = none := by decide
    rw [exec_ok h, effect, tM_read, hg]; rfl
  · rw [hr.coords.2.1]; simp
  · rw [hr.coords.2.2.1]; simp

theorem test_geDecompneg_fails : exec (.geDecompneg 1 0) (tM 0 32 (1 + 2 ^ 255)) =
    .next (((tM 0 32 (1 + 2 ^ 255)).clearG 1).setP false) := by
  have h : precheck (.geDecompneg 1 0) (tM 0 32 (1 + 2 ^ 255)) = none := by decide
  rw [exec_ok h, effect, tM_read]
  cases hg : geDecompressNegate (leBytes 32 (1 + 2 ^ 255)) with
  | none => rfl
  | some g =>
    obtain ⟨P, hP, -⟩ := (decompress_spec (leBytes_length 32 (1 + 2 ^ 255))).1 g hg
    exact absurd hP (tDecodes_none P)

theorem test_gePack_base : gePack geBase =
    leBytes 32 0x6666666666666666666666666666666666666666666666666666666666666658 := by
  have := fieldP_fact
  have hz : feRes geBase.z = 1 := feRes_one
  have hp : gePoint geBase = (feRes geBase.x, feRes geBase.y) := by simp [gePoint, hz]
  have hx : (feRes geBase.x).val % 2 = 0 := by rw [feRes, ZMod.val_natCast]; decide
  have hy : (feRes geBase.y).val = 0x6666666666666666666666666666666666666666666666666666666666666658 := by
    rw [feRes, ZMod.val_natCast]; decide
  rw [gePack_eq, hp, encodePoint]
  dsimp only
  rw [hx, hy]
  decide

theorem encode_neutral : encodePoint (0, 1) = leBytes 32 1 := by
  have := fieldP_fact
  have h0 : (0 : ZMod fieldP).val = 0 := ZMod.val_zero
  have h1 : (1 : ZMod fieldP).val = 1 := ZMod.val_one fieldP
  rw [encodePoint]
  dsimp only
  rw [h0, h1]
  decide

theorem test_geDsmul_zero : gePack (geDsmul geBase zeroLimbs zeroLimbs) = leBytes 32 1 := by
  have h := (represents_base.dsmul zeroLimbs zeroLimbs).point
  rw [show vecVal zeroLimbs = 0 by decide, Nat.zero_mod] at h
  have h1 : gePoint (geDsmul geBase zeroLimbs zeroLimbs) = (0, 1) := h.trans (edAdd_zero (0, 1))
  rw [gePack_eq, h1, encode_neutral]

/-- The lengths of a key and a signature. -/
def tVkey : State := { tIdle with pkLen := 32, sigLen := 64 }

/-- The inputs of VERIFY: PK the number 1, the signature R and S, an empty message. -/
def tV (r sg : Nat) : State :=
  (tVkey.writeBytes 0x000 (leBytes 32 1)).writeBytes 0x020 (leBytes 32 r ++ leBytes 32 sg)

theorem test_verify_length : tIdle.verifyRun = ⟨false, 1, none⟩ ∧ (tAfter .verify tFull).isValid (.g 3) = false ∧
    (tAfter .verify tFull).p = false := by decide

theorem test_verify_top_bits : (tV 1 (2 ^ 253)).verifyRun = ⟨false, 2, none⟩ := by decide

theorem test_verify_s_is_l : (tV 1 groupOrder).verifyRun = ⟨false, 3, none⟩ := by decide +kernel

theorem tV_pk (r sg : Nat) : (tV r sg).readBytes 0 32 = leBytes 32 1 := by
  have h := readBytes_writeBytes tVkey 0x000 (leBytes 32 1)
  rw [leBytes_length] at h
  rw [← h]
  refine readBytes_congr fun c _ hc => ?_
  exact readByte_writeBytes_outside (tVkey.writeBytes 0x000 (leBytes 32 1)) 0x020 _ c (.inl (by omega))

theorem tV_sig (r sg : Nat) : (tV r sg).readBytes 0x020 64 = leBytes 32 r ++ leBytes 32 sg := by
  have h := readBytes_writeBytes (tVkey.writeBytes 0x000 (leBytes 32 1)) 0x020 (leBytes 32 r ++ leBytes 32 sg)
  rw [List.length_append, leBytes_length, leBytes_length] at h
  exact h

/-- A VERIFY that faults with F_LEN, and one that ends at step 2, hash nothing (R66). -/
theorem test_hash_request : (State.hashRequest { tV 1 0 with msgLen := 17 } .verify) = none ∧
    (tV 1 (2 ^ 253)).hashRequest .verify = none := by decide

/-- The neutral key and the signature R = (0, 1), S = 0: the equation holds whatever the hash is. -/
theorem test_verify_accepts : (tV 1 0).verifyRun.verdict = true := by
  unfold State.verifyRun
  rw [tV_pk, tV_sig]
  have hd : (leBytes 32 1 ++ leBytes 32 0).drop 32 = leBytes 32 0 := by decide
  have ht : (leBytes 32 1 ++ leBytes 32 0).take 32 = leBytes 32 1 := by decide
  have h0 : leVal (leBytes 32 0) = 0 := by decide
  have hm : ∀ n, edMul n (0, 1) = (0, 1) := by
    intro n
    induction n with
    | zero => rfl
    | succ n ih => rw [edMul, ih, edAdd_zero]
  refine (verifySteps_verdict _ _ _ _ (leBytes_length 32 1) (by simp [leBytes_length])).2 ⟨rfl, rfl, ?_, (0, 1), tDecodes, ?_⟩
  · rw [hd, h0]; decide
  · rw [hd, ht, h0, ← encode_neutral]
    congr 1
    dsimp only
    rw [neg_zero, hm]
    exact edAdd_zero (0, 1)

/-! Witnesses: for each obligation with hypotheses, a state and operands that meet them, at the ends of the ranges. -/

theorem tFull_ok : ∀ i ∈ ([.feUnpack 15 0xFE0, .fePack 0xFE0 15, .feAdd 15 15 15, .feSub 15 15 15, .feMul 15 15 15,
    .feSquare 15 15, .feInvert 15 15, .fePow2523 15 15, .feFreeze 15 15, .feIszero 15, .feIseq 15 15, .feGetparity 15,
    .feCmov 15 15, .scFrom32 3 0xFE0, .scFrom64 3 0xFC0, .scTo32 0xFE0 3, .scAdd 3 3 3, .scSubnr 3 3 3, .scMul 3 3 3, .scLt 3 3,
    .scIszero 3, .scIsshort 3, .scLessorder 0xFE0, .scWindow3 0xFAB 3, .scWindow5 0xFCD 3, .scInterleave2 0xF81 3 3,
    .geDecompneg 3 0xFE0, .gePack 0xFE0 3, .geAdd 3 3 3, .geDbl 3 3, .geDsmul 3 3 3 3, .verify] : List Instr),
    precheck i tFull = none := by decide

/-- Every command has a next state with FAULT = 0 on `tFull`: the frames, and every statement about a next state. -/
theorem witness_completes (i : Instr) (h : precheck i tFull = none) : ∃ t, exec i tFull = .next t ∧ t.fault = false := by
  refine ⟨_, exec_ok h, ?_⟩
  rw [(effect_rest i tFull).fault]; rfl

theorem witness_EncodeAndDecodeAreInverse : (Instr.feUnpack 15 0xFFF).wellFormed = true ∧
    (Instr.geDsmul 3 3 3 3).wellFormed = true ∧ decode 0x11000000 = .ok (.fePack 0 0) := by decide

theorem witness_DecodeAcceptsExactlyTheOpcodeMap : (⟨0x34000000, 0xFFCCCFFC⟩ : OpcodeRow) ∈ opcodeMap ∧
    (0x34333003 : Word) &&& 0xFFCCCFFC = 0x34000000 ∧ decode 0x34333003 = .ok (.geDsmul 3 3 3 3) := by decide

/-- A word at each end of each undefined range of `op`. -/
theorem witness_EveryOtherWordIsIllegal : tIdle.running = none ∧ tIdle.fault = false ∧
    (∀ r ∈ opcodeMap, (0x0FFFFFFF : Word) &&& r.mask ≠ r.mtch) ∧ (∀ r ∈ opcodeMap, (0x1D000000 : Word) &&& r.mask ≠ r.mtch) ∧
    (∀ r ∈ opcodeMap, (0x1FFFFFFF : Word) &&& r.mask ≠ r.mtch) ∧ (∀ r ∈ opcodeMap, (0x2D000000 : Word) &&& r.mask ≠ r.mtch) ∧
    (∀ r ∈ opcodeMap, (0x2FFFFFFF : Word) &&& r.mask ≠ r.mtch) ∧ (∀ r ∈ opcodeMap, (0x35000000 : Word) &&& r.mask ≠ r.mtch) ∧
    (∀ r ∈ opcodeMap, (0x3FFFFFFF : Word) &&& r.mask ≠ r.mtch) ∧ (∀ r ∈ opcodeMap, (0x41000000 : Word) &&& r.mask ≠ r.mtch) ∧
    (0x34100004 : Word).extractLsb 31 24 = (0x34000000 : Word).extractLsb 31 24 ∧
    (0x34100004 : Word) &&& (0xFFCCCFFC &&& ~~~0x34000000) &&& 0x00FFFFFF ≠ 0 :=
  ⟨by decide, by decide, by decide, by decide, by decide, by decide, by decide, by decide, by decide, by decide, by decide,
    by decide⟩

theorem witness_StepRunsTheWrittenCommand : tFull.running = none ∧ tFull.fault = false ∧
    decode 0x12FFF000 = .ok (.feAdd 15 15 15) ∧
    ({ tFull with host := [.writeCsr 0 0x12FFF000] } : State).host = .writeCsr 0 0x12FFF000 :: [] := by decide

theorem witness_StartedCommandCompletesAsIfAtomic : tFull.running = none ∧ tFull.fault = false ∧
    decode 0x12FFF000 = .ok (.feAdd 15 15 15) ∧
    ({ tFull with host := [.startCmd 0x12FFF000, .wait] } : State).host = .startCmd 0x12FFF000 :: .wait :: [] ∧
    ({ tFull with host := [.startCmd 0x12FFF000] } : State).host = [.startCmd 0x12FFF000] := by decide

theorem witness_StoppedEngineIgnoresCommands : tStopped.running = none ∧ tStopped.fault = true ∧
    0x100F < 0x1000 + tStopped.params.msgMax ∧ HostAccess.wait ≠ .reset ∧
    (step { tStopped with host := [.wait] } matches .next _) = true := by decide

theorem witness_OnlyResetLeavesTheStoppedState : tStopped.fault = true ∧
    ({ tStopped with host := [.reset] } : State).host = .reset :: [] ∧ tStatus [.reset] tStopped = 0 := by decide

theorem witness_ResetGivesTheResetState : ({ tBusy .verify with host := [.reset, .wait] } : State).host = .reset :: [.wait] := by
  decide

theorem witness_port_idle : tFull.running = none ∧ 0x100F < 0x1000 + tFull.params.msgMax ∧
    0x1000 + tFull.params.msgMax ≤ 0x1010 ∧ 0x0FFF + tFull.params.msgMax < 0x1010 := by decide

theorem witness_port_busy : (tBusy (.fePack 0xFE0 0)).running = some (.fePack 0xFE0 0) ∧
    0x100F < 0x1000 + (tBusy (.fePack 0xFE0 0)).params.msgMax ∧ inSpan (Instr.fePack 0xFE0 0).writeSpan 0xFDF = false ∧
    inSpan (Instr.fePack 0xFE0 0).writeSpan 0x1000 = false ∧
    0x1000 + (tBusy (.fePack 0xFE0 0)).params.msgMax ≤ 0x1010 ∧ (Instr.fePack 0xFE0 0).writesP = false := by decide

theorem witness_UnwrittenSourceFaults : tIdle.isValid (.f 15) = false ∧ tIdle.isValid (.s 3) = false ∧
    tIdle.isValid (.g 3) = false ∧ tIdle.fault = false ∧ (Instr.geDsmul 3 3 3 3).wellFormed = true ∧
    (tAfter (.geDsmul 3 3 3 3) tIdle).fault = true ∧ (tAfter (.feUnpack 15 0xFE1) tIdle).fault = true ∧
    (tAfter .verify { tIdle with msgLen := 17 }).fault = true := by decide

theorem witness_SpanPastLowMemoryFaults : tFull.isValid (.f 15) = true ∧ tFull.isValid (.s 3) = true ∧
    tFull.isValid (.g 3) = true ∧ 0x1000 < 0xFE1 + 32 ∧ 0x1000 < 0xFC1 + 64 ∧ 0x1000 < 0xFAC + 85 ∧ 0x1000 < 0xFCE + 51 ∧
    0x1000 < 0xF82 + 127 ∧ tIdle.params.msgMax < ({ tIdle with msgLen := 17 } : State).msgLen.toNat ∧
    ({ tIdle with msgLen := 16 } : State).msgLen.toNat ≤ tIdle.params.msgMax := by decide

theorem witness_FaultPriority : decode 0x12312001 = .error (.reservedBits 0x12) ∧ (Instr.fePack 0xFFF 5).wellFormed = true ∧
    (∃ r ∈ (Instr.fePack 0xFFF 5).sources, tIdle.isValid r = false) ∧
    (∀ r ∈ (Instr.fePack 0xFE1 5).sources, tFull.isValid r = true) ∧
    (Instr.fePack 0xFE1 5).writeSpan = some (0xFE1, 32) ∧ (Instr.scFrom64 0 0xFC1).readSpan = some (0xFC1, 64) := by decide

theorem witness_FaultChangesOnlyStatus : tIdle.fault = false ∧ (exec (.feAdd 15 15 15) tIdle matches .next _) = true ∧
    (tAfter (.feAdd 15 15 15) tIdle).fault = true ∧ (runCmd tIdle 0 matches .next _) = true ∧ tIdle.running = none ∧
    tStatus [.writeCsr 0 0] tIdle = 0x104 ∧ tStatus [.startCmd 0] tIdle = 0x104 ∧
    tStatus [.startCmd 0x12312000] tIdle = 0x204 := by decide

theorem witness_FaultsDoNotDependOnData : (∀ r, tIdle.isValid r = { tIdle with p := true, pkLen := 7 }.isValid r) ∧
    exec (.feAdd 15 15 15) tIdle = .next (tAfter (.feAdd 15 15 15) tIdle) ∧
    (tAfter (.feAdd 15 15 15) tIdle).fault = true := ⟨fun _ => rfl, rfl, by decide⟩

/-- The two states differ in what unwritten registers hold. -/
theorem witness_UnwrittenContentsNeverShow :
    SameVisible tIdle { tIdle with f := Vector.replicate 16 ⟨feOne, false⟩ } ∧
      (tIdle.fe 3 ≠ State.fe { tIdle with f := Vector.replicate 16 ⟨feOne, false⟩ } 3) := by
  have hv : ∀ r, tIdle.isValid r = false := by
    rintro (i | i | i) <;> simp [State.isValid, tIdle, State.reset, Vector.getElem?_replicate] <;> split <;> rfl
  refine ⟨⟨⟨rfl, rfl, rfl, rfl, rfl, rfl, rfl, rfl, rfl, rfl, rfl⟩, rfl, rfl, ?_, fun i h => ?_, fun i _ => rfl, fun i _ => rfl⟩,
    by decide⟩
  · rintro (i | i | i)
    · rw [hv]
      simp [State.isValid, Vector.getElem?_replicate]
      split <;> rfl
    · rfl
    · rfl
  · rw [hv] at h; cases h

/-- Vectors at the bounds of R104 (a) and (b), limb 31 at 127 and at 254. -/
theorem witness_FePassValue : (List.replicate 32 81151200).length = 32 ∧ LimbsWithin 255 127 (List.replicate 31 255 ++ [127]) ∧
    LimbsWithin 255 254 (List.replicate 31 255 ++ [254]) ∧ feInv (feOfNat (2 ^ 255 - 1)) := by
  unfold LimbsWithin
  decide

/-- The largest vector of INV-FE, the vector of p and 1. -/
theorem witness_FieldValueLaws : feInv (feOfNat (2 ^ 255 - 1)) ∧ feInv (packLimbs 32 pLimbs) ∧ feInv feOne ∧
    feRes (packLimbs 32 pLimbs) = feRes feZero := by
  refine ⟨by decide, by decide, by decide, ?_⟩
  rw [feRes_zero, feRes, show vecVal (packLimbs 32 pLimbs) = fieldP by decide, ZMod.natCast_self]

/-- Operands at the ends of their ranges for the statements about FE commands; every register holds 1. -/
theorem witness_fe_operands : tFull.isValid (.f 15) = true ∧ 0xFE0 + 32 ≤ 0x1000 ∧ feInv (tFull.fe 15) ∧
    feInv ((tF fieldP 0).fe 1) ∧ vecVal ((tF fieldP 0).fe 1) = fieldP ∧ vecVal ((tF fieldP 0).fe 2) = 0 ∧
    (tF fieldP 0).isValid (.f 1) = true ∧ (tF fieldP 0).isValid (.f 2) = true ∧ (tFull.setP true).p = true := by decide

theorem witness_FeInvertAndPow2523Results : feRes (tFull.fe 15) ≠ 0 ∧ feRes (tFull.fe 15) = 1 ∧
    feRes ((tF fieldP 0).fe 2) = 0 := by
  have := fieldP_fact
  have h : feRes (tFull.fe 15) = 1 := by
    rw [show tFull.fe 15 = feOne by decide]; exact feRes_one
  refine ⟨by rw [h]; exact one_ne_zero, h, ?_⟩
  rw [show (tF fieldP 0).fe 2 = feZero by decide]; exact feRes_zero

theorem witness_BarrettReductionIsModL : (List.replicate 64 255).length = 64 ∧ ∀ u ∈ List.replicate 64 255, u < 256 := by
  decide

theorem witness_sc_operands : tFull.isValid (.s 3) = true ∧ 0xFE0 + 32 ≤ 0x1000 ∧ 0xFC0 + 64 ≤ 0x1000 ∧ 0xFAB + 85 ≤ 0x1000 ∧
    0xFCD + 51 ≤ 0x1000 ∧ 0xF81 + 127 ≤ 0x1000 ∧ vecVal (tFull.sc 3) < groupOrder ∧
    vecVal (tFull.sc 3) + vecVal (tFull.sc 3) < groupOrder := by decide

theorem witness_sc_unreduced : (tS (2 ^ 256 - 1) 0).isValid (.s 1) = true ∧ (tS (2 ^ 256 - 1) 0).isValid (.s 2) = true ∧
    vecVal ((tS (2 ^ 256 - 1) 0).sc 2) < vecVal ((tS (2 ^ 256 - 1) 0).sc 1) ∧
    groupOrder ≤ vecVal ((tS (2 ^ 256 - 1) 0).sc 1) + vecVal ((tS (2 ^ 256 - 1) 0).sc 2) := by decide

/-- Well-formed points: the base point and the neutral element, and two points of the curve. -/
theorem witness_GroupLawIsComplete : geInv geBase ∧ GeWellFormed geBase ∧ geInv geNeutral ∧ GeWellFormed geNeutral ∧
    OnCurve basePoint.1 basePoint.2 ∧ OnCurve 0 1 :=
  ⟨represents_base.inv, represents_base.wf, represents_neutral.inv, represents_neutral.wf, represents_base.onCurve, onCurve_zero⟩

theorem witness_ge_operands : tFull.isValid (.g 3) = true ∧ tFull.isValid (.s 3) = true ∧ tFull.ge 3 = geBase ∧
    (tIdle.writeG 1 ⟨feOne, feOne, feZero, feZero⟩).isValid (.g 1) = true := by decide

/-- A written register with Z = 0. -/
theorem witness_GePackResult : feRes ((tIdle.writeG 1 ⟨feOne, feOne, feZero, feZero⟩).ge 1).z = 0 := by
  rw [show ((tIdle.writeG 1 ⟨feOne, feOne, feZero, feZero⟩).ge 1).z = feZero by decide]; exact feRes_zero

theorem witness_GeDecompnegResult : DecodesTo ((tM 0 32 1).readBytes 0 32) (0, 1) ∧
    ∀ A, ¬DecodesTo ((tM 0 32 (1 + 2 ^ 255)).readBytes 0 32) A := by
  rw [tM_read, tM_read]
  exact ⟨tDecodes, tDecodes_none⟩

theorem witness_VerifyVerdict : ({ tV 1 0 with msgLen := 16 } : State).msgLen.toNat ≤ (tV 1 0).params.msgMax := by decide

/-- A run for each of the steps 1, 2, 3 and 7; step 4 is `witness_step4`. -/
theorem witness_VerifyStepsAndHashUse : tIdle.pkLen ≠ 32 ∧ tIdle.msgLen.toNat ≤ tIdle.params.msgMax ∧
    (tV 1 0).msgLen.toNat ≤ (tV 1 0).params.msgMax ∧ (tV 1 0).pkLen = 32 ∧ (tV 1 0).sigLen = 64 ∧
    (tV 1 (2 ^ 253)).readByte 0x05F &&& 0xE0 ≠ 0 ∧ (tV 1 groupOrder).readByte 0x05F &&& 0xE0 = 0 ∧
    groupOrder ≤ leVal ((tV 1 groupOrder).readBytes 0x040 32) ∧ leVal ((tV 1 0).readBytes 0x040 32) < groupOrder ∧
    tIdle.params.msgMax < ({ tIdle with msgLen := 17 } : State).msgLen.toNat ∧
    (Instr.gePack 0 0) ≠ .verify ∧ DecodesTo ((tV 1 0).readBytes 0x000 32) (0, 1) := by
  refine ⟨by decide, by decide, by decide, by decide, by decide, by decide +kernel, by decide +kernel, by decide +kernel, by decide +kernel, by decide, by decide, ?_⟩
  rw [tV_pk]
  exact tDecodes

/-- The inputs of `tV 1 0` with the key replaced by one that decodes to no point. -/
def tV4 : State :=
  (tVkey.writeBytes 0x020 (leBytes 32 1 ++ leBytes 32 0)).writeBytes 0x000 (leBytes 32 (1 + 2 ^ 255))

theorem witness_step4 : tV4.pkLen = 32 ∧ tV4.sigLen = 64 ∧ tV4.msgLen.toNat ≤ tV4.params.msgMax ∧ leVal (tV4.readBytes 0x040 32) < groupOrder ∧
    ∀ A, ¬DecodesTo (tV4.readBytes 0x000 32) A := by
  refine ⟨rfl, rfl, by decide, by decide +kernel, ?_⟩
  have h := readBytes_writeBytes (tVkey.writeBytes 0x020 (leBytes 32 1 ++ leBytes 32 0)) 0x000 (leBytes 32 (1 + 2 ^ 255))
  rw [leBytes_length] at h
  have e : tV4.readBytes 0x000 32 = leBytes 32 (1 + 2 ^ 255) := h
  rw [e]
  exact tDecodes_none

theorem witness_VerifyRejectsNonCanonicalS : (tV 1 groupOrder).msgLen.toNat ≤ (tV 1 groupOrder).params.msgMax ∧
    groupOrder ≤ leVal ((tV 1 groupOrder).readBytes 0x040 32) ∧ (tV 1 (2 ^ 253)).readByte 0x05F &&& 0xE0 ≠ 0 := by
  decide +kernel

/-- Two states with other memories and lengths that are both rejected, and one whose message does not fit. -/
theorem witness_VerifyLeavesNoTrace : tIdle.fault = false ∧ (tV 1 groupOrder).fault = false ∧
    (tAfter .verify tIdle).fault = false ∧ (tAfter .verify tIdle).p = false ∧ (tAfter .verify (tV 1 groupOrder)).fault = false ∧
    (tAfter .verify (tV 1 groupOrder)).p = false ∧ (tAfter .verify { tIdle with msgLen := 17 }).fault = true := by
  decide +kernel

/-- Two states with other registers and another P. -/
theorem witness_VerifyIsAPureFunctionOfItsInputs :
    (∀ a, tIdle.readByte a = (tFull.setP true).readByte a) ∧ tIdle.pkLen = tFull.pkLen ∧ tIdle.sigLen = tFull.sigLen ∧
      tIdle.msgLen = tFull.msgLen ∧ tIdle.params = tFull.params ∧ tFull.msgLen.toNat ≤ tFull.params.msgMax :=
  ⟨fun _ => rfl, rfl, rfl, rfl, rfl, by decide⟩

/-- A state other than reset that satisfies the invariants, and its next state. -/
theorem witness_StepKeepsTheInvariant : State.Inv { tFull with host := [.writeCsr 0 0x32000000] } ∧
    State.PointsOk { tFull with host := [.writeCsr 0 0x32000000] } ∧
    (step { tFull with host := [.writeCsr 0 0x32000000] } matches .next _) = true := by
  have hf : ∀ i, tFull.isValid (.f i) = true → tFull.fe i = feOne := by
    intro i
    by_cases h : i < 16 <;> simp [State.isValid, State.fe, tFull, h]
  have hg : ∀ i, tFull.isValid (.g i) = true → tFull.ge i = geBase := by
    intro i
    by_cases h : i < 4 <;> simp [State.isValid, State.ge, tFull, h]
  refine ⟨⟨rfl, fun c hc => (by cases hc), fun _ i h => ?_, fun _ i h => ?_, by decide, by decide, fun i h => (by cases h)⟩,
    fun _ i h => ?_, by decide⟩
  · exact (hf i h) ▸ feInv_one
  · exact (hg i h) ▸ represents_base.inv
  · exact (hg i h) ▸ represents_base.wf

end Sys2Proof.Machine
end

