-- ==== Sys2Proof/Proofs/Scope.lean ====
section
/-! SUPPORT. VERIFY as a function of the inputs of spec/43_verifier.md R211. -/

namespace Sys2Proof.Machine

/-- VERIFY is executed, and not faulted, when the message fits (R212). -/
theorem exec_verify_of_fits {s : State} (h : s.msgLen.toNat ≤ s.params.msgMax) :
    exec .verify s = .next (effect .verify s) :=
  exec_ok (by rw [precheck_verify, if_pos h])

@[simp] theorem effect_verify_p (s : State) : (effect .verify s).p = s.verifyRun.verdict := rfl

/-- The byte string of step 5 (R217), R ‖ PK ‖ MSG, as the run forms it from the whole signature. -/
theorem verify_hashInput (s : State) :
    (s.readBytes 0x020 64).take 32 ++ s.readBytes 0x000 32 ++ s.readBytes 0x1000 s.msgLen.toNat =
      s.readBytes 0x020 32 ++ s.readBytes 0x000 32 ++ s.readBytes 0x1000 s.msgLen.toNat := by
  rw [readBytes_take s 0x020 (by decide : 32 ≤ 64)]

/-- The run is determined by the three length CSRs, the two byte ranges and the hash of the one byte string. -/
theorem verifyRun_congr {s t : State} (hpkLen : s.pkLen = t.pkLen) (hsigLen : s.sigLen = t.sigLen)
    (hmsgLen : s.msgLen = t.msgLen) (hlow : ∀ a, a < 0x060 → s.readByte a = t.readByte a)
    (hmsg : ∀ a, 0x1000 ≤ a → a < 0x1000 + s.msgLen.toNat → s.readByte a = t.readByte a)
    (hhash : s.params.hash (s.readBytes 0x020 32 ++ s.readBytes 0x000 32 ++ s.readBytes 0x1000 s.msgLen.toNat) =
      t.params.hash (s.readBytes 0x020 32 ++ s.readBytes 0x000 32 ++ s.readBytes 0x1000 s.msgLen.toNat)) :
    s.verifyRun = t.verifyRun := by
  have pkBytes : s.readBytes 0x000 32 = t.readBytes 0x000 32 := readBytes_congr fun a _ ha => hlow a (by omega)
  have sigBytes : s.readBytes 0x020 64 = t.readBytes 0x020 64 := readBytes_congr fun a _ ha => hlow a (by omega)
  have msgBytes : s.readBytes 0x1000 s.msgLen.toNat = t.readBytes 0x1000 s.msgLen.toNat := readBytes_congr hmsg
  rw [← verify_hashInput] at hhash
  unfold State.verifyRun
  rw [← hpkLen, ← hsigLen, ← hmsgLen, ← pkBytes, ← sigBytes, ← msgBytes]
  exact verifySteps_congr hhash

/-- Settles O54: the run is determined by its inputs (`verifyRun_congr`), and P is the run's verdict. -/
theorem verifyIsAPureFunctionOfItsInputs : Obligations.VerifyIsAPureFunctionOfItsInputs := by
  unfold Obligations.VerifyIsAPureFunctionOfItsInputs
  intro s t hpkLen hsigLen hmsgLen hlow hmsg hhash
  have hrun : s.verifyRun = t.verifyRun := verifyRun_congr hpkLen hsigLen hmsgLen hlow hmsg hhash
  refine ⟨hrun, fun hs ht => ⟨_, _, exec_verify_of_fits hs, exec_verify_of_fits (hmsgLen ▸ ht), ?_⟩⟩
  rw [effect_verify_p, effect_verify_p, hrun]

end Sys2Proof.Machine
end

/-! SUPPORT. Contents of registers whose validity bit is 0: two states that differ in nothing else stay so under every
command (spec/10_state.md R25, spec/70_reset_and_hazards.md R263). -/

namespace Sys2Proof.Machine

theorem SameRest.symm {s t : State} (h : SameRest s t) : SameRest t s :=
  ⟨h.running.symm, h.fault.symm, h.faultCode.symm, h.pkLen.symm, h.sigLen.symm, h.msgLen.symm, h.params.symm,
    h.host.symm, h.rdata.symm, h.resets.symm, h.draws.symm⟩

theorem SameRest.trans {s t u : State} (h : SameRest s t) (k : SameRest t u) : SameRest s u :=
  ⟨k.running.trans h.running, k.fault.trans h.fault, k.faultCode.trans h.faultCode, k.pkLen.trans h.pkLen,
    k.sigLen.trans h.sigLen, k.msgLen.trans h.msgLen, k.params.trans h.params, k.host.trans h.host,
    k.rdata.trans h.rdata, k.resets.trans h.resets, k.draws.trans h.draws⟩

theorem sameRest_clearG (s : State) (i : Nat) : SameRest s (s.clearG i) :=
  ⟨rfl, rfl, rfl, rfl, rfl, rfl, rfl, rfl, rfl, rfl, rfl⟩

theorem sameRest_clearAll (s : State) : SameRest s s.clearAll :=
  ⟨rfl, rfl, rfl, rfl, rfl, rfl, rfl, rfl, rfl, rfl, rfl⟩

/-- Two states alike outside registers, P and memory stay so when each changes only there. -/
theorem SameRest.of_frames {s t s' t' : State} (h : SameRest s t) (hs : SameRest s s') (ht : SameRest t t') :
    SameRest s' t' :=
  hs.symm.trans (h.trans ht)

/-- The checks look at validity bits, MSG_LEN and MSG_MAX, at nothing a register holds. -/
theorem precheck_congr {s t : State} (hv : ∀ r, t.isValid r = s.isValid r) (hl : t.msgLen = s.msgLen)
    (hm : t.params.msgMax = s.params.msgMax) (i : Instr) : precheck i t = precheck i s := by
  have hvalid : t.isValid = s.isValid := funext hv
  have hlen : lenOk i t = lenOk i s := by cases i <;> simp only [lenOk, hl, hm]
  simp only [precheck, hvalid, hlen]

section
variable {s t : State} (h : SameVisible s t)
include h

theorem SameVisible.precheck (i : Instr) : precheck i t = precheck i s :=
  precheck_congr h.valid h.rest.msgLen (congrArg Params.msgMax h.rest.params) i

theorem SameVisible.readBytes (a n : Nat) : t.readBytes a n = s.readBytes a n :=
  readBytes_congr fun c _ _ => by simp only [State.readByte, h.om, h.rest.resets]

theorem SameVisible.verifyRun : t.verifyRun = s.verifyRun := by
  simp only [State.verifyRun, h.readBytes, h.rest.params, h.rest.pkLen, h.rest.sigLen, h.rest.msgLen]

/-! Each update of the state, made on both sides with the same value. -/

theorem SameVisible.takeFault (c : FaultCode) : SameVisible (s.takeFault c) (t.takeFault c) where
  rest := ⟨rfl, rfl, rfl, h.rest.pkLen, h.rest.sigLen, h.rest.msgLen, h.rest.params, h.rest.host, h.rest.rdata,
    h.rest.resets, h.rest.draws⟩
  p := h.p
  om := h.om
  valid := h.valid
  fe := h.fe
  sc := h.sc
  ge := h.ge

theorem SameVisible.setP (b : Bool) : SameVisible (s.setP b) (t.setP b) where
  rest := h.rest.of_frames (sameRest_setP s b) (sameRest_setP t b)
  p := rfl
  om := h.om
  valid := h.valid
  fe := h.fe
  sc := h.sc
  ge := h.ge

theorem SameVisible.writeBytes (a : Nat) (bs : List Byte) : SameVisible (s.writeBytes a bs) (t.writeBytes a bs) where
  rest := h.rest.of_frames (sameRest_writeBytes s a bs) (sameRest_writeBytes t a bs)
  p := h.p
  om := by rw [State.writeBytes_om, State.writeBytes_om, h.om]
  valid := h.valid
  fe := h.fe
  sc := h.sc
  ge := h.ge

theorem SameVisible.writeF {i : Nat} (hi : i < 16) (v : Fe) : SameVisible (s.writeF i v) (t.writeF i v) where
  rest := h.rest.of_frames (sameRest_writeF s i v) (sameRest_writeF t i v)
  p := h.p
  om := h.om
  valid r := by rw [isValid_writeF t hi, isValid_writeF s hi, h.valid]
  fe j hj := by
    rw [isValid_writeF s hi] at hj
    rw [fe_writeF t hi, fe_writeF s hi]
    split
    · rfl
    · next hne => exact h.fe j (by simpa [hne] using hj)
  sc := h.sc
  ge := h.ge

theorem SameVisible.writeS {i : Nat} (hi : i < 4) (v : Sc) : SameVisible (s.writeS i v) (t.writeS i v) where
  rest := h.rest.of_frames (sameRest_writeS s i v) (sameRest_writeS t i v)
  p := h.p
  om := h.om
  valid r := by rw [isValid_writeS t hi, isValid_writeS s hi, h.valid]
  fe := h.fe
  sc j hj := by
    rw [isValid_writeS s hi] at hj
    rw [sc_writeS t hi, sc_writeS s hi]
    split
    · rfl
    · next hne => exact h.sc j (by simpa [hne] using hj)
  ge := h.ge

theorem SameVisible.writeG {i : Nat} (hi : i < 4) (v : Ge) : SameVisible (s.writeG i v) (t.writeG i v) where
  rest := h.rest.of_frames (sameRest_writeG s i v) (sameRest_writeG t i v)
  p := h.p
  om := h.om
  valid r := by rw [isValid_writeG t hi, isValid_writeG s hi, h.valid]
  fe := h.fe
  sc := h.sc
  ge j hj := by
    rw [isValid_writeG s hi] at hj
    rw [ge_writeG t hi, ge_writeG s hi]
    split
    · rfl
    · next hne => exact h.ge j (by simpa [hne] using hj)

/-- The cleared register may hold different contents on the two sides: they are unreadable afterwards. -/
theorem SameVisible.clearG {i : Nat} (hi : i < 4) : SameVisible (s.clearG i) (t.clearG i) where
  rest := h.rest.of_frames (sameRest_clearG s i) (sameRest_clearG t i)
  p := h.p
  om := h.om
  valid r := by rw [isValid_clearG t hi, isValid_clearG s hi, h.valid]
  fe := h.fe
  sc := h.sc
  ge j hj := by
    rw [isValid_clearG s hi, Bool.and_eq_true] at hj
    rw [ge_clearG t hi, ge_clearG s hi, h.ge j hj.2]

theorem SameVisible.decompneg {i : Nat} (hi : i < 4) (o : Option Ge) :
    SameVisible (s.decompneg i o) (t.decompneg i o) := by
  cases o with
  | none => exact (h.clearG hi).setP false
  | some v => exact (h.writeG hi v).setP true

theorem SameVisible.clearAll : SameVisible s.clearAll t.clearAll where
  rest := h.rest.of_frames (sameRest_clearAll s) (sameRest_clearAll t)
  p := h.p
  om := h.om
  valid r := by rw [isValid_clearAll, isValid_clearAll]
  fe j hj := by rw [isValid_clearAll] at hj; cases hj
  sc j hj := by rw [isValid_clearAll] at hj; cases hj
  ge j hj := by rw [isValid_clearAll] at hj; cases hj

/-- A command that passed its checks reads written registers alone, so it makes the same update on both sides. -/
theorem SameVisible.effect {i : Instr} (hp : Machine.precheck i s = none) : SameVisible (effect i s) (effect i t) := by
  obtain ⟨hw, hv, -⟩ := (precheck_none_iff i s).1 hp
  cases i <;>
    simp only [Instr.wellFormed, Bool.and_eq_true, feIdxOk, scIdxOk, geIdxOk, immOk, decide_eq_true_eq] at hw <;>
    simp only [Instr.sources, List.mem_cons, List.not_mem_nil, or_false, forall_eq_or_imp, forall_eq] at hv <;>
    simp only [Machine.effect]
  case feUnpack => rw [h.readBytes]; exact h.writeF hw.1 _
  case feAdd | feSub | feMul => rw [h.fe _ hv.1, h.fe _ hv.2]; exact h.writeF hw.1.1 _
  case feSquare | feInvert | fePow2523 | feFreeze => rw [h.fe _ hv]; exact h.writeF hw.1 _
  case feCmov => rw [h.p, h.fe _ hv.1, h.fe _ hv.2]; exact h.writeF hw.1 _
  case fePack => rw [h.fe _ hv]; exact h.writeBytes _ _
  case feIszero | feGetparity => rw [h.fe _ hv]; exact h.setP _
  case feIseq => rw [h.fe _ hv.1, h.fe _ hv.2]; exact h.setP _
  case scFrom32 | scFrom64 => rw [h.readBytes]; exact h.writeS hw.1 _
  case scAdd | scSubnr | scMul => rw [h.sc _ hv.1, h.sc _ hv.2]; exact h.writeS hw.1.1 _
  case scTo32 | scWindow3 | scWindow5 => rw [h.sc _ hv]; exact h.writeBytes _ _
  case scInterleave2 => rw [h.sc _ hv.1, h.sc _ hv.2]; exact h.writeBytes _ _
  case scLt => rw [h.sc _ hv.1, h.sc _ hv.2]; exact h.setP _
  case scIszero | scIsshort => rw [h.sc _ hv]; exact h.setP _
  case scLessorder => rw [h.readBytes]; exact h.setP _
  case geDecompneg => rw [h.readBytes]; exact h.decompneg hw.1 _
  case gePack => rw [h.ge _ hv]; exact h.writeBytes _ _
  case geAdd => rw [h.ge _ hv.1, h.ge _ hv.2]; exact h.writeG hw.1.1 _
  case geDbl => rw [h.ge _ hv]; exact h.writeG hw.1 _
  case geDsmul => rw [h.ge _ hv.1, h.sc _ hv.2.1, h.sc _ hv.2.2]; exact h.writeG hw.1.1.1 _
  case verify => rw [h.verifyRun]; exact h.clearAll.setP _

end

/-- Settles O22: both states fail the same check (`SameVisible.takeFault`) or pass them all (`SameVisible.effect`). -/
theorem unwrittenContentsNeverShow : Obligations.UnwrittenContentsNeverShow := by
  unfold Obligations.UnwrittenContentsNeverShow
  intro i s t h
  have hpre := h.precheck i
  rcases exec_cases i s with ⟨c, hc, hs⟩ | ⟨hp, hs⟩
  · exact ⟨_, _, hs, exec_fault (hpre.trans hc), h.takeFault c⟩
  · exact ⟨_, _, hs, exec_ok (hpre.trans hp), h.effect hp⟩

end Sys2Proof.Machine

/-! SUPPORT. The invariant of the machine, operation by operation: which updates of the state keep `State.Inv`, and so
what every command and every access of the host keeps (spec/10_state.md R22, R24, R29; spec/20_memory.md R50). -/

namespace Sys2Proof.Machine

theorem FaultCode.toByte_ne_zero (c : FaultCode) : c.toByte ≠ 0 := by cases c <;> decide

theorem FaultCode.toByte_le (c : FaultCode) : c.toByte.toNat ≤ 5 := by cases c <;> decide

/-- Whatever the host does, the step is one access of it: an empty queue is the host waiting. -/
theorem step_eq_hostAccess (s : State) : ∃ a rest, step s = hostAccess a { s with host := rest } := by
  cases hh : s.host with
  | nil =>
    refine ⟨.wait, [], ?_⟩
    rw [← host_eta s hh]
    simp only [step, hh, complete, hostAccess]
    cases s.running <;> rfl
  | cons a rest => exact ⟨a, rest, by simp only [step, hh]⟩

/-- Memory that only the destination span of a checked command was written to stays canonical and inside the address
space: the span ends at or below 0x1000. -/
theorem memory_kept_of_span {m m' : Memory} {span : Option (Nat × Nat)} {top : Nat} (hwf : m.wf = true)
    (hin : ∀ c ∈ m, c.1 < 0x1000 + top) (hs : spanOk span = true)
    (hm : m' = m ∨ ∃ a bs, span = some (a, bs.length) ∧ m' = m.writeAll a bs) :
    m'.wf = true ∧ ∀ c ∈ m', c.1 < 0x1000 + top := by
  rcases hm with rfl | ⟨a, bs, rfl, rfl⟩
  · exact ⟨hwf, hin⟩
  · simp only [spanOk, decide_eq_true_eq] at hs
    refine ⟨wf_writeAll hwf a bs, fun c hc => ?_⟩
    rcases mem_writeAll hc with hc | hc
    · omega
    · exact hin c hc

/-- After a reset event no register is written, whatever the state before. -/
theorem resetEvent_inv (s : State) : s.resetEvent.Inv where
  memory := rfl
  addresses c hc := by cases hc
  feRegs _ i hi := by simp at hi
  geRegs _ i hi := by simp at hi
  code := by simp
  codes := by simp
  run i hi := by cases hi

section
variable {s : State} (h : s.Inv)
include h

/-- The host's queue, the data it read and the count of draws are outside the invariant. -/
theorem State.Inv.hostSide (l : List HostAccess) (v : Word) (n : Nat) :
    State.Inv { s with host := l, rdata := v, draws := n } :=
  ⟨h.memory, h.addresses, h.feRegs, h.geRegs, h.code, h.codes, h.run⟩

theorem State.Inv.stopRunning : State.Inv { s with running := none } :=
  ⟨h.memory, h.addresses, h.feRegs, h.geRegs, h.code, h.codes, nofun⟩

theorem State.Inv.startRunning (hf : s.fault = false) {i : Instr} (hp : precheck i s = none) :
    State.Inv { s with running := some i } :=
  ⟨h.memory, h.addresses, h.feRegs, h.geRegs, h.code, h.codes, fun j hj => by cases hj; exact ⟨hf, hp⟩⟩

theorem State.Inv.takeFault (c : FaultCode) : (s.takeFault c).Inv where
  memory := h.memory
  addresses := h.addresses
  feRegs hf := by cases hf
  geRegs hf := by cases hf
  code := by simpa using c.toByte_ne_zero
  codes := c.toByte_le
  run i hi := by cases hi

/-- F_BUSY leaves a stopped engine, of whose registers nothing is asked. -/
theorem State.Inv.abandon {i : Instr} (hp : precheck i s = none) : (s.abandon i).Inv := by
  obtain ⟨-, -, -, hspan, -⟩ := (precheck_none_iff i s).1 hp
  obtain ⟨hfault, hcode, hrun, -, -, -, hparams, -, -, -⟩ := abandon_rest s i
  obtain ⟨hwf, hin⟩ := memory_kept_of_span h.memory h.addresses hspan (abandon_om s i)
  exact {
    memory := hwf
    addresses := by rw [hparams]; exact hin
    feRegs := fun hf => by rw [hfault] at hf; cases hf
    geRegs := fun hf => by rw [hfault] at hf; cases hf
    code := by rw [hfault, hcode]; decide
    codes := by rw [hcode]; decide
    run := fun j hj => by rw [hrun] at hj; cases hj }

/-- The effect of a command: INV-FE of the registers is `effect_fe` and `effect_ge`, memory changes in the span alone. -/
theorem State.Inv.effect {i : Instr} (hf : s.fault = false) (hr : s.running = none) (hp : precheck i s = none) :
    (effect i s).Inv := by
  obtain ⟨-, -, -, hspan, -⟩ := (precheck_none_iff i s).1 hp
  have hrest := effect_rest i s
  obtain ⟨hwf, hin⟩ := memory_kept_of_span h.memory h.addresses hspan (effect_om i s)
  exact {
    memory := hwf
    addresses := by rw [hrest.params]; exact hin
    feRegs := fun _ => effect_fe (h.feRegs hf) hp
    geRegs := fun _ => effect_ge (fun a b _ _ => geInv_add a b) (fun a _ => geInv_dbl a) (fun _ u v ha => dsmul_inv ha u v)
      (fun _ g hl hg => by
        obtain ⟨_, -, hrep⟩ := (decompress_spec hl).1 g hg
        exact hrep.inv)
      (h.geRegs hf) hp
    code := by rw [hrest.fault, hrest.faultCode]; exact h.code
    codes := by rw [hrest.faultCode]; exact h.codes
    run := fun j hj => by rw [hrest.running, hr] at hj; cases hj }

theorem State.Inv.exec {i : Instr} {t : State} (hf : s.fault = false) (hr : s.running = none)
    (hx : exec i s = .next t) : t.Inv := by
  rcases exec_cases i s with ⟨c, -, he⟩ | ⟨hp, he⟩ <;> rw [he] at hx <;> cases hx
  · exact h.takeFault c
  · exact h.effect hf hr hp

/-! The accesses to an engine that runs no command. -/

theorem State.Inv.runCmd {w : Word} {t : State} (hr : s.running = none) (hx : runCmd s w = .next t) : t.Inv := by
  unfold Machine.runCmd at hx
  split at hx
  · cases hx; exact h
  · next hf =>
    split at hx
    · exact h.exec (by simpa using hf) hr hx
    · cases hx; exact h.takeFault .illegal

theorem State.Inv.startCmd (w : Word) : (startCmd s w).Inv := by
  cases hf : s.fault with
  | true => simpa [Machine.startCmd, hf] using h
  | false =>
    rcases startCmd_cases s w hf with ⟨c, -, e⟩ | ⟨i, -, hp, e⟩ <;> rw [e]
    · exact h.takeFault c
    · exact h.startRunning hf hp

/-- MSG_LEN is looked at by the check of a running VERIFY alone, and no command runs. -/
theorem State.Inv.writeLenCsr (hr : s.running = none) (n : Nat) (v : Word) : (s.writeLenCsr n v).Inv := by
  have hrun : ∀ i, s.running ≠ some i := fun i hi => by rw [hr] at hi; cases hi
  unfold State.writeLenCsr
  split
  case h_4 => exact h
  all_goals
    exact ⟨h.memory, h.addresses, h.feRegs, h.geRegs, h.code, h.codes, fun i hi => absurd hi (hrun i)⟩

theorem State.Inv.hostWriteOm (a : Nat) (b : Byte) : (s.hostWriteOm a b).Inv := by
  unfold State.hostWriteOm
  split
  · next ha =>
    simp only [State.omHas, decide_eq_true_eq] at ha
    refine ⟨wf_write h.memory a b, fun c hc => ?_, h.feRegs, h.geRegs, h.code, h.codes, h.run⟩
    rcases mem_write hc with rfl | hc
    · exact ha
    · exact h.addresses c hc
  · exact h

theorem State.Inv.idleAccess {a : HostAccess} {t : State} (hr : s.running = none) (hx : idleAccess a s = .next t) :
    t.Inv := by
  cases a with
  | writeCsr n v =>
    simp only [Machine.idleAccess] at hx
    split at hx
    · exact h.runCmd hr hx
    · cases hx; exact h.writeLenCsr hr n v
  | startCmd w => cases hx; exact h.startCmd w
  | readCsr n => cases hx; exact h.hostSide _ _ _
  | writeOm a b => cases hx; exact h.hostWriteOm a b
  | readOm a => cases hx; exact h.hostSide _ _ _
  | wait => cases hx; exact h
  | reset => cases hx; exact resetEvent_inv s

/-- The accesses to an engine that runs a command, which passed its checks. -/
theorem State.Inv.busyAccess {a : HostAccess} {i : Instr} {t : State} (hr : s.running = some i)
    (hx : busyAccess i a s = .next t) : t.Inv := by
  obtain ⟨hf, hp⟩ := h.run i hr
  cases a with
  | writeCsr n v =>
    cases hx
    split
    · exact h.abandon hp
    · exact h
  | startCmd w => cases hx; exact h.abandon hp
  | readCsr n => cases hx; exact h.hostSide _ _ _
  | writeOm a b =>
    cases hx
    split
    · exact h.abandon hp
    · exact h
  | readOm a => cases hx; exact h.hostSide _ _ _
  | wait => exact h.stopRunning.exec hf rfl hx
  | reset => cases hx; exact resetEvent_inv s

theorem State.Inv.hostAccess {a : HostAccess} {t : State} (hx : hostAccess a s = .next t) : t.Inv := by
  unfold Machine.hostAccess at hx
  split at hx
  · next hr => exact h.idleAccess hr hx
  · next i hr => exact h.busyAccess hr hx

end

/-- Settles O59: a step is one access of the host (`step_eq_hostAccess`), and every access keeps the invariant. -/
theorem stepKeepsTheInvariant : Obligations.StepKeepsTheInvariant := by
  unfold Obligations.StepKeepsTheInvariant
  intro s t h hx
  obtain ⟨a, rest, hstep⟩ := step_eq_hostAccess s
  rw [hstep] at hx
  exact (h.hostSide rest s.rdata s.draws).hostAccess hx

/-! The state after reset. -/

@[simp] theorem isValid_reset (r : RegName) : State.reset.isValid r = false := by
  cases r <;> simp only [State.isValid, State.reset, Vector.getElem?_replicate] <;> split <;> rfl

theorem reset_inv : State.reset.Inv where
  memory := rfl
  addresses c hc := by cases hc
  feRegs _ i hi := by simp at hi
  geRegs _ i hi := by simp at hi
  code := by decide
  codes := by decide
  run i hi := by cases hi

/-- Settles O58: no register is written and no command runs after reset. -/
theorem resetMeetsTheInvariants : Obligations.ResetMeetsTheInvariants := by
  unfold Obligations.ResetMeetsTheInvariants
  exact ⟨reset_inv, fun _ i hi => by simp at hi⟩

/-- Settles O11: the fields of `State.reset`, an empty memory reading as the first epoch's free values. -/
theorem stateAfterReset : Obligations.StateAfterReset := by
  unfold Obligations.StateAfterReset
  exact ⟨isValid_reset, rfl, rfl, rfl, rfl, rfl, rfl, fun _ => rfl, fun _ => rfl⟩

end Sys2Proof.Machine

/-! SUPPORT. The CSRs at the host's port, the STATUS word and the frames of the commands (spec/10_state.md R27 to R33;
spec/20_memory.md R52, R58, R61). -/

namespace Sys2Proof.Machine

/-! The write of CMD. -/

/-- R28: a legal word written to CMD of an engine that is not stopped is its command. -/
theorem runCmd_of_decode {s : State} {w : Word} {i : Instr} (hf : s.fault = false) (hd : decode w = .ok i) :
    runCmd s w = exec i s := by
  simp only [runCmd, hf, hd, Bool.false_eq_true, if_false]

theorem step_writeCmd_idle {s : State} {w : Word} {i : Instr} (rest : List HostAccess) (hr : s.running = none)
    (hf : s.fault = false) (hd : decode w = .ok i) :
    step { s with host := .writeCsr 0 w :: rest } = exec i { s with host := rest } := by
  rw [step_idle s _ rest hr]
  exact runCmd_of_decode (s := { s with host := rest }) hf hd

/-- Settles O5: the access is the write of CMD, once as it stands in the queue and once as `withFetchWord` builds it. -/
theorem stepRunsTheWrittenCommand : Obligations.StepRunsTheWrittenCommand := by
  unfold Obligations.StepRunsTheWrittenCommand
  refine ⟨fun s w i rest hr hf hd hh => ?_, fun s w i hr hf hd => ?_⟩
  · rw [host_eta s hh]
    exact step_writeCmd_idle rest hr hf hd
  · have hw : BitVec.ofNat 32 (w.toNat % 2 ^ 32) = w := by
      rw [Nat.mod_eq_of_lt w.isLt, BitVec.ofNat_toNat, BitVec.setWidth_eq]
    rw [State.withFetchWord, hw]
    exact step_writeCmd_idle s.host hr hf hd

/-! The CSRs of an engine that runs no command. -/

theorem step_readCsr_idle {s : State} (rest : List HostAccess) (n : Nat) (hr : s.running = none) :
    step { s with host := .readCsr n :: rest } = .next { s with host := rest, rdata := s.csrValue s.status n } :=
  step_idle s _ rest hr

theorem step_writeCsr_idle {s : State} (rest : List HostAccess) {n : Nat} (v : Word) (hr : s.running = none)
    (hn : n ≠ 0) :
    step { s with host := .writeCsr n v :: rest } = .next (State.writeLenCsr { s with host := rest } n v) := by
  rw [step_idle s _ rest hr, idleAccess, if_neg hn]

/-- R27: "CSR numbers 5 and above do not exist". -/
theorem csrValue_of_ge_five (s : State) (status : Word) {n : Nat} (hn : 5 ≤ n) : s.csrValue status n = 0 := by
  unfold State.csrValue
  split
  case h_5 => rfl
  all_goals omega

theorem writeLenCsr_of_ge_five (s : State) {n : Nat} (v : Word) (hn : 5 ≤ n) : s.writeLenCsr n v = s := by
  unfold State.writeLenCsr
  split
  case h_4 => rfl
  all_goals omega

/-- Settles O13: CSR by CSR, `State.csrValue` read and `State.writeLenCsr` written. -/
theorem csrAccess : Obligations.CsrAccess := by
  unfold Obligations.CsrAccess
  intro s rest hr
  refine ⟨step_readCsr_idle rest 0 hr, step_readCsr_idle rest 1 hr, step_readCsr_idle rest 2 hr,
    step_readCsr_idle rest 3 hr, step_readCsr_idle rest 4 hr,
    fun v => step_writeCsr_idle rest v hr (by decide), fun v => step_writeCsr_idle rest v hr (by decide),
    fun v => step_writeCsr_idle rest v hr (by decide), fun n hn => ⟨?_, fun v => ?_⟩⟩
  · rw [step_readCsr_idle rest n hr, csrValue_of_ge_five s _ hn]
  · rw [step_writeCsr_idle rest v hr (by omega), writeLenCsr_of_ge_five _ v hn]

/-! The STATUS word. -/

theorem bitVal_le_one (b : Bool) : bitVal b ≤ 1 := by cases b <;> decide

/-- R29: FAULT_CODE is bits 15:8, and bits 7:3 and 31:16 are 0. -/
theorem statusWith_fields (s : State) (p : Bool) :
    (s.statusWith p).extractLsb 15 8 = s.faultCode ∧ (s.statusWith p).extractLsb 7 3 = 0 ∧
      (s.statusWith p).extractLsb 31 16 = 0 := by
  have hn := statusWith_toNat s p
  have hcode := s.faultCode.isLt
  have hbusy := bitVal_le_one s.busy
  have hp := bitVal_le_one p
  have hfault := bitVal_le_one s.fault
  refine ⟨?_, ?_, ?_⟩ <;> apply BitVec.eq_of_toNat_eq <;>
    simp only [BitVec.extractLsb_toNat, Nat.shiftRight_eq_div_pow, BitVec.ofNat_eq_ofNat, BitVec.toNat_ofNat] <;> omega

/-- Above bit 1 STATUS does not depend on the value shown for P. -/
theorem statusWith_shiftRight_two (s : State) (p q : Bool) : s.statusWith p >>> 2 = s.statusWith q >>> 2 := by
  have hn := statusWith_toNat s p
  have hm := statusWith_toNat s q
  have hbusy := bitVal_le_one s.busy
  have hp := bitVal_le_one p
  have hq := bitVal_le_one q
  apply BitVec.eq_of_toNat_eq
  simp only [BitVec.toNat_ushiftRight, Nat.shiftRight_eq_div_pow]
  omega

/-- Settles O12: `statusWith_bits` and `statusWith_fields`; the two accesses are those of CSR 1. -/
theorem statusLayout : Obligations.StatusLayout := by
  unfold Obligations.StatusLayout
  refine ⟨fun s => ?_,
    fun s rest hr => ⟨step_readCsr_idle rest 1 hr, fun v => step_writeCsr_idle rest v hr (by decide)⟩⟩
  obtain ⟨hbusy, hp, hfault⟩ := statusWith_bits s s.p
  exact ⟨hbusy, hp, hfault, statusWith_fields s s.p⟩

/-! Reads while a command runs. -/

theorem step_readCsr_busy {s : State} {i : Instr} (rest : List HostAccess) (n : Nat) (hr : s.running = some i) :
    step { s with host := .readCsr n :: rest } =
      .next { s with host := rest, rdata := s.csrValue (s.statusWith (s.busyP i)) n, draws := s.draws + 1 } :=
  step_busy s _ i rest hr

theorem step_readOm_busy {s : State} {i : Instr} (rest : List HostAccess) (a : Nat) (hr : s.running = some i) :
    step { s with host := .readOm a :: rest } =
      .next { s with host := rest, rdata := (s.busyByte i a).setWidth 32, draws := s.draws + 1 } :=
  step_busy s _ i rest hr

theorem csrValue_of_ne_one (s : State) (status : Word) {n : Nat} (hn : n ≠ 1) :
    s.csrValue status n = if n = 2 then s.pkLen else if n = 3 then s.sigLen else if n = 4 then s.msgLen else 0 := by
  unfold State.csrValue
  split <;> simp_all

/-- R61: where the running command writes nothing, the byte is the current one, outside operand memory 0. -/
theorem busyByte_of_not_written (s : State) (i : Instr) {a : Nat} (h : s.omHas a = false ∨ inSpan i.writeSpan a = false) :
    s.busyByte i a = s.hostReadByte a := by
  rcases h with h | h <;> simp [State.busyByte, h]

/-- Settles O16: the read is `State.csrValue` or `State.busyByte`; only the P bit and the span's bytes are free. -/
theorem busyReadsSeeTheCurrentState : Obligations.BusyReadsSeeTheCurrentState := by
  unfold Obligations.BusyReadsSeeTheCurrentState
  intro s i rest hr
  refine ⟨⟨_, step_readCsr_busy rest 1 hr, ?_, statusWith_shiftRight_two s _ _, fun hp => ?_, rfl⟩,
    fun n hn => ⟨_, step_readCsr_busy rest n hr, csrValue_of_ne_one s _ hn, rfl⟩,
    fun a ha => ⟨_, step_readOm_busy rest a hr, ?_, rfl⟩, fun a ha hs => ⟨_, step_readOm_busy rest a hr, ?_, rfl⟩⟩
  · obtain ⟨hbusy, -, -⟩ := statusWith_bits s (s.busyP i)
    exact hbusy.trans (by rw [State.busy, hr]; rfl)
  · have hshown : s.busyP i = s.p := by rw [State.busyP, hp]; rfl
    exact congrArg s.statusWith hshown
  · have hout : s.omHas a = false := by simpa [State.omHas] using ha
    simp only [busyByte_of_not_written s i (.inl hout), State.hostReadByte, hout]
    rfl
  · have hin : s.omHas a = true := by simpa [State.omHas] using ha
    simp only [busyByte_of_not_written s i (.inr hs), State.hostReadByte, hin, if_true]

/-! The frames of the commands, by what the tables of the operands say they write. -/

section
variable {s t : State} {i : Instr} (ht : t.fault = false) (hx : exec i s = .next t)
include ht hx

/-- A command whose only destination, P aside, is a register. -/
theorem exec_frame_register {r : RegName} (hd : i.dest = some r) (hw : i.writeSpan = none) :
    SameRegsBut [r] s t ∧ (i.writesP = false → t.p = s.p) ∧ SameBytes s t ∧ SameRest s t := by
  have hv : i ≠ .verify := by rintro rfl; cases hd
  obtain ⟨hregs, hp, hrest, hbytes, -⟩ := exec_frame hx ht hv
  rw [hd] at hregs
  exact ⟨hregs, hp, hbytes hw, hrest⟩

/-- A command whose only destination is its register. -/
theorem exec_frame_register_only {r : RegName} (hd : i.dest = some r) (hw : i.writeSpan = none)
    (hp : i.writesP = false) : SameRegsBut [r] s t ∧ t.p = s.p ∧ SameBytes s t ∧ SameRest s t := by
  obtain ⟨hregs, hkeepP, hbytes, hrest⟩ := exec_frame_register ht hx hd hw
  exact ⟨hregs, hkeepP hp, hbytes, hrest⟩

/-- A command whose only destination is its span of operand memory. -/
theorem exec_frame_store {a n : Nat} (hw : i.writeSpan = some (a, n)) (hd : i.dest = none) (hp : i.writesP = false) :
    SameBytesBut a n s t ∧ SameRegsBut [] s t ∧ t.p = s.p ∧ SameRest s t := by
  have hv : i ≠ .verify := by rintro rfl; cases hw
  obtain ⟨hregs, hkeepP, hrest, -, hbytes⟩ := exec_frame hx ht hv
  rw [hd] at hregs
  exact ⟨hbytes a n hw, hregs, hkeepP hp, hrest⟩

/-- A command whose only destination is P. -/
theorem exec_frame_predicate (hv : i ≠ .verify) (hd : i.dest = none) (hw : i.writeSpan = none) :
    SameRegsBut [] s t ∧ SameBytes s t ∧ SameRest s t := by
  obtain ⟨hregs, -, hrest, hbytes, -⟩ := exec_frame hx ht hv
  rw [hd] at hregs
  exact ⟨hregs, hbytes hw, hrest⟩

end

/-- Settles O55: each command of the lists has a register as its destination, no span, and leaves P, GE.DECOMPNEG apart. -/
theorem frameOfRegisterCommands : Obligations.FrameOfRegisterCommands := by
  unfold Obligations.FrameOfRegisterCommands
  intro s t rd ra rb rc imm ht
  refine ⟨fun i hi hx => ?_, fun i hi hx => ?_, fun i hi hx => ?_, fun hx => ?_⟩
  · simp only [List.mem_cons, List.not_mem_nil, or_false] at hi
    rcases hi with rfl | rfl | rfl | rfl | rfl | rfl | rfl | rfl | rfl <;>
      exact exec_frame_register_only ht hx rfl rfl rfl
  · simp only [List.mem_cons, List.not_mem_nil, or_false] at hi
    rcases hi with rfl | rfl | rfl | rfl | rfl <;> exact exec_frame_register_only ht hx rfl rfl rfl
  · simp only [List.mem_cons, List.not_mem_nil, or_false] at hi
    rcases hi with rfl | rfl | rfl <;> exact exec_frame_register_only ht hx rfl rfl rfl
  · obtain ⟨hregs, -, hbytes, hrest⟩ := exec_frame_register ht hx rfl rfl
    exact ⟨hregs, hbytes, hrest⟩

/-- Settles O56: each command has its span as its one destination. -/
theorem frameOfStoreCommands : Obligations.FrameOfStoreCommands := by
  unfold Obligations.FrameOfStoreCommands
  intro s t imm ra rb ht
  refine ⟨fun i hi hx => ?_, fun hx => exec_frame_store ht hx rfl rfl rfl, fun hx => exec_frame_store ht hx rfl rfl rfl,
    fun hx => exec_frame_store ht hx rfl rfl rfl⟩
  simp only [List.mem_cons, List.not_mem_nil, or_false] at hi
  rcases hi with rfl | rfl | rfl <;> exact exec_frame_store ht hx rfl rfl rfl

/-- Settles O57: each command has neither a register nor a span as destination. -/
theorem frameOfPredicateCommands : Obligations.FrameOfPredicateCommands := by
  unfold Obligations.FrameOfPredicateCommands
  intro s t ra rb imm ht i hi hx
  simp only [List.mem_cons, List.not_mem_nil, or_false] at hi
  rcases hi with rfl | rfl | rfl | rfl | rfl | rfl | rfl <;>
    exact exec_frame_predicate ht hx nofun rfl rfl

end Sys2Proof.Machine

/-! SUPPORT. Operand memory and the host's port: accesses to memory, a command started and left to complete, a command
abandoned, spans past low memory, and the hash port (spec/20_memory.md R50 to R67). -/

namespace Sys2Proof.Machine

/-! The host's accesses to memory of an engine that runs no command. -/

theorem omHas_eq_true {s : State} {a : Nat} (h : a < 0x1000 + s.params.msgMax) : s.omHas a = true := decide_eq_true h

theorem omHas_eq_false {s : State} {a : Nat} (h : 0x1000 + s.params.msgMax ≤ a) : s.omHas a = false :=
  decide_eq_false (by omega)

/-- A host write inside operand memory is a one-byte store. -/
theorem hostWriteOm_inside {s : State} {a : Nat} (h : a < 0x1000 + s.params.msgMax) (b : Byte) :
    s.hostWriteOm a b = s.writeBytes a [b] := by
  rw [State.hostWriteOm, if_pos (omHas_eq_true h)]; rfl

theorem hostWriteOm_outside {s : State} {a : Nat} (h : 0x1000 + s.params.msgMax ≤ a) (b : Byte) :
    s.hostWriteOm a b = s := by
  rw [State.hostWriteOm, omHas_eq_false h]; rfl

theorem hostReadByte_inside {s : State} {a : Nat} (h : a < 0x1000 + s.params.msgMax) :
    s.hostReadByte a = s.readByte a := if_pos (omHas_eq_true h)

theorem hostReadByte_outside {s : State} {a : Nat} (h : 0x1000 + s.params.msgMax ≤ a) : s.hostReadByte a = 0 := by
  rw [State.hostReadByte, omHas_eq_false h]; rfl

theorem step_writeOm_idle {s : State} (rest : List HostAccess) (a : Nat) (b : Byte) (hr : s.running = none) :
    step { s with host := .writeOm a b :: rest } = .next (State.hostWriteOm { s with host := rest } a b) :=
  step_idle s _ rest hr

theorem step_readOm_idle {s : State} (rest : List HostAccess) (a : Nat) (hr : s.running = none) :
    step { s with host := .readOm a :: rest } =
      .next { s with host := rest, rdata := (s.hostReadByte a).setWidth 32 } :=
  step_idle s _ rest hr

/-- R58: a host access outside operand memory "reads 0 and writes nothing". -/
theorem step_om_outside {s : State} (rest : List HostAccess) {a : Nat} (b : Byte) (hr : s.running = none)
    (ha : 0x1000 + s.params.msgMax ≤ a) :
    step { s with host := .writeOm a b :: rest } = .next { s with host := rest } ∧
      step { s with host := .readOm a :: rest } = .next { s with host := rest, rdata := 0 } := by
  refine ⟨?_, ?_⟩
  · rw [step_writeOm_idle rest a b hr, hostWriteOm_outside (s := { s with host := rest }) ha]
  · rw [step_readOm_idle rest a hr, hostReadByte_outside ha]; rfl

/-- Settles O14: inside the map the write is a one-byte `State.writeBytes`; outside, `step_om_outside`. -/
theorem hostMemoryAccess : Obligations.HostMemoryAccess := by
  unfold Obligations.HostMemoryAccess
  intro s rest a b hr
  refine ⟨fun ha => ⟨⟨State.writeBytes { s with host := rest } a [b], ?_, ?_, fun c hc => ?_, rfl⟩, ?_⟩,
    step_om_outside rest b hr⟩
  · rw [step_writeOm_idle rest a b hr, hostWriteOm_inside (s := { s with host := rest }) ha]
  · exact readByte_writeBytes_inside _ a [b] 0 Nat.zero_lt_one
  · exact readByte_writeBytes_outside _ a [b] c (by rw [List.length_singleton]; omega)
  · rw [step_readOm_idle rest a hr, hostReadByte_inside ha]

/-! A command started and left to complete. -/

theorem step_startCmd_idle {s : State} (rest : List HostAccess) (w : Word) (hr : s.running = none) :
    step { s with host := .startCmd w :: rest } = .next (startCmd { s with host := rest } w) :=
  step_idle s _ rest hr

/-- An access `wait`, like an empty queue, lets the engine complete. -/
theorem step_eq_complete {t : State} {rest : List HostAccess} (h : t.host = .wait :: rest ∨ t.host = [] ∧ rest = []) :
    step t = complete { t with host := rest } := by
  rcases h with h | ⟨h, rfl⟩
  · simp only [step, h, hostAccess, complete]
    cases t.running <;> rfl
  · rw [← host_eta t h]
    simp only [step, h]

section
variable {s : State} {w : Word} {i : Instr} (hf : s.fault = false) (hd : decode w = .ok i)
include hf hd

theorem startCmd_fault {c : FaultCode} (hp : precheck i s = some c) : startCmd s w = s.takeFault c := by
  simp [startCmd, hf, hd, hp]

theorem startCmd_ok (hp : precheck i s = none) : startCmd s w = { s with running := some i } := by
  simp [startCmd, hf, hd, hp]

theorem startCmd_host : (startCmd s w).host = s.host := by
  cases hp : precheck i s with
  | some c => rw [startCmd_fault hf hd hp]; rfl
  | none => rw [startCmd_ok hf hd hp]

/-- BUSY is 1 exactly when the command raised no fault (R233: it would have raised it before any work). -/
theorem startCmd_busy : (startCmd s w).status.getLsbD 0 = !(startCmd s w).fault := by
  obtain ⟨hbusy, -, -⟩ := statusWith_bits (startCmd s w) (startCmd s w).p
  refine hbusy.trans ?_
  cases hp : precheck i s with
  | some c => rw [startCmd_fault hf hd hp]; rfl
  | none => rw [startCmd_ok hf hd hp, hf]; rfl

variable (hr : s.running = none)
include hr

/-- The command completes as the atomic one: its fault was entered at the start, its effect is made at the end. -/
theorem complete_startCmd (rest : List HostAccess) :
    complete { startCmd s w with host := rest } = exec i { s with host := rest } := by
  have hpre : precheck i { s with host := rest } = precheck i s := precheck_congr (by rintro (_ | _ | _) <;> rfl) rfl rfl i
  cases hp : precheck i s with
  | some c => rw [startCmd_fault hf hd hp, exec_fault (hpre.trans hp)]; rfl
  | none =>
    rw [startCmd_ok hf hd hp]
    simp only [complete, finish, ← hr]

/-- The two steps of a started command, whatever way the host lets it complete. -/
theorem step_startCmd_completes {q rest : List HostAccess} (hq : q = .wait :: rest ∨ q = [] ∧ rest = [])
    (hh : s.host = .startCmd w :: q) :
    ∃ t, step s = .next t ∧ t.status.getLsbD 0 = !t.fault ∧ step t = exec i { s with host := rest } := by
  have hstep := step_startCmd_idle q w hr
  have hhost : (startCmd { s with host := q } w).host = q := startCmd_host (s := { s with host := q }) hf hd
  rw [← host_eta s hh] at hstep
  refine ⟨_, hstep, startCmd_busy (s := { s with host := q }) hf hd, ?_⟩
  rw [step_eq_complete (rest := rest) (by rwa [hhost])]
  exact complete_startCmd (s := { s with host := q }) hf hd hr rest

end

/-- Settles O6: `step_startCmd_completes`, once with the access `wait` next in the queue and once with an empty queue. -/
theorem startedCommandCompletesAsIfAtomic : Obligations.StartedCommandCompletesAsIfAtomic := by
  unfold Obligations.StartedCommandCompletesAsIfAtomic
  exact ⟨fun _ _ _ rest hr hf hd hh => step_startCmd_completes hf hd hr (.inl rfl) hh,
    fun _ _ _ hr hf hd hh => step_startCmd_completes hf hd hr (.inr ⟨rfl, rfl⟩) hh⟩

/-! A command abandoned by a host write (R61, R236). -/

/-- The writes of R61 that a host must not make while BUSY = 1: CMD, a length CSR, an existing byte of memory. -/
theorem step_guardedWrite_busy {s : State} {i : Instr} {a : HostAccess} (rest : List HostAccess)
    (hr : s.running = some i)
    (ha : (∃ v, a = .writeCsr 0 v) ∨ (∃ w, a = .startCmd w) ∨ (∃ v, a = .writeCsr 2 v) ∨ (∃ v, a = .writeCsr 3 v) ∨
      (∃ v, a = .writeCsr 4 v) ∨ ∃ c b, a = .writeOm c b ∧ c < 0x1000 + s.params.msgMax) :
    step { s with host := a :: rest } = .next (State.abandon { s with host := rest } i) := by
  rw [step_busy s a i rest hr]
  rcases ha with ⟨v, rfl⟩ | ⟨w, rfl⟩ | ⟨v, rfl⟩ | ⟨v, rfl⟩ | ⟨v, rfl⟩ | ⟨c, b, rfl, hc⟩
  · rfl
  · rfl
  · rfl
  · rfl
  · rfl
  · rw [busyAccess, if_pos (omHas_eq_true (s := { s with host := rest }) hc)]

/-- Settles O15: the step is `State.abandon`, which leaves everything but the command's destinations (`abandon_rest`,
`abandon_regs`, `abandon_p`, `abandon_bytes`). -/
theorem busyWriteAbandonsTheCommand : Obligations.BusyWriteAbandonsTheCommand := by
  unfold Obligations.BusyWriteAbandonsTheCommand
  intro s i a rest hr ha
  obtain ⟨hfault, hcode, hrun, hpk, hsig, hmsg, hparams, hhost, -, -⟩ := abandon_rest { s with host := rest } i
  exact ⟨_, step_guardedWrite_busy rest hr ha, hfault, hcode, hrun, hpk, hsig, hmsg, hparams, hhost,
    abandon_regs { s with host := rest } i, abandon_p { s with host := rest } i, abandon_bytes { s with host := rest } i⟩

/-! Spans past low memory (R58). -/

theorem spanOk_eq_false {a n : Nat} (h : 0x1000 < a + n) : spanOk (some (a, n)) = false :=
  decide_eq_false (by omega)

/-- R58, after the checks of R83 that come before it: legal operands, written sources. -/
theorem exec_addr_fault {s : State} {i : Instr} {a n : Nat} (hw : i.wellFormed = true)
    (hv : ∀ r ∈ i.sources, s.isValid r = true) (hs : i.readSpan = some (a, n) ∨ i.writeSpan = some (a, n))
    (hn : 0x1000 < a + n) : exec i s = .next (s.faulted 0x03) := by
  have hspan : (spanOk i.readSpan && spanOk i.writeSpan) = false := by
    rcases hs with hs | hs <;> rw [hs, spanOk_eq_false hn]
    · exact Bool.false_and _
    · exact Bool.and_false _
  have hp : precheck i s = some .addr := by
    simp only [precheck, hw, List.all_eq_true.2 hv, hspan, Bool.not_true, Bool.false_eq_true, if_false, Bool.not_false,
      if_true]
  exact exec_fault hp

/-- R58, R212: VERIFY's read of the message is out of range. -/
theorem precheck_verify_of_long {s : State} (h : s.params.msgMax < s.msgLen.toNat) :
    precheck .verify s = some .len := by
  rw [precheck_verify, if_neg (by omega)]

theorem exec_verify_of_long {s : State} (h : s.params.msgMax < s.msgLen.toNat) :
    exec .verify s = .next (s.faulted 0x05) :=
  exec_fault (precheck_verify_of_long h)

/-- Settles O18: `exec_addr_fault` for each command with a span, `precheck_verify` for VERIFY, `step_om_outside` for the
host. -/
theorem spanPastLowMemoryFaults : Obligations.SpanPastLowMemoryFaults := by
  unfold Obligations.SpanPastLowMemoryFaults
  refine ⟨fun s rd ra imm hrd hra himm h32 => ?_, fun s rd ra rb imm hrd hra hrb himm => ?_,
    fun s => ⟨exec_verify_of_long, fun h => ⟨_, exec_verify_of_fits h, rfl⟩⟩,
    fun s rest a b hr ha => (step_om_outside rest b hr (by omega)).symm⟩
  · have hd : feIdxOk rd = true := decide_eq_true hrd
    have ha : feIdxOk ra = true := decide_eq_true hra
    have hi : immOk imm = true := decide_eq_true himm
    exact ⟨exec_addr_fault (Bool.and_eq_true_iff.2 ⟨hd, hi⟩) (List.forall_mem_nil _) (.inl rfl) h32, fun va =>
      exec_addr_fault (Bool.and_eq_true_iff.2 ⟨hi, ha⟩) (List.forall_mem_singleton.2 va) (.inr rfl) h32⟩
  · have hd : scIdxOk rd = true := decide_eq_true hrd
    have ha : scIdxOk ra = true := decide_eq_true hra
    have hb : scIdxOk rb = true := decide_eq_true hrb
    have hi : immOk imm = true := decide_eq_true himm
    have hdi : (scIdxOk rd && immOk imm) = true := Bool.and_eq_true_iff.2 ⟨hd, hi⟩
    have hia : (immOk imm && scIdxOk ra) = true := Bool.and_eq_true_iff.2 ⟨hi, ha⟩
    refine ⟨fun h32 => ⟨?_, ?_, ?_, fun va => ?_, fun va => ?_⟩, fun h64 => ?_, fun h85 va => ?_, fun h51 va => ?_,
      fun h127 va vb => ?_⟩
    · exact exec_addr_fault hdi (List.forall_mem_nil _) (.inl rfl) h32
    · exact exec_addr_fault hi (List.forall_mem_nil _) (.inl rfl) h32
    · exact exec_addr_fault hdi (List.forall_mem_nil _) (.inl rfl) h32
    · exact exec_addr_fault hia (List.forall_mem_singleton.2 va) (.inr rfl) h32
    · exact exec_addr_fault hia (List.forall_mem_singleton.2 va) (.inr rfl) h32
    · exact exec_addr_fault hdi (List.forall_mem_nil _) (.inl rfl) h64
    · exact exec_addr_fault hia (List.forall_mem_singleton.2 va) (.inr rfl) h85
    · exact exec_addr_fault hia (List.forall_mem_singleton.2 va) (.inr rfl) h51
    · exact exec_addr_fault (Bool.and_eq_true_iff.2 ⟨hia, hb⟩)
        (List.forall_mem_cons.2 ⟨va, List.forall_mem_singleton.2 vb⟩) (.inr rfl) h127

/-! The hash port (R64 to R67). -/

theorem verify_drop (s : State) : (s.readBytes 0x020 64).drop 32 = s.readBytes 0x040 32 := readBytes_drop s 0x020 32 64

/-- R214: the top three bits of S's last byte, signature byte 63 at 0x05F. -/
theorem topBitsSet_readBytes (s : State) : topBitsSet (s.readBytes 0x020 64) = (s.readByte 0x05F &&& 0xE0 != 0) := by
  rw [topBitsSet, List.getD_eq_getElem?_getD, getElem?_readBytes s 0x020 64 63 (by decide)]; rfl

theorem scLessorder_readBytes (s : State) (a : Nat) :
    scLessorder (s.readBytes a 32) = true ↔ leVal (s.readBytes a 32) < groupOrder :=
  scLessorder_iff (readBytes_length s a 32)

/-- R216: decompression fails on 32 bytes that encode no point. -/
theorem decompress_eq_none {bs : List Byte} (hl : bs.length = 32) (h : ∀ A, ¬DecodesTo bs A) :
    geDecompressNegate bs = none := by
  cases hg : geDecompressNegate bs with
  | none => rfl
  | some g =>
    obtain ⟨A, hA, -⟩ := (decompress_spec hl).1 g hg
    exact absurd hA (h A)

theorem verifyRun_of_lengths {s : State} (h : s.pkLen ≠ 32 ∨ s.sigLen ≠ 64) : s.verifyRun = ⟨false, 1, none⟩ :=
  verifySteps_len h

/-- R214: a scalar below L has none of its top three bits set. -/
theorem topBitsSet_of_lt {s : State} (h : leVal (s.readBytes 0x040 32) < groupOrder) :
    topBitsSet (s.readBytes 0x020 64) = false :=
  topBits_of_lt (readBytes_length s 0x020 64) (by rwa [verify_drop])

section
variable {s : State} (hpk : s.pkLen = 32) (hsig : s.sigLen = 64)
include hpk hsig

theorem verifyRun_of_topBits (h : s.readByte 0x05F &&& 0xE0 ≠ 0) : s.verifyRun = ⟨false, 2, none⟩ :=
  verifySteps_top hpk hsig (by rw [topBitsSet_readBytes]; exact bne_iff_ne.2 h)

theorem verifyRun_of_order (ht : s.readByte 0x05F &&& 0xE0 = 0) (h : groupOrder ≤ leVal (s.readBytes 0x040 32)) :
    s.verifyRun = ⟨false, 3, none⟩ := by
  refine verifySteps_order hpk hsig ?_ ?_
  · rw [topBitsSet_readBytes, ht]; rfl
  · rw [verify_drop, ← Bool.not_eq_true, scLessorder_readBytes]; omega

variable (hlt : leVal (s.readBytes 0x040 32) < groupOrder)
include hlt

theorem verifyRun_of_no_point (h : ∀ A, ¬DecodesTo (s.readBytes 0x000 32) A) : s.verifyRun = ⟨false, 4, none⟩ :=
  verifySteps_point hpk hsig (topBitsSet_of_lt hlt) (by rw [verify_drop]; exact (scLessorder_readBytes s _).2 hlt)
    (decompress_eq_none (readBytes_length s _ _) h)

/-- R217: past step 4 the run hashes R ‖ PK ‖ MSG and ends at step 7. -/
theorem verifyRun_of_point {A : ZMod fieldP × ZMod fieldP} (hA : DecodesTo (s.readBytes 0x000 32) A) :
    s.verifyRun.step = 7 ∧ s.verifyRun.hashed =
      some (s.readBytes 0x020 32 ++ s.readBytes 0x000 32 ++ s.readBytes 0x1000 s.msgLen.toNat) := by
  obtain ⟨g, hg, -⟩ := decompress_some_iff (readBytes_length s _ _) hA
  have hrun := verifySteps_equation (h := s.params.hash) (msg := s.readBytes 0x1000 s.msgLen.toNat) hpk hsig
    (topBitsSet_of_lt hlt) (by rw [verify_drop]; exact (scLessorder_readBytes s _).2 hlt) hg
  rw [← verify_hashInput, State.verifyRun, hrun]
  exact ⟨rfl, rfl⟩

end

/-! The parameters, and with them the table of hash values: no read but VERIFY's looks at them (R66). -/

section
variable (s : State) (q : Params)

theorem fe_withParams (i : Nat) : State.fe { s with params := q } i = s.fe i := rfl

theorem sc_withParams (i : Nat) : State.sc { s with params := q } i = s.sc i := rfl

theorem ge_withParams (i : Nat) : State.ge { s with params := q } i = s.ge i := rfl

theorem readBytes_withParams (a n : Nat) : State.readBytes { s with params := q } a n = s.readBytes a n :=
  readBytes_congr fun _ _ _ => rfl

theorem writeF_withParams (i : Nat) (v : Fe) :
    State.writeF { s with params := q } i v = { s.writeF i v with params := q } := rfl

theorem writeS_withParams (i : Nat) (v : Sc) :
    State.writeS { s with params := q } i v = { s.writeS i v with params := q } := rfl

theorem writeG_withParams (i : Nat) (v : Ge) :
    State.writeG { s with params := q } i v = { s.writeG i v with params := q } := rfl

theorem writeBytes_withParams (a : Nat) (bs : List Byte) :
    State.writeBytes { s with params := q } a bs = { s.writeBytes a bs with params := q } := rfl

theorem setP_withParams (b : Bool) : State.setP { s with params := q } b = { s.setP b with params := q } := rfl

theorem decompneg_withParams (rd : Nat) (o : Option Ge) :
    State.decompneg { s with params := q } rd o = { s.decompneg rd o with params := q } := by
  cases o <;> rfl

/-- The effect of every command but VERIFY is the same whatever the parameters. -/
theorem effect_withParams {i : Instr} (h : i ≠ .verify) :
    effect i { s with params := q } = { effect i s with params := q } := by
  cases i with
  | feUnpack | feAdd | feSub | feMul | feSquare | feInvert | fePow2523 | feFreeze | feCmov =>
    simp only [effect, readBytes_withParams, fe_withParams, writeF_withParams]
  | scFrom32 | scFrom64 | scAdd | scSubnr | scMul =>
    simp only [effect, readBytes_withParams, sc_withParams, writeS_withParams]
  | geAdd | geDbl | geDsmul => simp only [effect, ge_withParams, sc_withParams, writeG_withParams]
  | fePack | scTo32 | scWindow3 | scWindow5 | scInterleave2 | gePack =>
    simp only [effect, fe_withParams, sc_withParams, ge_withParams, writeBytes_withParams]
  | feIszero | feIseq | feGetparity | scLt | scIszero | scIsshort | scLessorder =>
    simp only [effect, readBytes_withParams, fe_withParams, sc_withParams, setP_withParams]
  | geDecompneg => simp only [effect, readBytes_withParams, decompneg_withParams]
  | verify => exact absurd rfl h

end

theorem precheck_withTable (s : State) (tab : List (List Byte × Digest)) (i : Instr) :
    precheck i { s with params := ⟨s.params.msgMax, tab⟩ } = precheck i s :=
  precheck_congr (by rintro (_ | _ | _) <;> rfl) rfl rfl i

theorem exec_withTable {s t : State} {i : Instr} (tab : List (List Byte × Digest)) (h : i ≠ .verify)
    (hx : exec i s = .next t) :
    exec i { s with params := ⟨s.params.msgMax, tab⟩ } = .next { t with params := ⟨s.params.msgMax, tab⟩ } := by
  have hpre := precheck_withTable s tab i
  rcases exec_cases i s with ⟨c, hp, he⟩ | ⟨hp, he⟩ <;> rw [he] at hx <;> cases hx
  · exact exec_fault (hpre.trans hp)
  · rw [exec_ok (hpre.trans hp), effect_withParams s _ h]

/-- Settles O51: the run by the step that ends it (`verifyRun_of_lengths` and after), the transaction that of the run
(`hashRequest_verify`); every other command is `hashRequest_other` and `exec_withTable`. -/
theorem verifyStepsAndHashUse : Obligations.VerifyStepsAndHashUse := by
  unfold Obligations.VerifyStepsAndHashUse
  refine ⟨fun s hfits => ?_, fun s hlong => ⟨exec_verify_of_long hlong, hashRequest_fault (precheck_verify_of_long hlong)⟩,
    fun s i => hashRequest_other s, fun s t i tab => exec_withTable tab⟩
  have unhashed {k : Nat} (h : s.verifyRun = ⟨false, k, none⟩) :
      s.verifyRun = ⟨false, k, none⟩ ∧ s.hashRequest .verify = none := ⟨h, by rw [hashRequest_verify hfits, h]⟩
  refine ⟨fun h => unhashed (verifyRun_of_lengths h), fun hpk hsig h => unhashed (verifyRun_of_topBits hpk hsig h),
    fun hpk hsig ht h => unhashed (verifyRun_of_order hpk hsig ht h),
    fun hpk hsig hlt h => unhashed (verifyRun_of_no_point hpk hsig hlt h), ?_, ?_, exec_verify_of_fits hfits⟩
  · rintro hpk hsig hlt ⟨A, hA⟩
    rw [hashRequest_verify hfits]
    exact verifyRun_of_point hpk hsig hlt hA
  · simp only [List.length_append, readBytes_length]

end Sys2Proof.Machine

/-! SUPPORT. The decoder and the encoder: each command as its fields, both round trips, and the opcode map as tests of
single fields (spec/30_encoding.md R76 to R85). -/

namespace Sys2Proof

/-! A command as its fields. -/

/-- The fields of a command's word (R76), every field its format (R77) does not use being 0. -/
def Instr.fields : Instr → Fields
  | .feUnpack rd imm => ⟨0x10, rd, 0, 0, imm⟩
  | .fePack imm ra => ⟨0x11, 0, ra, 0, imm⟩
  | .feAdd rd ra rb => ⟨0x12, rd, ra, rb, 0⟩
  | .feSub rd ra rb => ⟨0x13, rd, ra, rb, 0⟩
  | .feMul rd ra rb => ⟨0x14, rd, ra, rb, 0⟩
  | .feSquare rd ra => ⟨0x15, rd, ra, 0, 0⟩
  | .feInvert rd ra => ⟨0x16, rd, ra, 0, 0⟩
  | .fePow2523 rd ra => ⟨0x17, rd, ra, 0, 0⟩
  | .feFreeze rd ra => ⟨0x18, rd, ra, 0, 0⟩
  | .feIszero ra => ⟨0x19, 0, ra, 0, 0⟩
  | .feIseq ra rb => ⟨0x1A, 0, ra, rb, 0⟩
  | .feGetparity ra => ⟨0x1B, 0, ra, 0, 0⟩
  | .feCmov rd ra => ⟨0x1C, rd, ra, 0, 0⟩
  | .scFrom32 rd imm => ⟨0x20, rd, 0, 0, imm⟩
  | .scFrom64 rd imm => ⟨0x21, rd, 0, 0, imm⟩
  | .scTo32 imm ra => ⟨0x22, 0, ra, 0, imm⟩
  | .scAdd rd ra rb => ⟨0x23, rd, ra, rb, 0⟩
  | .scSubnr rd ra rb => ⟨0x24, rd, ra, rb, 0⟩
  | .scMul rd ra rb => ⟨0x25, rd, ra, rb, 0⟩
  | .scLt ra rb => ⟨0x26, 0, ra, rb, 0⟩
  | .scIszero ra => ⟨0x27, 0, ra, 0, 0⟩
  | .scIsshort ra => ⟨0x28, 0, ra, 0, 0⟩
  | .scLessorder imm => ⟨0x29, 0, 0, 0, imm⟩
  | .scWindow3 imm ra => ⟨0x2A, 0, ra, 0, imm⟩
  | .scWindow5 imm ra => ⟨0x2B, 0, ra, 0, imm⟩
  | .scInterleave2 imm ra rb => ⟨0x2C, 0, ra, rb, imm⟩
  | .geDecompneg rd imm => ⟨0x30, rd, 0, 0, imm⟩
  | .gePack imm ra => ⟨0x31, 0, ra, 0, imm⟩
  | .geAdd rd ra rb => ⟨0x32, rd, ra, rb, 0⟩
  | .geDbl rd ra => ⟨0x33, rd, ra, 0, 0⟩
  | .geDsmul rd ra rb rc => ⟨0x34, rd, ra, rb, rc⟩
  | .verify => ⟨0x40, 0, 0, 0, 0⟩

/-- The word of given fields, R85. -/
def Fields.word (f : Fields) : Word := wordOf f.op f.rd f.ra f.rb f.imm

theorem encode_eq_word (i : Instr) : encode i = i.fields.word := by cases i <;> rfl

/-- An operand in the range of R78 and R79 fits the field of its format. -/
theorem fields_fit {i : Instr} (h : i.wellFormed = true) : i.fields.Fit := by
  cases i <;>
    simp only [Instr.wellFormed, feIdxOk, scIdxOk, geIdxOk, immOk, Bool.and_eq_true, decide_eq_true_eq] at h <;>
    constructor <;> simp only [Instr.fields] <;> omega

/-- R85: decoding the fields of a well-formed command passes the checks of its format. -/
theorem decodeFields_fields {i : Instr} (h : i.wellFormed = true) : decodeFields i.fields = .ok i := by
  cases i <;> simp only [Instr.wellFormed, Bool.and_eq_true] at h <;> simp [Instr.fields, decodeFields, h]

theorem legal_eq_ok_iff {ok : Bool} {i j : Instr} {e : Reject} :
    (if ok = true then Except.ok i else Except.error e) = Except.ok j ↔ ok = true ∧ i = j := by
  cases ok <;> simp

/-- R85: fields that pass the checks of a format are those of the command read from them. -/
theorem decodeFields_ok {f : Fields} {i : Instr} (hf : f.Fit) (h : decodeFields f = .ok i) :
    i.wellFormed = true ∧ i.fields = f := by
  obtain ⟨op, rd, ra, rb, imm⟩ := f
  obtain ⟨-, hrd, hra, hrb, himm⟩ := hf
  unfold decodeFields at h
  simp only at h hrd hra hrb himm
  split at h
  case h_33 => cases h
  all_goals
    obtain ⟨hok, rfl⟩ := legal_eq_ok_iff.1 h
    simp only [Bool.and_eq_true, beq_iff_eq] at hok
    simp_all [Instr.wellFormed, Instr.fields, feIdxOk, immOk]

theorem decode_encode {i : Instr} (h : i.wellFormed = true) : decode (encode i) = .ok i := by
  have hfields : fieldsOf i.fields.word = i.fields := fieldsOf_wordOf (fields_fit h)
  rw [encode_eq_word, decode, hfields, decodeFields_fields h]

theorem encode_decode {w : Word} {i : Instr} (h : decode w = .ok i) : i.wellFormed = true ∧ encode i = w := by
  obtain ⟨hwf, hfields⟩ := decodeFields_ok (fieldsOf_fit w) h
  refine ⟨hwf, ?_⟩
  rw [encode_eq_word, hfields]
  exact wordOf_fieldsOf w

/-! Fields as bit ranges. -/

/-- R76: the fields are the bit ranges of the word. -/
theorem fieldsOf_eq_extractLsb (w : Word) :
    fieldsOf w = ⟨(w.extractLsb 31 24).toNat, (w.extractLsb 23 20).toNat, (w.extractLsb 19 16).toNat,
      (w.extractLsb 15 12).toNat, (w.extractLsb 11 0).toNat⟩ := by
  have hw := w.isLt
  simp only [fieldsOf, BitVec.extractLsb_toNat, Nat.shiftRight_eq_div_pow, Nat.reduceSub, Nat.reduceAdd, Fields.mk.injEq,
    true_and]
  omega

/-- A number that fits the low bits a multiple of 2^k leaves free is added by a bitwise or. -/
theorem or_eq_add_of_dvd {k a b : Nat} (ha : 2 ^ k ∣ a) (hb : b < 2 ^ k) : a ||| b = a + b := by
  obtain ⟨c, rfl⟩ := ha
  exact (Nat.two_pow_add_eq_or_of_lt hb c).symm

/-- A field shifted to its place. -/
theorem toNat_shiftLeft_field {n k x : Nat} (h : x * 2 ^ k < 2 ^ n) : (BitVec.ofNat n x <<< k).toNat = x * 2 ^ k := by
  have hx : x < 2 ^ n := lt_of_le_of_lt (Nat.le_mul_of_pos_right x (Nat.two_pow_pos k)) h
  rw [BitVec.toNat_shiftLeft, BitVec.toNat_ofNat, Nat.mod_eq_of_lt hx, Nat.shiftLeft_eq, Nat.mod_eq_of_lt h]

/-- R85: the fields are shifted to their disjoint places and joined. -/
theorem wordOf_eq_shift_or {op rd ra rb imm : Nat} (hop : op < 256) (hrd : rd < 16) (hra : ra < 16) (hrb : rb < 16)
    (himm : imm < 4096) :
    wordOf op rd ra rb imm = ((BitVec.ofNat 32 op <<< 24) ||| (BitVec.ofNat 32 rd <<< 20) |||
      (BitVec.ofNat 32 ra <<< 16) ||| (BitVec.ofNat 32 rb <<< 12) ||| BitVec.ofNat 32 imm) := by
  apply BitVec.eq_of_toNat_eq
  simp only [BitVec.toNat_or]
  rw [toNat_shiftLeft_field (by omega), toNat_shiftLeft_field (by omega), toNat_shiftLeft_field (by omega),
    toNat_shiftLeft_field (by omega), BitVec.toNat_ofNat,
    Nat.mod_eq_of_lt (by omega : imm < 2 ^ 32), or_eq_add_of_dvd (b := rd * 2 ^ 20) (k := 24) (by omega) (by omega),
    or_eq_add_of_dvd (b := ra * 2 ^ 16) (k := 20) (by omega) (by omega),
    or_eq_add_of_dvd (b := rb * 2 ^ 12) (k := 16) (by omega) (by omega),
    or_eq_add_of_dvd (b := imm) (k := 12) (by omega) (by omega), wordOf, BitVec.toNat_ofNat, Nat.mod_eq_of_lt (by omega)]

/-! The opcode map. -/

open Laws.EncodeMatchesRow in
/-- R80, for every command: the family of lemmas by constructor. -/
theorem encode_matches_row (i : Instr) : Statement i := by
  cases i
  exacts [feUnpack _ _, fePack _ _, feAdd _ _ _, feSub _ _ _, feMul _ _ _, feSquare _ _, feInvert _ _, fePow2523 _ _,
    feFreeze _ _, feIszero _, feIseq _ _, feGetparity _, feCmov _ _, scFrom32 _ _, scFrom64 _ _, scTo32 _ _,
    scAdd _ _ _, scSubnr _ _ _, scMul _ _ _, scLt _ _, scIszero _, scIsshort _, scLessorder _, scWindow3 _ _,
    scWindow5 _ _, scInterleave2 _ _ _, geDecompneg _ _, gePack _ _, geAdd _ _ _, geDbl _ _, geDsmul _ _ _ _, verify]

/-- A legal word matches the row of its command, which is one of the map. -/
theorem row_of_decode {w : Word} {i : Instr} (h : decode w = .ok i) :
    i.row ∈ opcodeMap ∧ w &&& i.row.mask = i.row.mtch := by
  obtain ⟨hwf, rfl⟩ := encode_decode h
  obtain ⟨hmem, hacc⟩ := encode_matches_row i hwf
  exact ⟨hmem, beq_iff_eq.1 hacc⟩

/-- A word matches a row exactly when its fields match those of the mask and the match value. -/
theorem matches_iff_fields (w : Word) (r : OpcodeRow) : w &&& r.mask = r.mtch ↔
    (fieldsOf w).op &&& (fieldsOf r.mask).op = (fieldsOf r.mtch).op ∧
      (fieldsOf w).rd &&& (fieldsOf r.mask).rd = (fieldsOf r.mtch).rd ∧
      (fieldsOf w).ra &&& (fieldsOf r.mask).ra = (fieldsOf r.mtch).ra ∧
      (fieldsOf w).rb &&& (fieldsOf r.mask).rb = (fieldsOf r.mtch).rb ∧
      (fieldsOf w).imm &&& (fieldsOf r.mask).imm = (fieldsOf r.mtch).imm := by
  have h := accepts_iff (fieldsOf_fit w) (fieldsOf_fit r.mask) (fieldsOf_fit r.mtch)
  rwa [wordOf_fieldsOf, wordOf_fieldsOf, wordOf_fieldsOf] at h

/-- Every mask covers the whole of `op`. -/
theorem mask_op : ∀ r ∈ opcodeMap, (fieldsOf r.mask).op = 0xFF := by decide

/-- "`op` differs in each" row (R80). -/
theorem row_eq_of_op_eq :
    ∀ r ∈ opcodeMap, ∀ r' ∈ opcodeMap, (fieldsOf r.mtch).op = (fieldsOf r'.mtch).op → r = r' := by
  decide

/-- A word that matches a row has the row's `op`. -/
theorem op_of_matches {w : Word} {r : OpcodeRow} (hr : r ∈ opcodeMap) (h : w &&& r.mask = r.mtch) :
    (fieldsOf w).op = (fieldsOf r.mtch).op := by
  obtain ⟨hop, -⟩ := (matches_iff_fields w r).1 h
  rwa [mask_op r hr, land_full8 (fieldsOf_fit w).op] at hop

/-- R80: "the rows are mutually exclusive". -/
theorem row_unique {w : Word} {r r' : OpcodeRow} (hr : r ∈ opcodeMap) (hr' : r' ∈ opcodeMap)
    (h : w &&& r.mask = r.mtch) (h' : w &&& r'.mask = r'.mtch) : r = r' :=
  row_eq_of_op_eq r hr r' hr' ((op_of_matches hr h).symm.trans (op_of_matches hr' h'))

/-- A word that matches a row of the map passes the checks of the row's format: on each field the mask tests that it is
0 (R77), that it is below 4 (R78), or nothing. -/
theorem decode_of_matches {w : Word} {r : OpcodeRow} (hr : r ∈ opcodeMap) (h : w &&& r.mask = r.mtch) :
    ∃ i, decode w = .ok i ∧ i.row = r := by
  have hf := fieldsOf_fit w
  rw [matches_iff_fields] at h
  unfold decode
  generalize fieldsOf w = f at *
  obtain ⟨op, rd, ra, rb, imm⟩ := f
  obtain ⟨hop, hrd, hra, hrb, himm⟩ := hf
  simp only at hop hrd hra hrb himm
  simp only [opcodeMap, List.mem_cons, List.not_mem_nil, or_false] at hr
  rcases hr with rfl | rfl | rfl | rfl | rfl | rfl | rfl | rfl | rfl | rfl | rfl | rfl | rfl | rfl | rfl | rfl | rfl | rfl |
      rfl | rfl | rfl | rfl | rfl | rfl | rfl | rfl | rfl | rfl | rfl | rfl | rfl | rfl
  all_goals
    simp [fieldsOf, land_full8 hop, land_full4 hrd, land_full4 hra, land_full4 hrb, land_full12 himm, land_idx hrd,
      land_idx hra, land_idx hrb, land_rc himm] at h
    simp [decodeFields, h, scIdxOk, geIdxOk, Instr.row]

/-- Settles O2: `wordOf_eq_shift_or` and `fieldsOf_eq_extractLsb` for the formula, `decode_encode` and `encode_decode` for
the round trips. -/
theorem encodeAndDecodeAreInverse : Obligations.EncodeAndDecodeAreInverse := by
  unfold Obligations.EncodeAndDecodeAreInverse
  exact ⟨fun _ _ _ _ _ => wordOf_eq_shift_or, fieldsOf_eq_extractLsb, fun _ => decode_encode, fun _ _ => encode_decode⟩

/-- Settles O3: `row_of_decode` and `decode_of_matches` for the rows, `row_unique` for their exclusion. -/
theorem decodeAcceptsExactlyTheOpcodeMap : Obligations.DecodeAcceptsExactlyTheOpcodeMap := by
  unfold Obligations.DecodeAcceptsExactlyTheOpcodeMap
  refine ⟨fun w r hr => ⟨?_, decode_of_matches hr⟩, fun w i hi => ?_, fun w r r' => row_unique⟩
  · rintro ⟨i, hi, rfl⟩
    obtain ⟨-, hmatch⟩ := row_of_decode hi
    exact hmatch
  · obtain ⟨hmem, -⟩ := row_of_decode hi
    exact hmem

/-- Settles O1: the six words are closed terms. -/
theorem specWordsDecode : Obligations.SpecWordsDecode := by
  unfold Obligations.SpecWordsDecode
  decide

/-! Words that match no row. -/

theorem decode_error_of_no_match {w : Word} (h : ∀ r ∈ opcodeMap, w &&& r.mask ≠ r.mtch) :
    ∃ e, decode w = .error e := by
  cases hd : decode w with
  | error e => exact ⟨e, rfl⟩
  | ok i =>
    obtain ⟨hmem, hmatch⟩ := row_of_decode hd
    exact absurd hmatch (h i.row hmem)

theorem op_eq_extractLsb (w : Word) : (fieldsOf w).op = (w.extractLsb 31 24).toNat := by rw [fieldsOf_eq_extractLsb]

/-- R80: the values of `op` in the map. -/
theorem mtch_op_defined : ∀ r ∈ opcodeMap, ¬((r.mtch.extractLsb 31 24).toNat ≤ 0x0F ∨
    (0x1D ≤ (r.mtch.extractLsb 31 24).toNat ∧ (r.mtch.extractLsb 31 24).toNat ≤ 0x1F) ∨
    (0x2D ≤ (r.mtch.extractLsb 31 24).toNat ∧ (r.mtch.extractLsb 31 24).toNat ≤ 0x2F) ∨
    (0x35 ≤ (r.mtch.extractLsb 31 24).toNat ∧ (r.mtch.extractLsb 31 24).toNat ≤ 0x3F) ∨
    0x41 ≤ (r.mtch.extractLsb 31 24).toNat) := by
  decide

/-- R81: a bit that the mask covers and the match value leaves 0 is 0 in a word that matches. -/
theorem reserved_bits_zero {w : Word} {r : OpcodeRow} (h : w &&& r.mask = r.mtch) :
    w &&& (r.mask &&& ~~~r.mtch) &&& 0x00FFFFFF = 0 := by
  rw [← BitVec.and_assoc w, h, BitVec.and_not_self]
  exact BitVec.zero_and

end Sys2Proof

namespace Sys2Proof.Machine

/-- R82: a word that encodes no command, from a host that waits for BUSY = 0. -/
theorem runCmd_of_error {s : State} {w : Word} {e : Reject} (hf : s.fault = false) (hd : decode w = .error e) :
    runCmd s w = .next (s.faulted 0x01) := by
  rw [runCmd, hf, hd]; rfl

/-- R82: the same word from a host that does not wait. -/
theorem startCmd_of_error {s : State} {w : Word} {e : Reject} (hf : s.fault = false) (hd : decode w = .error e) :
    startCmd s w = s.faulted 0x01 := by
  rw [startCmd, hf, hd]; rfl

/-- Settles O4: the two steps are `runCmd_of_error` and `startCmd_of_error`; a matching word has a defined `op`
(`op_of_matches`, `mtch_op_defined`) and no reserved bit (`reserved_bits_zero`). -/
theorem everyOtherWordIsIllegal : Obligations.EveryOtherWordIsIllegal := by
  unfold Obligations.EveryOtherWordIsIllegal
  refine ⟨fun s w rest hr hf hw => ?_, fun w hop r hr h => ?_, by decide, fun w r hr hop hres r' hr' h' => ?_⟩
  · obtain ⟨e, hd⟩ := decode_error_of_no_match hw
    exact ⟨(step_idle s _ rest hr).trans (runCmd_of_error (s := { s with host := rest }) hf hd),
      (step_startCmd_idle rest w hr).trans (congrArg _ (startCmd_of_error (s := { s with host := rest }) hf hd))⟩
  · have hsame := op_of_matches hr h
    rw [op_eq_extractLsb, op_eq_extractLsb] at hsame
    rw [hsame] at hop
    exact mtch_op_defined r hr hop
  · have hrow : r = r' := by
      refine row_eq_of_op_eq r hr r' hr' (Eq.trans ?_ (op_of_matches hr' h'))
      rw [op_eq_extractLsb, op_eq_extractLsb, hop]
    exact hres (reserved_bits_zero (hrow ▸ h'))

/-! Every step answers a next state. -/

theorem runCmd_next (s : State) (w : Word) : ∃ t, runCmd s w = .next t ∧ t.params = s.params := by
  cases hf : s.fault with
  | true => exact ⟨s, by rw [runCmd, hf]; rfl, rfl⟩
  | false =>
    cases hd : decode w with
    | error e => exact ⟨_, runCmd_of_error hf hd, rfl⟩
    | ok i =>
      obtain ⟨t, hx, hparams, -, -⟩ := exec_next i s
      exact ⟨t, (runCmd_of_decode hf hd).trans hx, hparams⟩

theorem startCmd_params (s : State) (w : Word) : (startCmd s w).params = s.params := by
  cases hf : s.fault with
  | true => rw [startCmd, hf]; rfl
  | false =>
    rcases startCmd_cases s w hf with ⟨c, -, h⟩ | ⟨i, -, -, h⟩
    · rw [h]; rfl
    · rw [h]

theorem writeLenCsr_params (s : State) (n : Nat) (v : Word) : (s.writeLenCsr n v).params = s.params := by
  unfold State.writeLenCsr; split <;> rfl

theorem hostWriteOm_params (s : State) (a : Nat) (b : Byte) : (s.hostWriteOm a b).params = s.params := by
  unfold State.hostWriteOm; split <;> rfl

theorem idleAccess_next (a : HostAccess) (s : State) : ∃ t, idleAccess a s = .next t ∧ t.params = s.params := by
  cases a with
  | writeCsr n v =>
    by_cases hn : n = 0
    · obtain ⟨t, hx, hparams⟩ := runCmd_next s v
      exact ⟨t, by rw [idleAccess, if_pos hn, hx], hparams⟩
    · exact ⟨_, by rw [idleAccess, if_neg hn], writeLenCsr_params s n v⟩
  | startCmd w => exact ⟨_, rfl, startCmd_params s w⟩
  | readCsr n => exact ⟨_, rfl, rfl⟩
  | writeOm a b => exact ⟨_, rfl, hostWriteOm_params s a b⟩
  | readOm a => exact ⟨_, rfl, rfl⟩
  | wait => exact ⟨_, rfl, rfl⟩
  | reset => exact ⟨_, rfl, rfl⟩

theorem abandon_params (s : State) (i : Instr) : (s.abandon i).params = s.params := by
  obtain ⟨-, -, -, -, -, -, hparams, -, -, -⟩ := abandon_rest s i
  exact hparams

theorem busyAccess_next (i : Instr) (a : HostAccess) (s : State) :
    ∃ t, busyAccess i a s = .next t ∧ t.params = s.params := by
  have abandonIf (b : Bool) : (if b then s.abandon i else s).params = s.params := by
    cases b
    · rfl
    · exact abandon_params s i
  cases a with
  | writeCsr n v => exact ⟨_, rfl, abandonIf (csrGuarded n)⟩
  | startCmd w => exact ⟨_, rfl, abandon_params s i⟩
  | readCsr n => exact ⟨_, rfl, rfl⟩
  | writeOm a b => exact ⟨_, rfl, abandonIf (s.omHas a)⟩
  | readOm a => exact ⟨_, rfl, rfl⟩
  | wait =>
    obtain ⟨t, hx, hparams, -, -⟩ := exec_next i { s with running := none }
    exact ⟨t, hx, hparams⟩
  | reset => exact ⟨_, rfl, rfl⟩

/-- Settles O7: the step is one access (`step_eq_hostAccess`), to an idle engine (`idleAccess_next`) or a busy one
(`busyAccess_next`). -/
theorem stepAlwaysAnswersANextState : Obligations.StepAlwaysAnswersANextState := by
  unfold Obligations.StepAlwaysAnswersANextState
  intro s
  obtain ⟨a, rest, hstep⟩ := step_eq_hostAccess s
  rw [hstep]
  cases hr : s.running with
  | none => simpa only [hostAccess, hr] using idleAccess_next a { s with host := rest }
  | some i => simpa only [hostAccess, hr] using busyAccess_next i a { s with host := rest }

/-! The order of the checks (R83, R233). -/

theorem exec_unwritten_fault {s : State} {i : Instr} (hw : i.wellFormed = true)
    (hv : ∃ r ∈ i.sources, s.isValid r = false) : exec i s = .next (s.faulted 0x02) := by
  have hall : i.sources.all s.isValid = false := by simpa [List.all_eq_false] using hv
  have hp : precheck i s = some .unwritten := by simp [precheck, hw, hall]
  exact exec_fault hp

/-- Settles O19: each check by the one that fails first; F_BUSY is the abandoned command's. -/
theorem faultPriority : Obligations.FaultPriority := by
  unfold Obligations.FaultPriority
  refine ⟨fun s w e => runCmd_of_error, fun s i => exec_unwritten_fault,
    fun s i a n => exec_addr_fault, fun s => exec_verify_of_long, fun s i w rest hr => ?_⟩
  obtain ⟨-, hcode, -⟩ := abandon_rest { s with host := rest } i
  exact ⟨_, step_guardedWrite_busy rest hr (.inl ⟨w, rfl⟩), hcode⟩

end Sys2Proof.Machine

/-! SUPPORT. The commands that move values between operand memory and the registers: their checks pass, and what they
read or write are the bytes of the encodings (spec/30_encoding.md R86 to R96; spec/20_memory.md R53). -/

namespace Sys2Proof.Machine

/-! The checks pass. -/

theorem exec_of_checks {i : Instr} {s : State} (hw : i.wellFormed = true) (hv : ∀ r ∈ i.sources, s.isValid r = true)
    (hr : spanOk i.readSpan = true) (hq : spanOk i.writeSpan = true) (hl : lenOk i s = true) :
    exec i s = .next (effect i s) :=
  exec_ok ((precheck_none_iff i s).2 ⟨hw, hv, hr, hq, hl⟩)

theorem spanOk_of_le {a n : Nat} (h : a + n ≤ 0x1000) : spanOk (some (a, n)) = true := decide_eq_true h

/-- A span that is not empty and ends in low memory begins at an address of 12 bits. -/
theorem immOk_of_span {a n : Nat} (h : a + n ≤ 0x1000) (hn : 0 < n) : immOk a = true := decide_eq_true (by omega)

/-! Little-endian bytes. -/

theorem getD_readBytes (s : State) (a : Nat) {n i : Nat} (h : i < n) :
    (s.readBytes a n).getD i 0 = s.readByte (a + i) := by
  rw [List.getD_eq_getElem?_getD, getElem?_readBytes s a n i h, Option.getD_some]

/-- The top bit of the last byte is 0 in a number below half the range. -/
theorem leBytes_last_msb {x : Nat} (h : x < 2 ^ 255) : ((leBytes 32 x).getD 31 0).getLsbD 7 = false := by
  have hlast : (leBytes 32 x).getD 31 0 = BitVec.ofNat 8 (x / 256 ^ 31) := by
    rw [leBytes_succ, List.getD_append_right _ _ _ _ (leBytes_length 31 x).le, leBytes_length]
    rfl
  rw [hlast, getLsbD_eq, BitVec.toNat_ofNat, decide_eq_false_iff_not]
  omega

/-! FE.UNPACK and FE.PACK. -/

/-- R106: limb 31 is the last byte with its top bit masked, the others are the bytes. -/
theorem getElem_feUnpack (bs : List Byte) {i : Nat} (hi : i < 32) (hl : bs.length = 32) :
    (feUnpack bs)[i] = if i = 31 then bs.getD 31 0 &&& 0x7F else bs.getD i 0 := by
  rw [feUnpack, getElem_packLimbs i hi]
  split
  · next h =>
    subst h
    rw [List.getD_eq_getElem?_getD, List.getElem?_set_self (by simp [hl]), Option.getD_some, getD_byteLimbs]
    generalize bs.getD 31 0 = b
    apply BitVec.eq_of_toNat_eq
    have hmask : (b &&& 0x7F).toNat = b.toNat % 128 := Nat.and_two_pow_sub_one_eq_mod b.toNat 7
    rw [hmask, BitVec.toNat_ofNat]
    omega
  · next h =>
    rw [List.getD_eq_getElem?_getD, List.getElem?_set_ne (Ne.symm h), ← List.getD_eq_getElem?_getD, getD_byteLimbs,
      BitVec.ofNat_toNat, BitVec.setWidth_eq]

/-- Settles O25: `getElem_feUnpack` for the limbs, `vecVal_unpack` for the value. -/
theorem feUnpackResult : Obligations.FeUnpackResult := by
  unfold Obligations.FeUnpackResult
  intro s rd imm hrd himm
  have hlen : (s.readBytes imm 32).length = 32 := readBytes_length s imm 32
  refine ⟨feUnpack (s.readBytes imm 32), by omega,
    exec_of_checks (Bool.and_eq_true_iff.2 ⟨decide_eq_true hrd, immOk_of_span himm (by decide)⟩) (List.forall_mem_nil _)
      (spanOk_of_le himm) rfl rfl,
    feInv_unpack hlen, fun i => ?_, ?_, vecVal_unpack hlen⟩
  · rw [getElem_feUnpack _ (by omega) hlen, if_neg (by omega), getD_readBytes s imm (by omega)]
  · rw [getElem_feUnpack _ (by omega) hlen, if_pos rfl, getD_readBytes s imm (by omega)]

/-- Settles O26: the bytes stored are read back, and `fePack_eq` gives the canonical representative. -/
theorem fePackResult : Obligations.FePackResult := by
  unfold Obligations.FePackResult
  intro s imm ra hra himm hv
  have hback := readBytes_writeBytes s imm (fePack (s.fe ra))
  rw [fePack_length] at hback
  refine ⟨fePack (s.fe ra),
    exec_of_checks (Bool.and_eq_true_iff.2 ⟨immOk_of_span himm (by decide), decide_eq_true hra⟩)
      (List.forall_mem_singleton.2 hv) rfl (spanOk_of_le himm) rfl,
    fePack_length _, hback, fun hinv => ?_⟩
  have hbytes : fePack (s.fe ra) = leBytes 32 (vecVal (s.fe ra) % fieldP) := by
    rw [fePack_eq hinv, feRes, ZMod.val_natCast]
  have hlt : vecVal (s.fe ra) % fieldP < 2 ^ 255 := lt_trans (Nat.mod_lt _ fieldP_pos) (by decide)
  exact ⟨hbytes, by rw [hbytes]; exact leBytes_last_msb hlt⟩

/-- Settles O34: `feCmov_eq`. -/
theorem feCmovResult : Obligations.FeCmovResult := by
  unfold Obligations.FeCmovResult
  intro s rd ra hrd hra hvd hva
  rw [exec_of_checks (i := .feCmov rd ra) (Bool.and_eq_true_iff.2 ⟨decide_eq_true hrd, decide_eq_true hra⟩)
    (List.forall_mem_cons.2 ⟨hvd, List.forall_mem_singleton.2 hva⟩) rfl rfl rfl, effect, feCmov_eq]

/-! SC.FROM32, SC.FROM64 and SC.TO32. -/

theorem exec_scFrom32 {s : State} {rd imm : Nat} (hrd : rd < 4) (himm : imm + 32 ≤ 0x1000) :
    exec (.scFrom32 rd imm) s = .next (s.writeS rd (scFrom32 (s.readBytes imm 32))) :=
  exec_of_checks (Bool.and_eq_true_iff.2 ⟨decide_eq_true hrd, immOk_of_span himm (by decide)⟩) (List.forall_mem_nil _)
    (spanOk_of_le himm) rfl rfl

theorem exec_scFrom64 {s : State} {rd imm : Nat} (hrd : rd < 4) (himm : imm + 64 ≤ 0x1000) :
    exec (.scFrom64 rd imm) s = .next (s.writeS rd (scFrom64 (s.readBytes imm 64))) :=
  exec_of_checks (Bool.and_eq_true_iff.2 ⟨decide_eq_true hrd, immOk_of_span himm (by decide)⟩) (List.forall_mem_nil _)
    (spanOk_of_le himm) rfl rfl

/-- Settles O37: Barrett reduction of the bytes, `vecVal_scFrom32` and `vecVal_scFrom64`. -/
theorem scDecodeResults : Obligations.ScDecodeResults := by
  unfold Obligations.ScDecodeResults
  exact fun s rd imm hrd _ =>
    ⟨fun h32 => ⟨_, exec_scFrom32 hrd h32, vecVal_scFrom32 (readBytes_length s imm 32)⟩,
      fun h64 => ⟨_, exec_scFrom64 hrd h64, vecVal_scFrom64 (readBytes_length s imm 64)⟩⟩

/-- The stored bytes of a vector stand for its value. -/
theorem leVal_toList {n : Nat} (v : Vector Byte n) : leVal v.toList = vecVal v := rfl

/-- Settles O38: the limbs are the bytes (`toList_eq_leBytes`), and SC.FROM32 reads them back. -/
theorem scTo32Result : Obligations.ScTo32Result := by
  unfold Obligations.ScTo32Result
  intro s imm ra rd hra hrd himm hv
  rw [← toList_eq_leBytes]
  have hback := readBytes_writeBytes s imm (s.sc ra).toList
  rw [Vector.length_toList] at hback
  refine ⟨_, rfl,
    exec_of_checks (Bool.and_eq_true_iff.2 ⟨immOk_of_span himm (by decide), decide_eq_true hra⟩)
      (List.forall_mem_singleton.2 hv) rfl (spanOk_of_le himm) rfl,
    fun i => ?_, _, exec_scFrom32 hrd himm, ?_⟩
  · rw [readByte_writeBytes_inside s imm _ i (by simp)]; simp
  · rw [hback, vecVal_scFrom32 (Vector.length_toList ..), leVal_toList]

/-! SC.WINDOW3, SC.WINDOW5 and SC.INTERLEAVE2. -/

/-- R156, R157: the last digit of SC.WINDOW3 takes what the signed digits below leave of the scalar. -/
theorem scWindow3_last {v : Int} (h0 : 0 ≤ v) (h256 : v < 2 ^ 256) :
    0 ≤ (scWindow 3 85 v).getD 84 0 ∧ (scWindow 3 85 v).getD 84 0 ≤ 16 ∧
      (v < groupOrder → (scWindow 3 85 v).getD 84 0 ≤ 1) := by
  obtain ⟨u, hv, hlo, hhi⟩ := scWindow_last (w := 3) (n := 84) (by decide) v
  generalize (scWindow 3 85 v).getD 84 0 = d at *
  norm_num [groupOrder] at *
  omega

/-- R156, R158: the last digit of SC.WINDOW5, likewise. -/
theorem scWindow5_last {v : Int} (h0 : 0 ≤ v) (h256 : v < 2 ^ 256) :
    0 ≤ (scWindow 5 51 v).getD 50 0 ∧ (scWindow 5 51 v).getD 50 0 ≤ 64 ∧
      (v < groupOrder → (scWindow 5 51 v).getD 50 0 ≤ 4) := by
  obtain ⟨u, hv, hlo, hhi⟩ := scWindow_last (w := 5) (n := 50) (by decide) v
  generalize (scWindow 5 51 v).getD 50 0 = d at *
  norm_num [groupOrder] at *
  omega

theorem vecVal_sc_lt (a : Sc) : (vecVal a : Int) < 2 ^ 256 := by
  have := vecVal_lt a
  norm_num at *
  omega

/-- Settles O41: the value is `digitsVal_scWindow`, the ranges `scWindow_digit` and, for the last digit, `scWindow3_last`
and `scWindow5_last`. -/
theorem scWindowResults : Obligations.ScWindowResults := by
  unfold Obligations.ScWindowResults
  intro s imm ra hra himm hv
  have h0 : (0 : Int) ≤ vecVal (s.sc ra) := Int.natCast_nonneg _
  have h256 := vecVal_sc_lt (s.sc ra)
  have hwf : (immOk imm && scIdxOk ra) = true := Bool.and_eq_true_iff.2 ⟨decide_eq_true himm, decide_eq_true hra⟩
  have hsrc : ∀ r ∈ [RegName.s ra], s.isValid r = true := List.forall_mem_singleton.2 hv
  constructor
  · intro hspan
    obtain ⟨hlast0, hlast, hred⟩ := scWindow3_last h0 h256
    refine ⟨scWindow 3 85 (vecVal (s.sc ra)), exec_of_checks hwf hsrc rfl (spanOk_of_le hspan) rfl, scWindow_length ..,
      digitsVal_scWindow 3 84 _, fun i hi => ?_, hlast0, hlast, fun h => hred (by exact_mod_cast h)⟩
    obtain ⟨hlo, hhi⟩ := scWindow_digit (w := 3) (by decide) (vecVal (s.sc ra)) i hi
    exact ⟨hlo, Int.le_of_lt_add_one hhi⟩
  · intro hspan
    obtain ⟨hlast0, hlast, hred⟩ := scWindow5_last h0 h256
    refine ⟨scWindow 5 51 (vecVal (s.sc ra)), exec_of_checks hwf hsrc rfl (spanOk_of_le hspan) rfl, scWindow_length ..,
      digitsVal_scWindow 5 50 _, fun i hi => ?_, hlast0, hlast, fun h => hred (by exact_mod_cast h)⟩
    obtain ⟨hlo, hhi⟩ := scWindow_digit (w := 5) (by decide) (vecVal (s.sc ra)) i hi
    exact ⟨hlo, Int.le_of_lt_add_one hhi⟩

/-- The base-4 digits of a number below 4^n, as a sum. -/
theorem sum_base4_digits (a n : Nat) : ∑ i ∈ Finset.range n, a / 4 ^ i % 4 * 4 ^ i = a % 4 ^ n := by
  induction n with
  | zero => rw [Finset.sum_range_zero, pow_zero, Nat.mod_one]
  | succ n ih => rw [Finset.sum_range_succ, ih, Nat.mod_pow_succ, Nat.mul_comm]

/-- R159: the bytes SC.INTERLEAVE2 stores. -/
theorem scInterleave2_bytes (a b : Sc) : (scInterleave2 a b).map (BitVec.ofNat 8) =
    (List.range 127).map fun i => BitVec.ofNat 8 (vecVal a / 4 ^ i % 4 + 4 * (vecVal b / 4 ^ i % 4)) := by
  simp only [scInterleave2, List.map_map, Function.comp_def, interleaveDigit_eq]

/-- Byte i of the span of SC.INTERLEAVE2 is digit i. -/
theorem readByte_scInterleave2 (s : State) (imm : Nat) (a b : Sc) {i : Nat} (hi : i < 127) :
    ((s.writeBytes imm ((scInterleave2 a b).map (BitVec.ofNat 8))).readByte (imm + i)).toNat =
      vecVal a / 4 ^ i % 4 + 4 * (vecVal b / 4 ^ i % 4) := by
  rw [scInterleave2_bytes, readByte_writeBytes_inside s imm _ i (by simpa using hi), List.getElem_map, List.getElem_range,
    BitVec.toNat_ofNat]
  omega

/-- Settles O42: `scInterleave2_bytes`; each half of the digits sums to its scalar (`sum_base4_digits`). -/
theorem scInterleave2Result : Obligations.ScInterleave2Result := by
  unfold Obligations.ScInterleave2Result
  intro s imm ra rb hra hrb himm hva hvb
  rw [← scInterleave2_bytes]
  have hpow : 2 ^ 254 = 4 ^ 127 := by decide
  refine ⟨_, rfl, ?_, ?_, ?_⟩
  · have hops : (immOk imm && scIdxOk ra) = true :=
      Bool.and_eq_true_iff.2 ⟨immOk_of_span himm (by decide), decide_eq_true hra⟩
    exact exec_of_checks (Bool.and_eq_true_iff.2 ⟨hops, decide_eq_true hrb⟩)
      (List.forall_mem_cons.2 ⟨hva, List.forall_mem_singleton.2 hvb⟩) rfl (spanOk_of_le himm) rfl
  · rw [hpow, ← sum_base4_digits]
    refine Finset.sum_congr rfl fun i hi => ?_
    rw [readByte_scInterleave2 s imm _ _ (Finset.mem_range.1 hi), Nat.add_mul_mod_self_left, Nat.mod_mod]
  · rw [hpow, ← sum_base4_digits]
    refine Finset.sum_congr rfl fun i hi => ?_
    rw [readByte_scInterleave2 s imm _ _ (Finset.mem_range.1 hi), Nat.add_mul_div_left _ _ (by decide),
      Nat.div_eq_of_lt (Nat.mod_lt _ (by decide)), Nat.zero_add]

/-! GE.DECOMPNEG and GE.PACK. -/

theorem exec_geDecompneg {s : State} {rd imm : Nat} (hrd : rd < 4) (himm : imm + 32 ≤ 0x1000) :
    exec (.geDecompneg rd imm) s = .next (s.decompneg rd (geDecompressNegate (s.readBytes imm 32))) :=
  exec_of_checks (Bool.and_eq_true_iff.2 ⟨decide_eq_true hrd, immOk_of_span himm (by decide)⟩) (List.forall_mem_nil _)
    (spanOk_of_le himm) rfl rfl

/-- Settles O47: `decompress_some_iff` where the bytes encode a point, `decompress_eq_none` where they encode none. -/
theorem geDecompnegResult : Obligations.GeDecompnegResult := by
  unfold Obligations.GeDecompnegResult
  intro s rd imm hrd himm
  have hlen : (s.readBytes imm 32).length = 32 := readBytes_length s imm 32
  refine ⟨fun A hA => ?_, fun hnone => ?_⟩
  · obtain ⟨v, hsome, hrep⟩ := decompress_some_iff hlen hA
    refine ⟨v, by rw [exec_geDecompneg hrd himm, hsome]; rfl, hrep.inv, hrep.wf, ?_, hrep.point⟩
    rw [decompress_z hsome, feRes_one]
  · rw [exec_geDecompneg hrd himm, decompress_eq_none hlen hnone]; rfl

/-- R192: X/Z and Y/Z are 0 for Z = 0, and so are all their bytes. -/
theorem encodePoint_of_z_zero {g : Ge} (h : feRes g.z = 0) : encodePoint (gePoint g) = List.replicate 32 0 := by
  have := fieldP_fact
  have hpoint : gePoint g = (0, 0) := by rw [gePoint, h, inv_zero, mul_zero, mul_zero]
  rw [hpoint, encodePoint, ZMod.val_zero]
  decide

/-- Settles O48: `gePack_eq`, and `encodePoint_of_z_zero` for Z = 0. -/
theorem gePackResult : Obligations.GePackResult := by
  unfold Obligations.GePackResult
  intro s imm ra hra himm hv
  refine ⟨?_, encodePoint_of_z_zero⟩
  rw [← gePack_eq]
  exact exec_of_checks (Bool.and_eq_true_iff.2 ⟨immOk_of_span himm (by decide), decide_eq_true hra⟩)
    (List.forall_mem_singleton.2 hv) rfl (spanOk_of_le himm) rfl

end Sys2Proof.Machine

/-! SUPPORT. The carry-propagation passes with the limb bounds of spec/40_field_element.md R104: what one pass leaves in each
limb, and how many passes reach INV-FE after an addition, a subtraction and a multiplication. -/

namespace Sys2Proof.Machine

/-! One pass. -/

theorem Carried.getD_le {v : List Nat} (h : Carried v) {i : Nat} (hi : i < 31) : v.getD i 0 ≤ 255 := by
  have hlt : i < v.dropLast.length := by rw [List.length_dropLast, h.length]; exact hi
  rw [← getD_dropLast (by rw [h.length]; omega), List.getD_eq_getElem _ _ hlt]
  exact Nat.le_of_lt_succ (h.low _ (List.getElem_mem hlt))

/-- The last limb takes a carry and loses nothing. -/
theorem getD_le_carryLimbs (n c : Nat) (l : List Nat) (hl : l.length = n + 1) : l.getD n 0 ≤ (carryLimbs c l).getD n 0 := by
  induction n generalizing c l with
  | zero =>
    obtain ⟨x, rfl⟩ := List.length_eq_one_iff.1 hl
    exact Nat.le_add_right x c
  | succ n ih =>
    match l, hl with
    | x :: y :: ys, hl => exact ih _ (y :: ys) (Nat.succ.inj hl)

/-- R102: limb 31 keeps its low 7 bits and takes the last carry. -/
theorem mod_le_fePass {v : List Nat} (h : v.length = 32) : v.getD 31 0 % 128 ≤ (fePass v).getD 31 0 := by
  have hlast : ((v.set 31 (v.getD 31 0 % 128)).set 0 (v.getD 0 0 + 19 * (v.getD 31 0 / 128))).getD 31 0 =
      v.getD 31 0 % 128 := by
    rw [List.getD_eq_getElem?_getD, List.getElem?_set_ne (by decide), List.getElem?_set_self (by omega), Option.getD_some]
  have hcarry := getD_le_carryLimbs 31 0
    ((v.set 31 (v.getD 31 0 % 128)).set 0 (v.getD 0 0 + 19 * (v.getD 31 0 / 128))) (by simp [h])
  rwa [hlast] at hcarry

/-- R104 (a), as a bound on limbs. -/
theorem LimbsWithin.fePass_eq {v : List Nat} (h : LimbsWithin 255 127 v) : fePass v = v :=
  fePass_reduced (limbsWithin_iff_reduced.1 h)

/-- R104 (b), as a bound on limbs. -/
theorem LimbsWithin.closes {v : List Nat} (h : LimbsWithin 255 254 v) : LimbsWithin 255 127 (fePass v) :=
  limbsWithin_iff_reduced.2 (fePass_closes h.carried h.value)

/-! The passes after an addition and a subtraction. -/

/-- R104 (c), (d): with limbs at most 765, limb 0 at most 729 and limb 31 at most 381, every carry of the first pass is at
most 2, the second pass closes and the others change nothing. -/
theorem LimbsWithin.four_passes {u : List Nat} (h : LimbsWithin 765 381 u) (h0 : u.getD 0 0 ≤ 729) :
    LimbsWithin 255 129 (feReduce u 1) ∧ LimbsWithin 255 127 (feReduce u 2) ∧ feReduce u 4 = feReduce u 2 := by
  obtain ⟨hlen, hlow, htop⟩ := h
  have h1 : LimbsWithin 255 129 (feReduce u 1) :=
    fePass_within (first := 767) (C := 2) hlen (by omega) (fun i _ hi => hlow i hi) (by decide) (by decide)
  have h2 : LimbsWithin 255 127 (feReduce u 2) := (h1.mono le_rfl (by decide)).closes
  exact ⟨h1, h2, feReduce_reduced (limbsWithin_iff_reduced.1 h2) 2⟩

/-- R104 (c): the limb sums. -/
theorem addLimbs_within {x y : Fe} (hx : feInv x) (hy : feInv y) : LimbsWithin 510 254 (addLimbs (limbs x) (limbs y)) := by
  refine ⟨by simp, fun i _ => ?_, ?_⟩
  · rw [getD_addLimbs]
    exact Nat.add_le_add (getD_limbs_le x i) (getD_limbs_le y i)
  · rw [getD_addLimbs, getD_limbs x (by decide), getD_limbs y (by decide)]
    exact Nat.add_le_add hx hy

/-- R109: `u[i] = (x[i] + TWO_P[i]) − y[i]`, with nothing cut off. -/
theorem getD_subLimbs (x : Fe) {y : Fe} (hy : feInv y) {i : Nat} (hi : i < 32) :
    (subLimbs (limbs x) (limbs y)).getD i 0 + (limbs y).getD i 0 = (limbs x).getD i 0 + twoPLimbs.getD i 0 := by
  have hnonneg := subLimbs_nonneg x hy i
  have hsum : i < (addLimbs (limbs x) twoPLimbs).length := by simp [twoPLimbs, hi]
  have hy32 : i < (limbs y).length := by rwa [limbs_length]
  have hdiff : (subLimbs (limbs x) (limbs y)).getD i 0 =
      (addLimbs (limbs x) twoPLimbs).getD i 0 - (limbs y).getD i 0 := by
    rw [List.getD_eq_getElem _ _ (by rwa [subLimbs_length]), List.getD_eq_getElem _ _ hsum, List.getD_eq_getElem _ _ hy32]
    exact List.getElem_zipWith
  rw [hdiff, Nat.sub_add_cancel hnonneg, getD_addLimbs]

theorem twoP_getD_mid (i : Nat) (h : i < 31) : 0 < i → twoPLimbs.getD i 0 = 510 := by
  revert h i
  decide

/-- R104 (d): the limb differences of a subtraction, limb 0, limbs 1 to 30 and limb 31. -/
theorem subLimbs_ranges {x y : Fe} {u : List Nat} (hx : feInv x) (hy : feInv y) (hu : u = subLimbs (limbs x) (limbs y)) :
    (219 ≤ u.getD 0 0 ∧ u.getD 0 0 ≤ 729) ∧ (∀ i, 0 < i → i < 31 → 255 ≤ u.getD i 0 ∧ u.getD i 0 ≤ 765) ∧
      127 ≤ u.getD 31 0 ∧ u.getD 31 0 ≤ 381 := by
  subst hu
  have hlimb := fun i => getD_subLimbs x hy (i := i)
  have hxi := getD_limbs_le x
  have hyi := getD_limbs_le y
  refine ⟨?_, fun i h0 h31 => ?_, ?_⟩
  · have h0 : twoPLimbs.getD 0 0 = 474 := by decide
    have := hlimb 0 (by decide)
    have := hxi 0
    have := hyi 0
    omega
  · have hmid := twoP_getD_mid i h31 h0
    have := hlimb i (by omega)
    have := hxi i
    have := hyi i
    omega
  · have h31 : twoPLimbs.getD 31 0 = 254 := by decide
    have hx31 : (limbs x).getD 31 0 ≤ 127 := by rw [getD_limbs x (by decide)]; exact hx
    have hy31 : (limbs y).getD 31 0 ≤ 127 := by rw [getD_limbs y (by decide)]; exact hy
    have := hlimb 31 (by decide)
    omega

theorem subLimbs_within {x y : Fe} (hx : feInv x) (hy : feInv y) : LimbsWithin 765 381 (subLimbs (limbs x) (limbs y)) := by
  obtain ⟨⟨-, h0⟩, hmid, -, h31⟩ := subLimbs_ranges hx hy rfl
  refine ⟨subLimbs_length x y, fun i hi => ?_, h31⟩
  rcases Nat.eq_zero_or_pos i with rfl | hpos
  · omega
  · exact (hmid i hpos hi).2

/-! The passes after a multiplication. -/

/-- R104 (e): a product limb is a sum of at most 32 products of two bytes. -/
theorem getD_conv_le (x y : Fe) (k : Nat) : (convLimbs (limbs x) (limbs y)).getD k 0 ≤ 2080800 := by
  have h := getD_convLimbs_le (limbs_below x) (limbs_below y) k
  rwa [limbs_length] at h

/-- R104 (e): the folded limbs; there is no product limb 63 to fold into limb 31. -/
theorem fold_within (x y : Fe) : LimbsWithin 81151200 2080800 (foldLimbs (convLimbs (limbs x) (limbs y))) := by
  have hfold : ∀ i, (foldLimbs (convLimbs (limbs x) (limbs y))).getD i 0 ≤
      (convLimbs (limbs x) (limbs y)).getD i 0 + 38 * (convLimbs (limbs x) (limbs y)).getD (32 + i) 0 := fun i => by
    rw [foldLimbs, getD_addLimbs, getD_scaleLimbs, getD_drop]
    exact Nat.add_le_add_right (getD_take_le _ 32 i) _
  refine ⟨fold_length x y, fun i _ => ?_, ?_⟩
  · have := hfold i
    have := getD_conv_le x y i
    have := getD_conv_le x y (32 + i)
    omega
  · have h63 : (convLimbs (limbs x) (limbs y)).getD (32 + 31) 0 = 0 :=
      List.getD_eq_default _ _ (by rw [conv_length])
    have := hfold 31
    have := getD_conv_le x y 31
    omega

/-- R104 (e), pass 2: the value after it exceeds 2^255 by the fold of limb 31 at most. -/
theorem LimbsWithin.second_pass {v : List Nat} (h : LimbsWithin 255 318366 v) : LimbsWithin 255 128 (fePass v) := by
  refine (fePass_carried h.1).within ?_
  have hval := h.value
  rw [limbVal_fePass_carried h.carried]
  norm_num at hval ⊢
  omega

/-- R104 (e): every carry of the first pass is at most 318239, limb 31 is at most 128 after the second, and the third
closes. -/
theorem LimbsWithin.three_passes {u : List Nat} (h : LimbsWithin 81151200 2080800 u) :
    LimbsWithin 255 318366 (feReduce u 1) ∧ LimbsWithin 255 128 (feReduce u 2) ∧ LimbsWithin 255 127 (feReduce u 3) := by
  obtain ⟨hlen, hlow, htop⟩ := h
  have h1 : LimbsWithin 255 318366 (feReduce u 1) :=
    fePass_within (first := 81460064) (C := 318239) hlen (by have := hlow 0 (by decide); omega) (fun i _ hi => hlow i hi)
      (by decide) (by decide)
  have h2 : LimbsWithin 255 128 (feReduce u 2) := h1.second_pass
  exact ⟨h1, h2, (h2.mono le_rfl (by decide)).closes⟩

/-- Settles O23: `limbVal_fePass` for the value of a pass, `LimbsWithin.four_passes` after an addition and a subtraction,
`LimbsWithin.three_passes` after a multiplication. -/
theorem fePassValue : Obligations.FePassValue := by
  unfold Obligations.FePassValue
  refine ⟨fun v hv => ?_, fun v => ⟨LimbsWithin.fePass_eq, LimbsWithin.closes⟩, fun x y hx hy => ⟨?_, ?_, ?_⟩⟩
  · have hand : v.getD 31 0 &&& 127 = v.getD 31 0 % 128 := Nat.and_two_pow_sub_one_eq_mod _ 7
    rw [Nat.shiftRight_eq_div_pow, hand]
    exact ⟨by rw [fePass_length, hv], limbVal_fePass hv, fun i hi => (fePass_carried hv).getD_le hi, mod_le_fePass hv⟩
  · rintro u rfl
    have hsum := addLimbs_within hx hy
    have h0 := hsum.2.1 0 (by decide)
    exact ⟨hsum, (hsum.mono (by decide) (by decide)).four_passes (by omega)⟩
  · rintro u rfl
    obtain ⟨⟨hlo, hhi⟩, hmid, htop, -⟩ := subLimbs_ranges hx hy rfl
    exact ⟨fun i => getD_subLimbs x hy, hlo, hhi, fun i hpos hi => (hmid i hpos hi).1, htop, subLimbs_within hx hy,
      (subLimbs_within hx hy).four_passes hhi⟩
  · rintro _ _ rfl rfl
    exact ⟨getD_conv_le x y, fold_within x y, (fold_within x y).three_passes⟩

end Sys2Proof.Machine

/-! SUPPORT. The FE commands on registers (spec/40_field_element.md R108 to R118): their checks pass on written sources, and
what they answer is the limb function of Machine/FieldElement.lean, whose value and residue Laws/ gives. -/

namespace Sys2Proof.Machine

/-! The checks of a command on one, two or three FE registers. -/

theorem feIdxOk_two {a b : Nat} (ha : a < 16) (hb : b < 16) : (feIdxOk a && feIdxOk b) = true :=
  Bool.and_eq_true_iff.2 ⟨decide_eq_true ha, decide_eq_true hb⟩

theorem feIdxOk_three {a b c : Nat} (ha : a < 16) (hb : b < 16) (hc : c < 16) :
    (feIdxOk a && feIdxOk b && feIdxOk c) = true :=
  Bool.and_eq_true_iff.2 ⟨feIdxOk_two ha hb, decide_eq_true hc⟩

theorem isValid_one {s : State} {a : Nat} (ha : s.isValid (.f a) = true) : ∀ r ∈ [RegName.f a], s.isValid r = true :=
  List.forall_mem_singleton.2 ha

theorem isValid_two {s : State} {a b : Nat} (ha : s.isValid (.f a) = true) (hb : s.isValid (.f b) = true) :
    ∀ r ∈ [RegName.f a, RegName.f b], s.isValid r = true :=
  List.forall_mem_cons.2 ⟨ha, isValid_one hb⟩

/-- Commands of one effect that pass the same checks answer the same outcome, faults included. -/
theorem exec_congr_instr {i j : Instr} {s : State} (hw : i.wellFormed = j.wellFormed)
    (hv : i.sources.all s.isValid = j.sources.all s.isValid) (hr : i.readSpan = j.readSpan)
    (hq : i.writeSpan = j.writeSpan) (hl : lenOk i s = lenOk j s) (he : effect i s = effect j s) : exec i s = exec j s := by
  have hpre : precheck i s = precheck j s := by unfold precheck; rw [hw, hv, hr, hq, hl]
  rw [exec_eq, exec_eq, command_next, command_next, hpre, he]

theorem all_isValid_swap (s : State) (a b : Nat) :
    [RegName.f a, RegName.f b].all s.isValid = [RegName.f b, RegName.f a].all s.isValid :=
  Bool.and_left_comm ..

/-! Residues. -/

/-- What FE.FREEZE, FE.PACK and the predicates show is determined by the residue. -/
theorem feFreeze_congr {x y : Fe} (hx : feInv x) (hy : feInv y) (h : feRes x = feRes y) : feFreeze x = feFreeze y :=
  vecVal_inj (by rw [vecVal_freeze_res hx, vecVal_freeze_res hy, h])

/-- R22: 0 has the two representatives 0 and p. -/
theorem feRes_eq_zero_iff {x : Fe} (h : feInv x) : feRes x = 0 ↔ vecVal x = 0 ∨ vecVal x = fieldP := by
  have hlt : vecVal x < 2 * fieldP := lt_trans ((feInv_iff x).1 h) (by decide)
  rw [feRes, ZMod.natCast_eq_zero_iff]
  constructor
  · rintro ⟨k, hk⟩
    have hk2 : k < 2 := by
      by_contra hge
      have := Nat.mul_le_mul_left fieldP (Nat.le_of_not_lt hge)
      omega
    interval_cases k <;> omega
  · rintro (h0 | hp)
    · rw [h0]; exact dvd_zero _
    · rw [hp]

/-- R114: the exponent of FE.POW2523. -/
theorem pow2523_exponent : (fieldP - 5) / 8 = 2 ^ 252 - 3 := by decide

/-- Settles O24: the residue laws of Laws/FieldElement.lean; equal residues have one canonical vector (`feFreeze_congr`). -/
theorem fieldValueLaws : Obligations.FieldValueLaws := by
  unfold Obligations.FieldValueLaws
  intro x y z hx hy hz
  have hcanon : vecVal (feFreeze x) < fieldP := by rw [vecVal_freeze hx]; exact Nat.mod_lt _ fieldP_pos
  refine ⟨feRes_add x y, feRes_sub x hy, feRes_mul x y, feRes_square x, feRes_invert x, ?_, vecVal_freeze_res hx, hcanon,
    by rw [feAdd_comm], by rw [feMul_comm], ?_, ?_, fun h => ?_⟩
  · rw [feRes_pow2523, pow2523_exponent]
  · simp only [feRes_add, add_assoc]
  · simp only [feRes_mul, mul_assoc]
  · have hfreeze := feFreeze_congr hx hy h
    simp only [fePack, feIszero, feIseq, feGetparity, hfreeze, and_self]

/-! FE.ADD, FE.SUB, FE.MUL and FE.SQUARE. -/

/-- Settles O27: `vecVal_add` for the value; the checks and the sum are symmetric in the sources. -/
theorem feAddResult : Obligations.FeAddResult := by
  unfold Obligations.FeAddResult
  refine ⟨fun s rd ra rb => ?_, fun s rd ra rb hrd hra hrb hva hvb => ?_⟩
  · refine exec_congr_instr (Bool.and_right_comm ..) (all_isValid_swap s ra rb) rfl rfl rfl ?_
    rw [effect, effect, feAdd_comm]
  · exact ⟨feAdd (s.fe ra) (s.fe rb), exec_of_checks (feIdxOk_three hrd hra hrb) (isValid_two hva hvb) rfl rfl rfl,
      feInv_add _ _, feRes_add _ _, vecVal_add _ _⟩

/-- Settles O28: `vecVal_sub` for the value. -/
theorem feSubResult : Obligations.FeSubResult := by
  unfold Obligations.FeSubResult
  exact fun s rd ra rb hrd hra hrb hva hvb =>
    ⟨feSub (s.fe ra) (s.fe rb), exec_of_checks (feIdxOk_three hrd hra hrb) (isValid_two hva hvb) rfl rfl rfl,
      feInv_sub _ _, fun hinv => ⟨feRes_sub _ hinv, vecVal_sub _ hinv⟩⟩

/-- Settles O29: `vecVal_mul` for the value; the checks and the product are symmetric in the sources. -/
theorem feMulResult : Obligations.FeMulResult := by
  unfold Obligations.FeMulResult
  refine ⟨fun s rd ra rb => ?_, fun s rd ra rb hrd hra hrb hva hvb => ?_⟩
  · refine exec_congr_instr (Bool.and_right_comm ..) (all_isValid_swap s ra rb) rfl rfl rfl ?_
    rw [effect, effect, feMul_comm]
  · exact ⟨feMul (s.fe ra) (s.fe rb), exec_of_checks (feIdxOk_three hrd hra hrb) (isValid_two hva hvb) rfl rfl rfl,
      feInv_mul _ _, feRes_mul _ _, vecVal_mul _ _⟩

/-- Settles O30: naming the source twice changes no check, and `feSquare` is `feMul` of it with itself. -/
theorem feSquareResult : Obligations.FeSquareResult := by
  unfold Obligations.FeSquareResult
  refine ⟨fun s rd ra => ?_, fun s rd ra hrd hra hva => ?_⟩
  · have hw : (feIdxOk rd && feIdxOk ra) = (feIdxOk rd && feIdxOk ra && feIdxOk ra) := by rw [Bool.and_assoc, Bool.and_self]
    have hv : [RegName.f ra].all s.isValid = [RegName.f ra, RegName.f ra].all s.isValid := by
      simp only [List.all_cons, List.all_nil, Bool.and_true, Bool.and_self]
    exact exec_congr_instr hw hv rfl rfl rfl rfl
  · exact ⟨feSquare (s.fe ra), exec_of_checks (feIdxOk_two hrd hra) (isValid_one hva) rfl rfl rfl,
      feInv_square _, feRes_square _⟩

/-! FE.INVERT and FE.POW2523. -/

/-- R113: a vector that is its own square goes through the addition chain unchanged, so 0 inverts to 0 and p to p. -/
theorem feInvert_of_square_self {x : Fe} (h : feSquare x = x) : feInvert x = x := by
  have hmul : feMul x x = x := h
  have hsqn : ∀ n, feSqn x n = x := fun n => by
    induction n with
    | zero => rfl
    | succ n ih => rw [feSqn, h, ih]
  simp only [feInvert, feChain250, h, hsqn, hmul]

theorem feInvert_vector_of_zero {x : Fe} (h : vecVal x = 0) : feInvert x = x := by
  have hx : x = feZero := vecVal_inj (by rw [h, vecVal_zero])
  subst hx
  exact feInvert_of_square_self (by decide)

theorem feInvert_vector_of_p {x : Fe} (h : vecVal x = fieldP) : feInvert x = x := by
  have hx : x = packLimbs 32 pLimbs := vecVal_inj (h.trans (by decide))
  subst hx
  exact feInvert_of_square_self (by decide)

/-- Settles O31: the power x^(p−2) is the inverse (`feRes_invert_inv`), p being prime. -/
theorem feInvertAndPow2523Results : Obligations.FeInvertAndPow2523Results := by
  unfold Obligations.FeInvertAndPow2523Results
  refine ⟨pow2523_exponent, fun s rd ra hrd hra hva => ⟨?_, ?_⟩⟩
  · have := fieldP_fact
    have hinv := feRes_invert_inv (s.fe ra)
    refine ⟨feInvert (s.fe ra), exec_of_checks (feIdxOk_two hrd hra) (isValid_one hva) rfl rfl rfl, feInv_invert _,
      feRes_invert _, fun h => ?_, fun h => ?_, fun h => ?_, fun h => ?_⟩
    · rw [hinv, mul_inv_cancel₀ h]
    · rw [hinv, h, inv_zero]
    · rw [feInvert_vector_of_zero h, h]
    · rw [feInvert_vector_of_p h, h]
  · have hpow : feRes (fePow2523 (s.fe ra)) = feRes (s.fe ra) ^ (2 ^ 252 - 3) := by rw [feRes_pow2523, pow2523_exponent]
    refine ⟨fePow2523 (s.fe ra), exec_of_checks (feIdxOk_two hrd hra) (isValid_one hva) rfl rfl rfl, feInv_pow2523 _, hpow,
      fun h => ?_, fun h => ?_⟩
    · rw [hpow, h, zero_pow (by decide)]
    · rw [hpow, h, one_pow]

/-! FE.FREEZE, the predicates, and the round trip through memory. -/

/-- Settles O32: `vecVal_freeze`; a canonical vector is its own freeze. -/
theorem feFreezeResult : Obligations.FeFreezeResult := by
  unfold Obligations.FeFreezeResult
  intro s rd ra hrd hra hva
  refine ⟨feFreeze (s.fe ra), exec_of_checks (feIdxOk_two hrd hra) (isValid_one hva) rfl rfl rfl, fun hinv => ?_⟩
  exact ⟨feInv_freeze hinv, vecVal_freeze hinv, feFreeze_congr (feInv_freeze hinv) hinv (feRes_freeze hinv)⟩

/-- Settles O33: `feIszero_iff`, `feGetparity_eq` and `feIseq_iff`. -/
theorem fePredicateResults : Obligations.FePredicateResults := by
  unfold Obligations.FePredicateResults
  refine ⟨fun s ra hra hva => ⟨?_, ?_⟩, fun s ra rb hra hrb hva hvb => ?_⟩
  · exact ⟨feIszero (s.fe ra), exec_of_checks (decide_eq_true hra) (isValid_one hva) rfl rfl rfl, fun hinv =>
      ⟨feIszero_iff hinv, (feIszero_iff hinv).trans (feRes_eq_zero_iff hinv)⟩⟩
  · exact ⟨feGetparity (s.fe ra), exec_of_checks (decide_eq_true hra) (isValid_one hva) rfl rfl rfl, fun hinv => by
      rw [feGetparity_eq hinv, beq_iff_eq]⟩
  · exact ⟨feIseq (s.fe ra) (s.fe rb), exec_of_checks (feIdxOk_two hra hrb) (isValid_two hva hvb) rfl rfl rfl, feIseq_iff⟩

theorem fe_writeF_self (s : State) {i : Nat} (h : i < 16) (v : Fe) : (s.writeF i v).fe i = v := by
  rw [fe_writeF s h, if_pos rfl]

theorem isValid_writeF_self (s : State) {i : Nat} (h : i < 16) (v : Fe) : (s.writeF i v).isValid (.f i) = true := by
  rw [isValid_writeF s h, decide_eq_true rfl, Bool.true_or]

/-- Settles O35: the results of FE.UNPACK, FE.FREEZE and FE.PACK one after the other; the packed number is reduced mod p
already. -/
theorem packFreezeUnpackIsCanonical : Obligations.PackFreezeUnpackIsCanonical := by
  unfold Obligations.PackFreezeUnpackIsCanonical
  intro s a b r q ha hb hr hq
  obtain ⟨v, -, hunpack, hinv, -, -, hval⟩ := feUnpackResult s r a hr ha
  obtain ⟨w, hfreeze, hcanon⟩ := feFreezeResult (s.writeF r v) q r hq hr (isValid_writeF_self s hr v)
  rw [fe_writeF_self s hr] at hcanon
  obtain ⟨hinvw, hvalw, -⟩ := hcanon hinv
  obtain ⟨bs, hpack, -, hback, hbytes⟩ := fePackResult ((s.writeF r v).writeF q w) b q hq hb (isValid_writeF_self _ hq w)
  rw [fe_writeF_self _ hq] at hbytes
  refine ⟨_, _, _, hunpack, hfreeze, hpack, ?_⟩
  rw [hback, (hbytes hinvw).1, hvalw, Nat.mod_mod, hval]

end Sys2Proof.Machine

/-! SUPPORT. The SC commands on registers (spec/41_scalar.md R145, R149 to R155): Barrett reduction on every 64 limbs, the
results of SC.ADD, SC.SUBNR and SC.MUL and of the SC predicates, and the constants they rest on. -/

namespace Sys2Proof.Machine

/-! Barrett reduction. -/

/-- R145 (i) to (iii): the estimate's multiple of L is below X by less than 3L. -/
theorem barrettQuotient_bounds {x : List Nat} (hl : x.length = 64) (h : LimbsBelow 256 x) :
    limbVal (barrettQuotient x) * groupOrder ≤ limbVal x ∧
      limbVal x < limbVal (barrettQuotient x) * groupOrder + 3 * groupOrder := by
  obtain ⟨-, -, hq⟩ := barrettQuotient_spec hl h
  have hX : limbVal x < 256 ^ 64 := hl ▸ limbVal_lt h
  rw [hq, Nat.mul_comm _ groupOrder]
  exact barrett_bounds hX

/-- Settles O36: `barrettQuotient_bounds` divided by L for the estimate, `vecVal_barrettReduce` for the result. -/
theorem barrettReductionIsModL : Obligations.BarrettReductionIsModL := by
  unfold Obligations.BarrettReductionIsModL
  refine ⟨by decide, by decide, fun x hl h => ?_⟩
  obtain ⟨hle, hlt⟩ := barrettQuotient_bounds hl h
  have hquot : limbVal x / groupOrder < limbVal (barrettQuotient x) + 3 :=
    (Nat.div_lt_iff_lt_mul groupOrder_pos).2 (by rwa [Nat.add_mul])
  have hval := vecVal_barrettReduce hl h
  exact ⟨(Nat.le_div_iff_mul_le groupOrder_pos).2 hle, Nat.le_of_lt_succ hquot, hle, hlt, hval,
    hval ▸ Nat.mod_lt _ groupOrder_pos⟩

/-! SC.ADD, SC.SUBNR and SC.MUL. -/

theorem scIdxOk_two {a b : Nat} (ha : a < 4) (hb : b < 4) : (scIdxOk a && scIdxOk b) = true :=
  Bool.and_eq_true_iff.2 ⟨decide_eq_true ha, decide_eq_true hb⟩

theorem scIdxOk_three {a b c : Nat} (ha : a < 4) (hb : b < 4) (hc : c < 4) :
    (scIdxOk a && scIdxOk b && scIdxOk c) = true :=
  Bool.and_eq_true_iff.2 ⟨scIdxOk_two ha hb, decide_eq_true hc⟩

theorem isValid_sc_two {s : State} {a b : Nat} (ha : s.isValid (.s a) = true) (hb : s.isValid (.s b) = true) :
    ∀ r ∈ [RegName.s a, RegName.s b], s.isValid r = true :=
  List.forall_mem_cons.2 ⟨ha, List.forall_mem_singleton.2 hb⟩

/-- R149, a sum below L: nothing is subtracted and nothing cut off. -/
theorem vecVal_scAdd_of_lt {a b : Sc} (h : vecVal a + vecVal b < groupOrder) :
    vecVal (scAdd a b) = vecVal a + vecVal b := by
  rw [vecVal_scAdd, if_neg (by omega), Nat.mod_eq_of_lt (h.trans (by decide))]

/-- R149, a sum of at least L: L is subtracted once. -/
theorem vecVal_scAdd_of_le {a b : Sc} (h : groupOrder ≤ vecVal a + vecVal b) :
    vecVal (scAdd a b) = (vecVal a + vecVal b - groupOrder) % 2 ^ 256 := by
  rw [vecVal_scAdd, if_pos h]

/-- R149, reduced sources: one subtraction of L reduces the sum, which fits 256 bits. -/
theorem vecVal_scAdd_reduced {a b : Sc} (ha : vecVal a < groupOrder) (hb : vecVal b < groupOrder) :
    vecVal (scAdd a b) = (vecVal a + vecVal b) % groupOrder := by
  rcases Nat.lt_or_ge (vecVal a + vecVal b) groupOrder with hlt | hge
  · rw [vecVal_scAdd_of_lt hlt, Nat.mod_eq_of_lt hlt]
  · have hred : vecVal a + vecVal b - groupOrder < groupOrder := by omega
    rw [vecVal_scAdd_of_le hge, Nat.mod_eq_sub_mod hge, Nat.mod_eq_of_lt hred,
      Nat.mod_eq_of_lt (hred.trans (by decide))]

theorem vecVal_sc_lt_two_pow (a : Sc) : vecVal a < 2 ^ 256 := by exact_mod_cast vecVal_sc_lt a

/-- R150, no final borrow. -/
theorem vecVal_scSubnr_of_le {a b : Sc} (h : vecVal b ≤ vecVal a) : vecVal (scSubnr a b) = vecVal a - vecVal b := by
  have hdiff : vecVal a + 2 ^ 256 - vecVal b = vecVal a - vecVal b + 2 ^ 256 := by omega
  rw [vecVal_scSubnr, hdiff, Nat.add_mod_right,
    Nat.mod_eq_of_lt ((Nat.sub_le _ _).trans_lt (vecVal_sc_lt_two_pow a))]

/-- R150, the final borrow dropped. -/
theorem vecVal_scSubnr_of_lt {a b : Sc} (h : vecVal a < vecVal b) :
    vecVal (scSubnr a b) = vecVal a + 2 ^ 256 - vecVal b := by
  rw [vecVal_scSubnr, Nat.mod_eq_of_lt (by omega)]

/-- Settles O39: the value of each result by `vecVal_scAdd`, `vecVal_scSubnr` and `vecVal_scMul`, in the statement's
cases. -/
theorem scArithmeticResults : Obligations.ScArithmeticResults := by
  unfold Obligations.ScArithmeticResults
  intro s rd ra rb hrd hra hrb hva hvb
  have hidx := scIdxOk_three hrd hra hrb
  have hsrc := isValid_sc_two hva hvb
  exact ⟨⟨scAdd (s.sc ra) (s.sc rb), exec_of_checks hidx hsrc rfl rfl rfl, vecVal_scAdd_of_lt, vecVal_scAdd_of_le,
      vecVal_scAdd_reduced⟩,
    ⟨scSubnr (s.sc ra) (s.sc rb), exec_of_checks hidx hsrc rfl rfl rfl, vecVal_scSubnr_of_le, vecVal_scSubnr_of_lt⟩,
    scMul (s.sc ra) (s.sc rb), exec_of_checks hidx hsrc rfl rfl rfl, vecVal_scMul _ _⟩

/-! SC.LT, SC.ISZERO, SC.ISSHORT and SC.LESSORDER. -/

theorem scIszero_eq (a : Sc) : scIszero a = decide (vecVal a = 0) :=
  Bool.eq_iff_iff.2 ((scIszero_iff a).trans decide_eq_true_iff.symm)

theorem scIsshort_eq (a : Sc) : scIsshort a = decide (vecVal a < 2 ^ 128) :=
  Bool.eq_iff_iff.2 ((scIsshort_iff a).trans decide_eq_true_iff.symm)

theorem scLessorder_eq {bs : List Byte} (h : bs.length = 32) : scLessorder bs = decide (leVal bs < groupOrder) :=
  Bool.eq_iff_iff.2 ((scLessorder_iff h).trans decide_eq_true_iff.symm)

/-- Settles O40: `scLt` is the comparison itself; the others are `scIszero_eq`, `scIsshort_eq` and `scLessorder_eq`. -/
theorem scPredicateResults : Obligations.ScPredicateResults := by
  unfold Obligations.ScPredicateResults
  refine ⟨fun s ra rb hra hrb hva hvb => ⟨?_, ?_, ?_⟩, fun s imm himm => ?_⟩
  · exact exec_of_checks (scIdxOk_two hra hrb) (isValid_sc_two hva hvb) rfl rfl rfl
  · rw [← scIszero_eq]
    exact exec_of_checks (decide_eq_true hra) (List.forall_mem_singleton.2 hva) rfl rfl rfl
  · rw [← scIsshort_eq]
    exact exec_of_checks (decide_eq_true hra) (List.forall_mem_singleton.2 hva) rfl rfl rfl
  · rw [← scLessorder_eq (readBytes_length s imm 32)]
    exact exec_of_checks (immOk_of_span himm (by decide)) (List.forall_mem_nil _) (spanOk_of_le himm) rfl rfl

/-! The constants. -/

/-- R181: d is −121665/121666. -/
theorem resD_ratio : 121666 * resD + 121665 = 0 := by
  have h : ((121666 * 37095705934669439343138083508754565189542113879843219016388785533085940283555 + 121665 : Nat) :
      ZMod fieldP) = 0 := (ZMod.natCast_eq_zero_iff _ _).2 (by decide)
  rw [resD_eq]
  exact_mod_cast h

/-- R182: G has Z = 1, so its coordinates are affine: it is on the curve and T = X·Y. -/
theorem geBase_affine : OnCurve (feRes geBase.x) (feRes geBase.y) ∧ feRes geBase.t = feRes geBase.x * feRes geBase.y := by
  have := fieldP_fact
  have hz : feRes geBase.z = 1 := feRes_one
  obtain ⟨-, hxy, hcurve⟩ := represents_base.wf
  rw [hz, one_mul] at hxy
  rw [hz, inv_one, mul_one, mul_one] at hcurve
  exact ⟨hcurve, hxy.symm⟩

/-- R182: the y of G is 4/5. -/
theorem geBase_y_ratio : 5 * feRes geBase.y = 4 := by
  have hy : vecVal geBase.y = baseY := by decide
  have h : ((5 * baseY : Nat) : ZMod fieldP) = (4 : Nat) := (ZMod.natCast_eq_natCast_iff' _ _ _).2 (by decide)
  rw [feRes, hy]
  exact_mod_cast h

theorem vecVal_feOfNat_lt {x : Nat} (h : x < fieldP) : vecVal (feOfNat x) < fieldP :=
  (vecVal_pack_limbsOf x).trans_lt ((Nat.mod_le _ _).trans_lt h)

/-- R181, R182: the constants are canonical, each made of a number below p. -/
theorem curve_constants_canonical :
    ∀ v ∈ [curveD, curveD2, curveSqrtM1, geBase.x, geBase.y, geBase.z, geBase.t], vecVal v < fieldP := by
  simp only [List.forall_mem_cons]
  have hz : vecVal geBase.z < fieldP := vecVal_one.trans_lt (by decide)
  exact ⟨vecVal_feOfNat_lt (by decide), vecVal_feOfNat_lt (by decide), vecVal_feOfNat_lt (by decide),
    vecVal_feOfNat_lt (by decide), vecVal_feOfNat_lt (by decide), hz, vecVal_feOfNat_lt (by decide),
    List.forall_mem_nil _⟩

/-- R141: μ is the quotient of 2^512 by L. -/
theorem barrettMu_bounds :
    barrettMu * groupOrder ≤ 256 ^ 64 ∧ 256 ^ 64 < (barrettMu + 1) * groupOrder :=
  ⟨Nat.div_mul_le_self _ _, Nat.mul_comm groupOrder _ ▸ Nat.lt_mul_div_succ _ groupOrder_pos⟩

/-- Settles O43: the curve's constants by their numbers mod p, the base point by `represents_base` and
`edMul_groupOrder`, μ by `barrettMu_bounds`. -/
theorem curveConstants : Obligations.CurveConstants := by
  unfold Obligations.CurveConstants
  obtain ⟨hcurve, hxy⟩ := geBase_affine
  obtain ⟨hle, hlt⟩ := barrettMu_bounds
  exact ⟨resD_ratio, feRes_curveD2, resI_sq, hcurve, geBase_y_ratio, by decide, hxy, vecVal_one,
    curve_constants_canonical, edMul_mul_eq_zero represents_base.onCurve edMul_groupOrder, basePoint_ne,
    hle, hlt, limbVal_muLimbs, limbVal_lLimbs⟩

end Sys2Proof.Machine

/-! SUPPORT. The GE commands as the group law (spec/42_group_element.md R185 to R189, R193), and that every step leaves
points of the curve in the written GE registers (R183; spec/60_exceptions.md R236). -/

namespace Sys2Proof.Machine

/-! Registers that hold points. -/

theorem represents_self {g : Ge} (hinv : geInv g) (hwf : GeWellFormed g) : Represents g (gePoint g) := ⟨hinv, hwf, rfl⟩

/-- A value that represents some point represents its own. -/
theorem Represents.self {g : Ge} {P : ZMod fieldP × ZMod fieldP} (h : Represents g P) : Represents g (gePoint g) :=
  represents_self h.inv h.wf

/-- Every written GE register represents its point: `State.PointsOk` with INV-FE, and of a stopped engine too. -/
def State.HoldsPoints (s : State) : Prop := ∀ i, s.isValid (.g i) = true → Represents (s.ge i) (gePoint (s.ge i))

theorem State.Inv.holdsPoints {s : State} (h : s.Inv) (hp : s.PointsOk) (hf : s.fault = false) : s.HoldsPoints :=
  fun i hi => represents_self (h.geRegs hf i hi) (hp hf i hi)

/-- What the GE registers hold and which are written is read off the GE file alone. -/
theorem State.HoldsPoints.congr {s t : State} (h : s.HoldsPoints) (hg : t.g = s.g) : t.HoldsPoints := by
  intro i hi
  have hvalid : t.isValid (.g i) = s.isValid (.g i) := by simp only [State.isValid, hg]
  have hread : t.ge i = s.ge i := by simp only [State.ge, hg]
  rw [hread]
  exact h i (hvalid ▸ hi)

/-- R189, R190, R193: the group operations and decompression give points, so a checked command keeps them. -/
theorem State.HoldsPoints.effect {s : State} (h : s.HoldsPoints) {i : Instr} (hp : precheck i s = none) :
    (effect i s).HoldsPoints := by
  refine effect_ge (P := fun g => Represents g (gePoint g)) (fun _ _ ha hb => (ha.add hb).self) (fun _ ha => ha.dbl.self)
    (fun _ u v ha => (ha.dsmul u v).self) (fun _ g hl hg => ?_) h hp
  obtain ⟨_, -, hrep⟩ := (decompress_spec hl).1 g hg
  exact hrep.self

/-! What a step does to the GE registers. -/

/-- What a step can do to the GE registers of an engine: it stops the engine, keeps the GE file, leaves no GE register
written, or is the effect of a command that passes its checks. -/
inductive GeStep (s : State) : State → Prop
  | stopped {t : State} (hf : t.fault = true) : GeStep s t
  | kept {t : State} (hg : t.g = s.g) (hf : t.fault = s.fault) : GeStep s t
  | unwritten {t : State} (hv : ∀ i, t.isValid (.g i) = false) : GeStep s t
  | command {u : State} {i : Instr} (hg : u.g = s.g) (hf : u.fault = s.fault) (hp : precheck i u = none) :
      GeStep s (effect i u)

/-- Only the GE file and FAULT of the state before matter. -/
theorem GeStep.of_same {s u t : State} (h : GeStep u t) (hg : u.g = s.g) (hf : u.fault = s.fault) : GeStep s t := by
  cases h with
  | stopped hstop => exact .stopped hstop
  | kept hg' hf' => exact .kept (hg'.trans hg) (hf'.trans hf)
  | unwritten hv => exact .unwritten hv
  | command hg' hf' hp => exact .command (hg'.trans hg) (hf'.trans hf) hp

theorem geStep_exec {s t : State} {i : Instr} (hx : exec i s = .next t) : GeStep s t := by
  rcases exec_cases i s with ⟨c, -, he⟩ | ⟨hp, he⟩ <;> rw [he] at hx <;> cases hx
  · exact .stopped rfl
  · exact .command rfl rfl hp

theorem geStep_runCmd {s t : State} {w : Word} (hx : runCmd s w = .next t) : GeStep s t := by
  unfold runCmd at hx
  split at hx
  · cases hx; exact .kept rfl rfl
  · split at hx
    · exact geStep_exec hx
    · cases hx; exact .stopped rfl

theorem geStep_startCmd (s : State) (w : Word) : GeStep s (startCmd s w) := by
  cases hf : s.fault with
  | true => exact .stopped (by simp [startCmd, hf])
  | false =>
    rcases startCmd_cases s w hf with ⟨c, -, e⟩ | ⟨i, -, -, e⟩ <;> rw [e]
    · exact .stopped rfl
    · exact .kept rfl rfl

theorem geStep_writeLenCsr (s : State) (n : Nat) (v : Word) : GeStep s (s.writeLenCsr n v) := by
  unfold State.writeLenCsr
  split <;> exact .kept rfl rfl

theorem geStep_hostWriteOm (s : State) (a : Nat) (b : Byte) : GeStep s (s.hostWriteOm a b) := by
  unfold State.hostWriteOm
  split <;> exact .kept rfl rfl

theorem geStep_resetEvent (s : State) : GeStep s s.resetEvent := .unwritten fun i => isValid_resetEvent s (.g i)

/-- R236: a guarded write to a busy engine abandons the command and stops the engine; any other is ignored. -/
theorem geStep_abandonIf (s : State) (i : Instr) (b : Bool) : GeStep s (if b then s.abandon i else s) := by
  cases b with
  | false => exact .kept rfl rfl
  | true => exact .stopped rfl

theorem geStep_idleAccess {s t : State} {a : HostAccess} (hx : idleAccess a s = .next t) : GeStep s t := by
  cases a with
  | writeCsr n v =>
    rw [idleAccess] at hx
    split at hx
    · exact geStep_runCmd hx
    · cases hx; exact geStep_writeLenCsr s n v
  | startCmd w => cases hx; exact geStep_startCmd s w
  | readCsr n => cases hx; exact .kept rfl rfl
  | writeOm a b => cases hx; exact geStep_hostWriteOm s a b
  | readOm a => cases hx; exact .kept rfl rfl
  | wait => cases hx; exact .kept rfl rfl
  | reset => cases hx; exact geStep_resetEvent s

theorem geStep_busyAccess {s t : State} {i : Instr} {a : HostAccess} (hx : busyAccess i a s = .next t) : GeStep s t := by
  cases a with
  | writeCsr n v => cases hx; exact geStep_abandonIf s i (csrGuarded n)
  | startCmd w => cases hx; exact geStep_abandonIf s i true
  | readCsr n => cases hx; exact .kept rfl rfl
  | writeOm a b => cases hx; exact geStep_abandonIf s i (s.omHas a)
  | readOm a => cases hx; exact .kept rfl rfl
  | wait => exact (geStep_exec hx).of_same rfl rfl
  | reset => cases hx; exact geStep_resetEvent s

theorem geStep_of_step {s t : State} (hx : step s = .next t) : GeStep s t := by
  obtain ⟨a, rest, hstep⟩ := step_eq_hostAccess s
  rw [hstep, hostAccess] at hx
  split at hx
  · exact (geStep_idleAccess hx).of_same rfl rfl
  · exact (geStep_busyAccess hx).of_same rfl rfl

/-- R183: whichever of the four a step does, the written GE registers of an engine that is not stopped hold points. -/
theorem GeStep.pointsOk {s t : State} (h : GeStep s t) (hs : s.fault = false → s.HoldsPoints) : t.PointsOk := by
  intro ht j hj
  cases h with
  | stopped hf => rw [hf] at ht; cases ht
  | kept hg hf => exact ((hs (hf ▸ ht)).congr hg j hj).wf
  | unwritten hv => rw [hv j] at hj; cases hj
  | @command u i hg hf hp =>
    have hu : u.fault = false := (effect_rest i u).fault ▸ ht
    exact (((hs (hf ▸ hu)).congr hg).effect hp j hj).wf

/-- Settles O60: `geStep_of_step` says what a step does to the GE registers, and each keeps registers that represent
their points, which `State.Inv` (for INV-FE) and `State.PointsOk` together say of the state before. -/
theorem stepKeepsPointsOnTheCurve : Obligations.StepKeepsPointsOnTheCurve := by
  unfold Obligations.StepKeepsPointsOnTheCurve
  obtain ⟨-, hreset⟩ := resetMeetsTheInvariants
  exact ⟨hreset, fun s t hinv hpoints hx => (geStep_of_step hx).pointsOk (hinv.holdsPoints hpoints)⟩

/-! Addition, doubling and the double-scalar product. -/

/-- Settles O44: `Represents.add` and `Represents.dbl` for the register values, `resD_complete` and `onCurve_edAdd` for
the affine law. -/
theorem groupLawIsComplete : Obligations.GroupLawIsComplete := by
  unfold Obligations.GroupLawIsComplete
  refine ⟨fun P Q hP hQ hwP hwQ => ?_, fun x1 y1 x2 y2 h1 h2 => ?_⟩
  · have hrP := represents_self hP hwP
    have hsum := hrP.add (represents_self hQ hwQ)
    have hdbl := hrP.dbl
    exact ⟨hsum.inv, hsum.wf, hsum.wf.1, hsum.point, hdbl.inv, hdbl.wf, hdbl.wf.1, hdbl.point⟩
  · obtain ⟨hplus, hminus⟩ := resD_complete h1 h2
    exact ⟨hplus, hminus, onCurve_edAdd (p := (x1, y1)) (q := (x2, y2)) h1 h2⟩

/-- R185: the coordinates `ge_add` computes, as residues. -/
theorem feRes_geAdd {P Q : Ge} (hP : geInv P) (hQ : geInv Q) {a b c dd : ZMod fieldP}
    (ha : a = (feRes P.y - feRes P.x) * (feRes Q.y - feRes Q.x)) (hb : b = (feRes P.y + feRes P.x) * (feRes Q.y + feRes Q.x))
    (hc : c = feRes P.t * feRes Q.t * (2 * resD)) (hdd : dd = 2 * (feRes P.z * feRes Q.z)) :
    feRes (geAdd P Q).x = (b - a) * (dd - c) ∧ feRes (geAdd P Q).y = (dd + c) * (b + a) ∧
      feRes (geAdd P Q).z = (dd - c) * (dd + c) ∧ feRes (geAdd P Q).t = (b - a) * (b + a) := by
  have hsubP := feRes_sub P.y hP.1
  have hsubQ := feRes_sub Q.y hQ.1
  have hsub (x y z : Fe) : feRes (feSub x (feMul y z)) = feRes x - feRes (feMul y z) := feRes_sub x (feInv_mul y z)
  simp only [geAdd, feRes_mul, feRes_add, hsub, hsubP, hsubQ, feRes_curveD2, ← two_mul, ha, hb, hc, hdd, and_self]

/-- R187: the coordinates `ge_dbl` computes, as residues. -/
theorem feRes_geDbl (P : Ge) {e f g h : ZMod fieldP} (hh : h = feRes P.x ^ 2 + feRes P.y ^ 2)
    (he : e = h - (feRes P.x + feRes P.y) ^ 2) (hg : g = feRes P.x ^ 2 - feRes P.y ^ 2) (hf : f = 2 * feRes P.z ^ 2 + g) :
    feRes (geDbl P).x = e * f ∧ feRes (geDbl P).y = g * h ∧ feRes (geDbl P).z = f * g ∧ feRes (geDbl P).t = e * h := by
  have hsub (x y : Fe) : feRes (feSub x (feSquare y)) = feRes x - feRes (feSquare y) := feRes_sub x (feInv_square y)
  simp only [geDbl, feRes_mul, feRes_add, feRes_square, hsub, ← two_mul, he, hf, hg, hh, and_self]

theorem geIdxOk_two {a b : Nat} (ha : a < 4) (hb : b < 4) : (geIdxOk a && geIdxOk b) = true :=
  Bool.and_eq_true_iff.2 ⟨decide_eq_true ha, decide_eq_true hb⟩

/-- Settles O45: `feRes_geAdd` for the coordinates, `Represents.add` for the point. -/
theorem geAddResult : Obligations.GeAddResult := by
  unfold Obligations.GeAddResult
  intro s rd ra rb hrd hra hrb hva hvb
  refine ⟨geAdd (s.ge ra) (s.ge rb), ?_, geInv_add _ _, fun hia hib => ⟨?_, fun hwa hwb => ?_⟩⟩
  · exact exec_of_checks (Bool.and_eq_true_iff.2 ⟨geIdxOk_two hrd hra, decide_eq_true hrb⟩)
      (List.forall_mem_cons.2 ⟨hva, List.forall_mem_singleton.2 hvb⟩) rfl rfl rfl
  · exact fun _ _ _ _ => feRes_geAdd hia hib
  · have hsum := (represents_self hia hwa).add (represents_self hib hwb)
    exact ⟨hsum.wf, hsum.point⟩

/-- Settles O46: `feRes_geDbl` for the coordinates, `Represents.dbl` for the point. -/
theorem geDblResult : Obligations.GeDblResult := by
  unfold Obligations.GeDblResult
  intro s rd ra hrd hra hva
  refine ⟨geDbl (s.ge ra), ?_, geInv_dbl _, fun hia => ⟨?_, fun hwa => ?_⟩⟩
  · exact exec_of_checks (geIdxOk_two hrd hra) (List.forall_mem_singleton.2 hva) rfl rfl rfl
  · exact fun _ _ _ _ => feRes_geDbl _
  · have hdbl := (represents_self hia hwa).dbl
    exact ⟨hdbl.wf, hdbl.point⟩

/-- Settles O49: `Represents.dsmul` for the point. -/
theorem geDsmulResult : Obligations.GeDsmulResult := by
  unfold Obligations.GeDsmulResult
  refine ⟨by decide, fun s rd ra rb rc hrd hra hrb hrc hva hvb hvc => ?_⟩
  refine ⟨geDsmul (s.ge ra) (s.sc rb) (s.sc rc), ?_, fun hia hwa => ?_⟩
  · exact exec_of_checks
      (Bool.and_eq_true_iff.2 ⟨Bool.and_eq_true_iff.2 ⟨geIdxOk_two hrd hra, decide_eq_true hrb⟩, decide_eq_true hrc⟩)
      (List.forall_mem_cons.2 ⟨hva, List.forall_mem_cons.2 ⟨hvb, List.forall_mem_singleton.2 hvc⟩⟩) rfl rfl rfl
  · have hprod := (represents_self hia hwa).dsmul (s.sc rb) (s.sc rc)
    exact ⟨hprod.inv, hprod.wf, hprod.point⟩

end Sys2Proof.Machine

/-! SUPPORT. What a fault changes (spec/60_exceptions.md R234), and the verdict and the frame of VERIFY
(spec/43_verifier.md R214 to R223). -/

namespace Sys2Proof.Machine

/-! A command that faults and one that does not. -/

section
variable {i : Instr} {s t : State} (hx : exec i s = .next t)
include hx

/-- An engine that was not stopped is stopped by a failing check alone: no effect raises FAULT. -/
theorem exec_faulted (hf : s.fault = false) (ht : t.fault = true) : ∃ c, precheck i s = some c ∧ t = s.takeFault c := by
  rcases exec_cases i s with ⟨c, hc, he⟩ | ⟨-, he⟩ <;> rw [he] at hx <;> cases hx
  · exact ⟨c, hc, rfl⟩
  · rw [(effect_rest i s).fault, hf] at ht
    cases ht

theorem exec_completed (ht : t.fault = false) : t = effect i s := by
  rcases exec_cases i s with ⟨c, -, he⟩ | ⟨-, he⟩ <;> rw [he] at hx <;> cases hx
  · cases ht
  · rfl

end

/-! Which faults a word written to CMD can raise. -/

/-- F_BUSY is the host's fault, no check of a command raises it (R236). -/
theorem precheck_ne_busy (i : Instr) (s : State) : precheck i s ≠ some .busy := by
  unfold precheck
  split_ifs <;> nofun

theorem FaultCode.toByte_mem_of_ne_busy {c : FaultCode} (h : c ≠ .busy) :
    c.toByte ∈ ([0x01, 0x02, 0x03, 0x05] : List Byte) := by
  cases c with
  | busy => exact absurd rfl h
  | illegal | unwritten | addr | len => decide

/-- R234: the fault entry, in the words of O20. -/
theorem takeFault_changes (s : State) {c : FaultCode} (h : c ≠ .busy) :
    s.takeFault c = { s with fault := true, faultCode := (s.takeFault c).faultCode, running := none } ∧
      (s.takeFault c).faultCode ∈ ([0x01, 0x02, 0x03, 0x05] : List Byte) :=
  ⟨rfl, FaultCode.toByte_mem_of_ne_busy h⟩

theorem runCmd_faulted {s t : State} {w : Word} (hf : s.fault = false) (hx : runCmd s w = .next t)
    (ht : t.fault = true) : ∃ c, c ≠ .busy ∧ t = s.takeFault c := by
  cases hd : decode w with
  | error e =>
    rw [runCmd_of_error hf hd] at hx
    cases hx
    exact ⟨.illegal, nofun, rfl⟩
  | ok i =>
    rw [runCmd_of_decode hf hd] at hx
    obtain ⟨c, hc, rfl⟩ := exec_faulted hx hf ht
    exact ⟨c, fun hb => precheck_ne_busy i s (hb ▸ hc), rfl⟩

theorem startCmd_faulted {s : State} {w : Word} (hf : s.fault = false) (ht : (startCmd s w).fault = true) :
    ∃ c, c ≠ .busy ∧ startCmd s w = s.takeFault c := by
  rcases startCmd_cases s w hf with hfault | ⟨i, -, -, hrun⟩
  · exact hfault
  · rw [hrun, hf] at ht
    cases ht

/-- Settles O20: in each case the state after is `State.takeFault` of a code other than F_BUSY, by `exec_faulted`,
`runCmd_faulted` or `startCmd_faulted`. -/
theorem faultChangesOnlyStatus : Obligations.FaultChangesOnlyStatus := by
  unfold Obligations.FaultChangesOnlyStatus
  refine ⟨fun i s t hf hx ht => ?_, fun w s t rest hr hf hx ht => ?_, fun w s t hf hx ht => ?_⟩
  · obtain ⟨c, hc, rfl⟩ := exec_faulted hx hf ht
    obtain ⟨hsame, hcode⟩ := takeFault_changes s fun hb => precheck_ne_busy i s (hb ▸ hc)
    exact ⟨hsame, hcode, hashRequest_fault hc⟩
  · have hfault : ∃ c, c ≠ .busy ∧ t = State.takeFault { s with host := rest } c := by
      rcases hx with hx | hx
      · rw [step_idle s _ rest hr] at hx
        exact runCmd_faulted (s := { s with host := rest }) hf hx ht
      · rw [step_startCmd_idle rest w hr] at hx
        cases hx
        exact startCmd_faulted (s := { s with host := rest }) hf ht
    obtain ⟨c, hc, rfl⟩ := hfault
    exact takeFault_changes _ hc
  · obtain ⟨c, hc, rfl⟩ := runCmd_faulted hf hx ht
    exact takeFault_changes s hc

/-! The verdict (R223). -/

/-- R223 on the bytes a state holds: R and S are the two halves of the signature. -/
theorem verifyRun_verdict_iff (s : State) :
    s.verifyRun.verdict = true ↔ s.pkLen = 32 ∧ s.sigLen = 64 ∧ leVal (s.readBytes 0x040 32) < groupOrder ∧
      ∃ A, DecodesTo (s.readBytes 0x000 32) A ∧
        encodePoint (edAdd
          (edMul (vecVal (s.params.hash (s.readBytes 0x020 32 ++ s.readBytes 0x000 32 ++
            s.readBytes 0x1000 s.msgLen.toNat)) % groupOrder) (-A.1, A.2))
          (edMul (leVal (s.readBytes 0x040 32)) basePoint)) = s.readBytes 0x020 32 := by
  have hrun := verifySteps_verdict s.params.hash s.pkLen s.sigLen (s.readBytes 0x1000 s.msgLen.toNat)
    (readBytes_length s 0x000 32) (readBytes_length s 0x020 64)
  rwa [verify_drop, readBytes_take s 0x020 (by decide : 32 ≤ 64)] at hrun

/-- Settles O50: P is the run's verdict, and the verdict is the equation (`verifyRun_verdict_iff`). -/
theorem verifyVerdict : Obligations.VerifyVerdict := by
  unfold Obligations.VerifyVerdict
  exact fun s hfits => ⟨s.verifyRun.verdict, exec_verify_of_fits hfits, verifyRun_verdict_iff s⟩

/-! A scalar S of L or more (R214, R215). -/

theorem le_toNat_of_topBits : ∀ b : Byte, b &&& 0xE0 ≠ 0 → 32 ≤ b.toNat := by decide

/-- R214: byte 31 of S has the weight 2^248, so its top three bits have 2^253 and above. -/
theorem le_leVal_of_topBits {s : State} (h : s.readByte 0x05F &&& 0xE0 ≠ 0) :
    2 ^ 253 ≤ leVal (s.readBytes 0x040 32) := by
  have hlast := le_toNat_of_topBits _ h
  have hbyte : (byteLimbs (s.readBytes 0x040 32)).getD 31 0 = (s.readByte 0x05F).toNat :=
    (List.getD_map _ 0 BitVec.toNat).trans (congrArg BitVec.toNat (getD_readBytes s 0x040 (by decide)))
  rw [leVal, limbVal_split (by simp), hbyte]
  omega

/-- R215: with S at L or above the run ends, before the hash, at step 1, 2 or 3. -/
theorem verifyRun_of_le {s : State} (h : groupOrder ≤ leVal (s.readBytes 0x040 32)) :
    ∃ k ≤ 3, s.verifyRun = ⟨false, k, none⟩ := by
  by_cases hlen : s.pkLen = 32 ∧ s.sigLen = 64
  · obtain ⟨hpk, hsig⟩ := hlen
    by_cases htop : s.readByte 0x05F &&& 0xE0 = 0
    · exact ⟨3, by decide, verifyRun_of_order hpk hsig htop h⟩
    · exact ⟨2, by decide, verifyRun_of_topBits hpk hsig htop⟩
  · exact ⟨1, by decide, verifyRun_of_lengths (not_and_or.1 hlen)⟩

/-- Settles O52: the top bits alone put S at 2^253 or above (`le_leVal_of_topBits`), and such an S ends the run early
(`verifyRun_of_le`). -/
theorem verifyRejectsNonCanonicalS : Obligations.VerifyRejectsNonCanonicalS := by
  unfold Obligations.VerifyRejectsNonCanonicalS
  refine ⟨groupOrder_lt, fun s => ⟨le_leVal_of_topBits, fun hfits h => ?_⟩⟩
  obtain ⟨k, hk, hrun⟩ := verifyRun_of_le h
  rw [exec_verify_of_fits hfits, hashRequest_verify hfits, effect, hrun]
  exact ⟨rfl, rfl, hk⟩

/-! The trace VERIFY leaves (R220, R222). -/

/-- R29: STATUS shows BUSY, P, FAULT and FAULT_CODE, and nothing else. -/
theorem status_congr {s t : State} (hrun : s.running = t.running) (hp : s.p = t.p) (hf : s.fault = t.fault)
    (hcode : s.faultCode = t.faultCode) : s.status = t.status := by
  simp only [State.status, State.statusWith, State.busy, hrun, hp, hf, hcode]

/-- Settles O53: a VERIFY that completes is `State.clearAll` with P written (`exec_completed`), one that faults is
`State.takeFault` (`exec_faulted`). -/
theorem verifyLeavesNoTrace : Obligations.VerifyLeavesNoTrace := by
  unfold Obligations.VerifyLeavesNoTrace
  refine ⟨fun s hfits hf => ?_, fun s t s' t' hs ht hsf htf hs'f ht'f hsp htp hregf hregs hregg hrun hcode => ?_,
    fun s t hf hx ht r => ?_⟩
  · refine ⟨_, exec_verify_of_fits hfits, fun r => ?_, hf, rfl, fun _ => rfl, sameRest_verify s _⟩
    rw [effect, isValid_setP, isValid_clearAll]
  · obtain rfl := exec_completed hs hs'f
    obtain rfl := exec_completed ht ht'f
    have hp := hsp.trans htp.symm
    exact ⟨hp, status_congr hrun hp (hsf.trans htf.symm) hcode, congrArg invalidateAll hregf,
      congrArg invalidateAll hregs, congrArg invalidateAll hregg⟩
  · obtain ⟨c, -, rfl⟩ := exec_faulted hx hf ht
    exact isValid_takeFault s c r

end Sys2Proof.Machine

/-! SUPPORT. Faults (spec/60_exceptions.md R230 to R235): the converse of the checks, which check of which command raises
a fault, and the engine that a fault has stopped. -/

namespace Sys2Proof.Machine

/-! What a failing check says of the command and of the state (R231 to R233). -/

/-- R232: a command that has a source register is none of those that have none. -/
theorem ne_of_mem_sources {i j : Instr} {r : RegName} (hr : r ∈ i.sources) (hj : j.sources = []) : i ≠ j := by
  rintro rfl
  rw [hj] at hr
  cases hr

theorem exists_of_spanOk_eq_false {span : Option (Nat × Nat)} (h : spanOk span = false) :
    ∃ a n, span = some (a, n) ∧ 0x1000 < a + n := by
  cases span with
  | none => cases h
  | some p => exact ⟨p.1, p.2, rfl, not_le.1 (of_decide_eq_false h)⟩

/-- R212: only VERIFY looks at MSG_LEN. -/
theorem verify_of_lenOk_eq_false {i : Instr} {s : State} (h : lenOk i s = false) :
    i = .verify ∧ s.params.msgMax < s.msgLen.toNat := by
  cases i with
  | verify => exact ⟨rfl, not_le.1 (of_decide_eq_false h)⟩
  | _ => cases h

/-- The eleven commands of the F_ADDR row of R231, by the address of the span. -/
theorem instr_of_span {i : Instr} {a n : Nat} (h : i.readSpan = some (a, n) ∨ i.writeSpan = some (a, n)) :
    ∃ b c, i = .feUnpack b a ∨ i = .fePack a b ∨ i = .scFrom32 b a ∨ i = .scFrom64 b a ∨ i = .scTo32 a b ∨
      i = .scLessorder a ∨ i = .scWindow3 a b ∨ i = .scWindow5 a b ∨ i = .scInterleave2 a b c ∨ i = .geDecompneg b a ∨
      i = .gePack a b := by
  cases i with
  | feUnpack _ imm | fePack imm _ | scFrom32 _ imm | scFrom64 _ imm | scTo32 imm _ | scLessorder imm
  | scWindow3 imm _ | scWindow5 imm _ | scInterleave2 imm _ _ | geDecompneg _ imm | gePack imm _ =>
    obtain rfl : imm = a := by rcases h with h | h <;> cases h; rfl
    simp
  | _ => rcases h with h | h <;> cases h

/-- The converse of the checks: what holds of a legal command that raises a fault, by its code. -/
theorem failed_check {i : Instr} {s : State} {c : FaultCode} (hw : i.wellFormed = true) (hp : precheck i s = some c) :
    (c = .unwritten ∧ ∃ r ∈ i.sources, s.isValid r = false) ∨
      (c = .addr ∧ ∃ a n, (i.readSpan = some (a, n) ∨ i.writeSpan = some (a, n)) ∧ 0x1000 < a + n) ∨
      (c = .len ∧ i = .verify ∧ s.params.msgMax < s.msgLen.toNat) := by
  unfold precheck at hp
  split_ifs at hp with hill hsrc hspan hlen
  · rw [hw] at hill; cases hill
  · cases hp
    refine .inl ⟨rfl, ?_⟩
    simpa [List.all_eq_false] using hsrc
  · cases hp
    refine .inr (.inl ⟨rfl, ?_⟩)
    rw [Bool.not_eq_true', Bool.and_eq_false_iff] at hspan
    rcases hspan with hspan | hspan <;> obtain ⟨a, n, hs, hn⟩ := exists_of_spanOk_eq_false hspan
    · exact ⟨a, n, .inl hs, hn⟩
    · exact ⟨a, n, .inr hs, hn⟩
  · cases hp
    exact .inr (.inr ⟨rfl, verify_of_lenOk_eq_false (by simpa using hlen)⟩)

/-- The legal commands of a list that share their sources all raise F_UNWRITTEN when one of these is unwritten. -/
theorem forall_exec_unwritten {s : State} {is : List Instr} (rs : List RegName)
    (hi : ∀ i ∈ is, i.wellFormed = true ∧ i.sources = rs) (hv : ∃ r ∈ rs, s.isValid r = false) :
    ∀ i ∈ is, exec i s = .next (s.faulted 0x02) := by
  intro i hmem
  obtain ⟨hw, rfl⟩ := hi i hmem
  exact exec_unwritten_fault hw hv

/-- Settles O17: a source that R232 lists and that is unwritten fails its check (`exec_unwritten_fault`); conversely a
fault is a failed check (`exec_faulted`), and `failed_check` says of which commands. -/
theorem unwrittenSourceFaults : Obligations.UnwrittenSourceFaults := by
  unfold Obligations.UnwrittenSourceFaults
  refine ⟨fun s rd ra rb imm hrd hra hrb himm => ⟨fun hv => ?_, fun hv => ?_, fun hv => ?_⟩,
    fun s rd ra rb rc imm hrd hra hrb hrc himm => ⟨fun hv => ?_, fun hv => ?_, fun hv => ?_, fun hv => ?_, fun hv => ?_⟩,
    fun s t i hw hf hx ht => ?_⟩
  · exact forall_exec_unwritten [.f ra]
      (by simp [Instr.wellFormed, Instr.sources, feIdxOk, immOk, hrd, hra, himm]) (by simpa using hv)
  · exact forall_exec_unwritten [.f ra, .f rb]
      (by simp [Instr.wellFormed, Instr.sources, feIdxOk, hrd, hra, hrb]) (by simpa using hv)
  · exact exec_unwritten_fault (feIdxOk_two hrd hra) (by simpa [Instr.sources] using hv)
  · exact forall_exec_unwritten [.s ra]
      (by simp [Instr.wellFormed, Instr.sources, scIdxOk, immOk, hra, himm]) (by simpa using hv)
  · exact forall_exec_unwritten [.s ra, .s rb]
      (by simp [Instr.wellFormed, Instr.sources, scIdxOk, immOk, hrd, hra, hrb, himm]) (by simpa using hv)
  · exact forall_exec_unwritten [.g ra]
      (by simp [Instr.wellFormed, Instr.sources, geIdxOk, immOk, hrd, hra, himm]) (by simpa using hv)
  · exact exec_unwritten_fault (by simp [Instr.wellFormed, geIdxOk, hrd, hra, hrb])
      (by simpa [Instr.sources] using hv)
  · exact exec_unwritten_fault (by simp [Instr.wellFormed, geIdxOk, scIdxOk, hrd, hra, hrb, hrc])
      (by simpa [Instr.sources] using hv)
  · obtain ⟨c, hp, rfl⟩ := exec_faulted hx hf ht
    rcases failed_check hw hp with ⟨rfl, r, hr, hv⟩ | ⟨rfl, a, n, hs, hn⟩ | ⟨rfl, hverify, hlong⟩
    · exact .inl ⟨rfl, ne_of_mem_sources hr rfl,
        fun rd imm => ⟨ne_of_mem_sources hr rfl, ne_of_mem_sources hr rfl, ne_of_mem_sources hr rfl,
          ne_of_mem_sources hr rfl, ne_of_mem_sources hr rfl⟩, r, hr, hv⟩
    · obtain ⟨b, c, hrow⟩ := instr_of_span hs
      exact .inr (.inl ⟨rfl, a, b, c, n, hrow, hs, hn⟩)
    · exact .inr (.inr ⟨rfl, hverify, hlong⟩)

/-- Settles O21: the fault is the failed check's (`exec_faulted`), and the checks of the two states agree
(`precheck_congr`). -/
theorem faultsDoNotDependOnData : Obligations.FaultsDoNotDependOnData := by
  unfold Obligations.FaultsDoNotDependOnData
  intro i s t s' hs _ hvalid hlen hmax hx hs'
  obtain ⟨c, hp, rfl⟩ := exec_faulted hx hs hs'
  exact exec_fault ((precheck_congr (fun r => (hvalid r).symm) hlen.symm hmax.symm i).trans hp)

/-! The stopped engine (R235). -/

theorem runCmd_stopped {s : State} (hf : s.fault = true) (w : Word) : runCmd s w = .next s := if_pos hf

theorem startCmd_stopped {s : State} (hf : s.fault = true) (w : Word) : startCmd s w = s := if_pos hf

theorem writeLenCsr_keeps_fault (s : State) (n : Nat) (v : Word) :
    (s.writeLenCsr n v).fault = s.fault ∧ (s.writeLenCsr n v).faultCode = s.faultCode := by
  unfold State.writeLenCsr
  split <;> exact ⟨rfl, rfl⟩

theorem hostWriteOm_keeps_fault (s : State) (a : Nat) (b : Byte) :
    (s.hostWriteOm a b).fault = s.fault ∧ (s.hostWriteOm a b).faultCode = s.faultCode := by
  unfold State.hostWriteOm
  split <;> exact ⟨rfl, rfl⟩

/-- R235: no access but reset changes FAULT or FAULT_CODE of a stopped engine. -/
theorem idleAccess_stopped_keeps_fault {a : HostAccess} {s t : State} (hf : s.fault = true) (ha : a ≠ .reset)
    (hx : idleAccess a s = .next t) : t.fault = s.fault ∧ t.faultCode = s.faultCode := by
  cases a with
  | writeCsr n v =>
    rw [idleAccess, runCmd_stopped hf] at hx
    split at hx <;> cases hx
    · exact ⟨rfl, rfl⟩
    · exact writeLenCsr_keeps_fault s n v
  | startCmd w => cases hx; rw [startCmd_stopped hf]; exact ⟨rfl, rfl⟩
  | readCsr n => cases hx; exact ⟨rfl, rfl⟩
  | writeOm a b => cases hx; exact hostWriteOm_keeps_fault s a b
  | readOm a => cases hx; exact ⟨rfl, rfl⟩
  | wait => cases hx; exact ⟨rfl, rfl⟩
  | reset => exact absurd rfl ha

/-- Settles O8: a write of CMD does nothing (`runCmd_stopped`, `startCmd_stopped`), the other accesses are those of any
engine that runs no command, and none of them changes the fault (`idleAccess_stopped_keeps_fault`). -/
theorem stoppedEngineIgnoresCommands : Obligations.StoppedEngineIgnoresCommands := by
  unfold Obligations.StoppedEngineIgnoresCommands
  intro s rest hr hf
  obtain ⟨-, -, hstatus⟩ := statusWith_bits s s.p
  refine ⟨fun w => ?_, fun w => ?_, fun a b ha => ?_, fun v => step_writeCsr_idle rest v hr (by decide),
    fun v => step_writeCsr_idle rest v hr (by decide), fun v => step_writeCsr_idle rest v hr (by decide),
    fun a ha => ?_, step_readCsr_idle rest 2 hr, step_readCsr_idle rest 3 hr, step_readCsr_idle rest 4 hr,
    step_readCsr_idle rest 1 hr, hstatus.trans hf, fun a t ha hx => ?_,
    _, step_idle s .reset rest hr, rfl⟩
  · rw [step_idle s _ rest hr]
    exact runCmd_stopped (s := { s with host := rest }) hf w
  · rw [step_startCmd_idle rest w hr, startCmd_stopped (s := { s with host := rest }) hf]
  · rw [step_writeOm_idle rest a b hr, hostWriteOm_inside (s := { s with host := rest }) ha]
    rfl
  · rw [step_readOm_idle rest a hr, hostReadByte_inside ha]
  · rw [step_idle s a rest hr] at hx
    obtain ⟨hfault, hcode⟩ := idleAccess_stopped_keeps_fault (s := { s with host := rest }) hf ha hx
    exact ⟨hfault.trans hf, hcode⟩

end Sys2Proof.Machine

/-! Reset and the way out of the stopped state (spec/70_reset_and_hazards.md R260 to R262). -/

namespace Sys2Proof.Machine

/-- With an access pending, the step is that access. -/
theorem step_cons {s : State} {a : HostAccess} {rest : List HostAccess} (h : s.host = a :: rest) :
    step s = hostAccess a { s with host := rest } := by
  simp only [step, h]

/-- R260: a host that does nothing and a host that waits are the same to the engine. -/
theorem complete_eq_hostAccess_wait (s : State) : complete s = hostAccess .wait s := by
  unfold complete hostAccess
  cases s.running <;> rfl

theorem step_nil {s : State} (h : s.host = []) : step s = hostAccess .wait s := by
  rw [← complete_eq_hostAccess_wait]
  simp only [step, h]

/-- R260: the reset input does the same to an idle, a stopped and a busy engine. -/
theorem hostAccess_reset (s : State) : hostAccess .reset s = .next s.resetEvent := by
  unfold hostAccess
  cases s.running <;> rfl

theorem step_reset {s : State} {rest : List HostAccess} (h : s.host = .reset :: rest) :
    step s = .next (State.resetEvent { s with host := rest }) := by
  rw [step_cons h, hostAccess_reset]

@[simp] theorem resetEvent_status (s : State) : s.resetEvent.status = 0 := rfl

@[simp] theorem resetEvent_readByte (s : State) (a : Nat) :
    s.resetEvent.readByte a = Config.unwrittenByte (s.resets + 1) a := rfl

/-- A guarded write raises F_BUSY, so FAULT stays 1 whether or not the command is abandoned. -/
theorem abandonIf_stopped {s : State} (hf : s.fault = true) (i : Instr) (b : Bool) :
    (if b then s.abandon i else s).fault = true := by
  cases b with
  | false => exact hf
  | true => rfl

/-- No command clears FAULT: it raises a fault of its own or leaves the fault state alone (`exec_next`). -/
theorem exec_stopped {i : Instr} {s t : State} (hf : s.fault = true) (hx : exec i s = .next t) : t.fault = true := by
  obtain ⟨u, hu, -, -, hfault⟩ := exec_next i s
  rw [hx] at hu
  cases hu
  rw [hfault, hf, Bool.true_or]

theorem busyAccess_stopped {i : Instr} {a : HostAccess} {s t : State} (hf : s.fault = true) (ha : a ≠ .reset)
    (hx : busyAccess i a s = .next t) : t.fault = true := by
  cases a with
  | writeCsr n v => cases hx; exact abandonIf_stopped hf i (csrGuarded n)
  | startCmd w => cases hx; rfl
  | readCsr n => cases hx; exact hf
  | writeOm a b => cases hx; exact abandonIf_stopped hf i (s.omHas a)
  | readOm a => cases hx; exact hf
  | wait => exact exec_stopped (s := { s with running := none }) hf hx
  | reset => exact absurd rfl ha

/-- R262: the one access that takes FAULT from 1 to 0 is reset, whether or not a command runs. -/
theorem eq_reset_of_hostAccess_clears_fault {a : HostAccess} {s t : State} (hf : s.fault = true)
    (hx : hostAccess a s = .next t) (ht : t.fault = false) : a = .reset := by
  by_contra ha
  have hstays : t.fault = true := by
    unfold hostAccess at hx
    split at hx
    · obtain ⟨hfault, -⟩ := idleAccess_stopped_keeps_fault hf ha hx
      exact hfault.trans hf
    · exact busyAccess_stopped hf ha hx
  rw [hstays] at ht
  cases ht

/-- Settles O9: the step is one access, with an empty queue that of a host that waits; only reset clears FAULT
(`eq_reset_of_hostAccess_clears_fault`), and it does (`step_reset`). -/
theorem onlyResetLeavesTheStoppedState : Obligations.OnlyResetLeavesTheStoppedState := by
  unfold Obligations.OnlyResetLeavesTheStoppedState
  refine fun s hf => ⟨fun t hx ht => ?_, fun rest hh => ⟨_, step_reset hh, rfl⟩⟩
  cases hh : s.host with
  | nil =>
    rw [step_nil hh] at hx
    cases eq_reset_of_hostAccess_clears_fault hf hx ht
  | cons a rest =>
    rw [step_cons hh] at hx
    rw [eq_reset_of_hostAccess_clears_fault (s := { s with host := rest }) hf hx ht]
    exact ⟨rest, rfl⟩

/-- Settles O10: the step is `State.resetEvent` from every state (`step_reset`), after which no register is written
(`isValid_resetEvent`) and memory reads as the next epoch's free values (`resetEvent_readByte`). -/
theorem resetGivesTheResetState : Obligations.ResetGivesTheResetState := by
  unfold Obligations.ResetGivesTheResetState
  intro s rest hh
  exact ⟨_, step_reset hh, isValid_resetEvent _, rfl, resetEvent_status _, rfl, rfl, rfl, rfl, rfl, rfl, rfl,
    resetEvent_readByte _, rfl, rfl⟩

end Sys2Proof.Machine
